-- ==== Sys2Proof/Word.lean ====
section
/-! DEFINITION. The machine's plain quantities: bytes and the fixed-width words of the command encoding. -/

namespace Sys2Proof

/-- A byte: an unsigned 8-bit value (R10). -/
abbrev Byte := BitVec 8

/-- A 16-bit word: the CRC register (R102) and the `u16` fields of the command encoding (R71). -/
abbrev Word16 := BitVec 16

/-- A 64-bit word: the `u64` values of the command and response encodings (R71, R212). -/
abbrev Word64 := BitVec 64

end Sys2Proof
end

