-- ==== Sys2Proof/Machine/Bytes.lean ====
section
/-! DEFINITION. Byte order (00_scope.md R11): the one place where it is decided. -/

namespace Sys2Proof.Machine

/-- `le(s)`: the little-endian value of a byte sequence (R11). -/
def le : List Byte → Nat
  | [] => 0
  | b :: bs => b.toNat + 256 * le bs

/-- `le_bytes_n(v)`: the `n`-byte little-endian sequence of `v` (R11; the spec uses it for `v < 2^(8n)`). -/
def leBytes : Nat → Nat → List Byte
  | 0, _ => []
  | n + 1, v => BitVec.ofNat 8 v :: leBytes n (v / 256)

/-- The byte at index `i`, 0 where the sequence is shorter. Only R72's length function reads past the end. -/
def byteAt (bs : List Byte) (i : Nat) : Nat := (bs.getD i 0).toNat

/-- The `u16` field at index `i` (R43, R75). -/
def u16At (bs : List Byte) (i : Nat) : Nat := byteAt bs i + 256 * byteAt bs (i + 1)

end Sys2Proof.Machine
end

