-- ==== Sys2Proof/Syntax.lean ====
section
/-! DEFINITION. The commands of the block (30_encoding.md Part B) and the frame record (00_scope.md R13). -/

namespace Sys2Proof

/-- The five header bytes of a frame, in wire order (R60). -/
structure Header where
  lrc : Byte
  id : Byte
  length : Byte
  crcLo : Byte
  crcHi : Byte
deriving DecidableEq, Repr

/-- A frame value (R13): its `id` and `length` are the header's. -/
structure Frame where
  header : Header
  payload : List Byte
deriving DecidableEq, Repr

/-- One item of BF_PACK: a value, a bit position and a field width (format P, R71). -/
structure PackItem where
  value : Word64
  shift : Byte
  nbits : Byte
deriving DecidableEq, Repr

/-- The commands: one constructor per row of spec/opcode_table.json (R70). The operands that may hold an
illegal value (`ty`, `w`, `k`) stay bytes, because such a command is decoded and then faults (R74). -/
inductive Instr where
  /-- 0x01, format B (R141). -/
  | addData (d : List Byte)
  /-- 0x02, format N (R150). -/
  | decode
  /-- 0x03, format N (R167). -/
  | readCrcErrors
  /-- 0x04, format N (R168). -/
  | readStatus
  /-- 0x0F, format N (R270). -/
  | reset
  /-- 0x10, format E (R121). -/
  | encode (id length : Byte) (p : List Byte)
  /-- 0x11, format F (R125). -/
  | toBytes (h : Header) (p : List Byte)
  /-- 0x20, format L (R108). -/
  | lrc (b0 b1 b2 b3 : Byte)
  /-- 0x21, format B (R109). -/
  | crc16 (d : List Byte)
  /-- 0x30, format K (R210). -/
  | codecDecode (k : Byte) (h : Header) (p : List Byte)
  /-- 0x31, format V (R215). -/
  | codecEncode (k : Byte) (v : List Word64)
  /-- 0x40, format S (R185). -/
  | rdScalar (ty : Byte) (off : Word16) (d : List Byte)
  /-- 0x41, format X (R191). -/
  | bfExtract (w : Byte) (word : List Byte) (shift nbits : Byte)
  /-- 0x42, format P (R193). -/
  | bfPack (w : Byte) (items : List PackItem)
deriving DecidableEq, Repr

end Sys2Proof
end

