-- ==== Sys2Proof/WellFormed.lean ====
section
/-! DEFINITION. Which terms of Instr are commands: those whose counted parts fit their count fields (R71, R72). -/

namespace Sys2Proof

/-- A byte sequence that a `u16` count field can announce (R71). -/
def fitsU16 (n : Nat) : Bool := decide (n < 65536)

/-- A term of Instr is well-formed when the command port can carry it: every `u16` count is below 65536, the
word of format X has `w` bytes, and the item count of format P is one byte (R71, R72, spec/opcode_table.json). -/
def Instr.wf : Instr → Bool
  | .addData d => fitsU16 d.length
  | .decode => true
  | .readCrcErrors => true
  | .readStatus => true
  | .reset => true
  | .encode _ _ p => fitsU16 p.length
  | .toBytes _ p => fitsU16 p.length
  | .lrc _ _ _ _ => true
  | .crc16 d => fitsU16 d.length
  | .codecDecode _ _ p => fitsU16 p.length
  | .codecEncode _ v => fitsU16 v.length
  | .rdScalar _ _ d => fitsU16 d.length
  | .bfExtract w word _ _ => word.length == w.toNat
  | .bfPack _ items => decide (items.length < 256)

end Sys2Proof
end

