-- ==== Sys2Proof/Decode.lean ====
section
/-! DEFINITION. The command encoding (30_encoding.md Part B): the decoder, total on any bytes, and the encoder. -/

namespace Sys2Proof

open Sys2Proof.Machine (le leBytes byteAt u16At)

/-- The command formats (R71). -/
inductive Format where
  | N | B | E | F | K | V | L | S | X | P
deriving DecidableEq, Repr

/-- The format an opcode selects, `none` for an unassigned opcode (R70, R74). -/
def formatOf (op : Byte) : Option Format :=
  match op with
  | 0x01#8 => some .B
  | 0x02#8 => some .N
  | 0x03#8 => some .N
  | 0x04#8 => some .N
  | 0x0F#8 => some .N
  | 0x10#8 => some .E
  | 0x11#8 => some .F
  | 0x20#8 => some .L
  | 0x21#8 => some .B
  | 0x30#8 => some .K
  | 0x31#8 => some .V
  | 0x40#8 => some .S
  | 0x41#8 => some .X
  | 0x42#8 => some .P
  | _ => none

/-- The length of the command that a byte sequence begins with (R72): a function of its opcode and its count
field alone. A count byte that has not arrived reads as 0; the command is then incomplete whatever the count. -/
def commandLength (bs : List Byte) : Nat :=
  match bs with
  | [] => 1
  | op :: _ =>
    match formatOf op with
    | none => 1
    | some .N => 1
    | some .B => 3 + u16At bs 1
    | some .E => 5 + u16At bs 3
    | some .F => 8 + u16At bs 6
    | some .K => 9 + u16At bs 7
    | some .V => 4 + 8 * u16At bs 2
    | some .L => 5
    | some .S => 6 + u16At bs 4
    | some .X => 4 + byteAt bs 1
    | some .P => 3 + 10 * byteAt bs 2

/-! Operand readers: each answers the field and the bytes after it, or `none` when bytes are missing. -/

/-- The next byte. -/
def takeByte : List Byte → Option (Byte × List Byte)
  | b :: r => some (b, r)
  | [] => none

/-- The next `n` bytes. -/
def takeBytes (n : Nat) (bs : List Byte) : Option (List Byte × List Byte) :=
  if n ≤ bs.length then some (bs.take n, bs.drop n) else none

/-- A `u16` field (R75). -/
def takeU16 (bs : List Byte) : Option (Nat × List Byte) :=
  (takeBytes 2 bs).map fun p => (le p.1, p.2)

/-- A `u64` field (R75). -/
def takeU64 (bs : List Byte) : Option (Word64 × List Byte) :=
  (takeBytes 8 bs).map fun p => (BitVec.ofNat 64 (le p.1), p.2)

/-- A counted byte sequence: `n:u16`, then `n` bytes (R71). -/
def takeData (bs : List Byte) : Option (List Byte × List Byte) :=
  (takeU16 bs).bind fun p => takeBytes p.1 p.2

/-- The five header bytes `h[0..5)` (R71). -/
def takeHeader : List Byte → Option (Header × List Byte)
  | a :: b :: c :: d :: e :: r => some (⟨a, b, c, d, e⟩, r)
  | _ => none

/-- `m` values of format V (R71). -/
def takeValues : Nat → List Byte → Option (List Word64 × List Byte)
  | 0, bs => some ([], bs)
  | m + 1, bs =>
    (takeU64 bs).bind fun p => (takeValues m p.2).map fun q => (p.1 :: q.1, q.2)

/-- One item of format P (R71). -/
def takeItem (bs : List Byte) : Option (PackItem × List Byte) :=
  (takeU64 bs).bind fun p =>
    (takeByte p.2).bind fun q => (takeByte q.2).map fun r => (⟨p.1, q.1, r.1⟩, r.2)

/-- `m` items of format P (R71). -/
def takeItems : Nat → List Byte → Option (List PackItem × List Byte)
  | 0, bs => some ([], bs)
  | m + 1, bs =>
    (takeItem bs).bind fun p => (takeItems m p.2).map fun q => (p.1 :: q.1, q.2)

/-- The operands of an opcode, read from the bytes after it (R70, R71): `none` for an unassigned opcode. -/
def operandsOf (op : Byte) : Option (List Byte → Option (Instr × List Byte)) :=
  match op with
  | 0x01#8 => some fun bs => (takeData bs).map fun p => (.addData p.1, p.2)
  | 0x02#8 => some fun bs => some (.decode, bs)
  | 0x03#8 => some fun bs => some (.readCrcErrors, bs)
  | 0x04#8 => some fun bs => some (.readStatus, bs)
  | 0x0F#8 => some fun bs => some (.reset, bs)
  | 0x10#8 => some fun bs =>
      (takeByte bs).bind fun i => (takeByte i.2).bind fun l =>
        (takeData l.2).map fun p => (.encode i.1 l.1 p.1, p.2)
  | 0x11#8 => some fun bs =>
      (takeHeader bs).bind fun h => (takeData h.2).map fun p => (.toBytes h.1 p.1, p.2)
  | 0x20#8 => some fun bs =>
      (takeByte bs).bind fun a => (takeByte a.2).bind fun b => (takeByte b.2).bind fun c =>
        (takeByte c.2).map fun d => (.lrc a.1 b.1 c.1 d.1, d.2)
  | 0x21#8 => some fun bs => (takeData bs).map fun p => (.crc16 p.1, p.2)
  | 0x30#8 => some fun bs =>
      (takeByte bs).bind fun k => (takeHeader k.2).bind fun h =>
        (takeData h.2).map fun p => (.codecDecode k.1 h.1 p.1, p.2)
  | 0x31#8 => some fun bs =>
      (takeByte bs).bind fun k => (takeU16 k.2).bind fun m =>
        (takeValues m.1 m.2).map fun v => (.codecEncode k.1 v.1, v.2)
  | 0x40#8 => some fun bs =>
      (takeByte bs).bind fun ty => (takeU16 ty.2).bind fun off =>
        (takeData off.2).map fun d => (.rdScalar ty.1 (BitVec.ofNat 16 off.1) d.1, d.2)
  | 0x41#8 => some fun bs =>
      (takeByte bs).bind fun w => (takeBytes w.1.toNat w.2).bind fun x =>
        (takeByte x.2).bind fun s => (takeByte s.2).map fun n => (.bfExtract w.1 x.1 s.1 n.1, n.2)
  | 0x42#8 => some fun bs =>
      (takeByte bs).bind fun w => (takeByte w.2).bind fun m =>
        (takeItems m.1.toNat m.2).map fun is => (.bfPack w.1 is.1, is.2)
  | _ => none

/-- What the decoder makes of the bytes on the command port. -/
inductive Decoded where
  /-- A whole command, and the bytes after it. -/
  | command (i : Instr) (rest : List Byte)
  /-- An unassigned opcode: a command of exactly 1 byte that raises ILLEGAL_CMD (R72, R74). -/
  | illegal (op : Byte) (rest : List Byte)
  /-- Not all of the command's bytes have arrived (R72). -/
  | incomplete
deriving DecidableEq, Repr

/-- The decoder of the command port (R70 to R75). -/
def decode (bs : List Byte) : Decoded :=
  match bs with
  | [] => .incomplete
  | op :: r =>
    match operandsOf op with
    | none => .illegal op r
    | some read =>
      match read r with
      | none => .incomplete
      | some p => .command p.1 p.2

/-- A counted byte sequence: `n:u16`, then the bytes (R71). -/
def encodeData (d : List Byte) : List Byte := leBytes 2 d.length ++ d

/-- The five header bytes in wire order (R60). -/
def Header.toBytes (h : Header) : List Byte := [h.lrc, h.id, h.length, h.crcLo, h.crcHi]

/-- One item of format P (R71). -/
def encodeItem (i : PackItem) : List Byte := leBytes 8 i.value.toNat ++ [i.shift, i.nbits]

/-- The bytes of a command on the command port (R70, R71). -/
def encode : Instr → List Byte
  | .addData d => 0x01#8 :: encodeData d
  | .decode => [0x02#8]
  | .readCrcErrors => [0x03#8]
  | .readStatus => [0x04#8]
  | .reset => [0x0F#8]
  | .encode id length p => 0x10#8 :: id :: length :: encodeData p
  | .toBytes h p => 0x11#8 :: (h.toBytes ++ encodeData p)
  | .lrc b0 b1 b2 b3 => [0x20#8, b0, b1, b2, b3]
  | .crc16 d => 0x21#8 :: encodeData d
  | .codecDecode k h p => 0x30#8 :: k :: (h.toBytes ++ encodeData p)
  | .codecEncode k v => 0x31#8 :: k :: (leBytes 2 v.length ++ v.flatMap fun x => leBytes 8 x.toNat)
  | .rdScalar ty off d => 0x40#8 :: ty :: (leBytes 2 off.toNat ++ encodeData d)
  | .bfExtract w word shift nbits => 0x41#8 :: w :: (word ++ [shift, nbits])
  | .bfPack w items => 0x42#8 :: w :: BitVec.ofNat 8 items.length :: items.flatMap encodeItem

/-- The bytes of an instruction given as a number (bit 0 the least significant bit of its first byte), filled up
with zero bytes to the command's whole length (R72). -/
def tableWordBytes (nbits w : Nat) : List Byte :=
  let bs := leBytes ((nbits + 7) / 8) w
  bs ++ List.replicate (commandLength bs - bs.length) 0

/-- The instruction the decoder reads from a word of spec/opcode_table.json. -/
def decodeTableWord (nbits w : Nat) : Option Instr :=
  match decode (tableWordBytes nbits w) with
  | .command i _ => some i
  | .illegal _ _ => none
  | .incomplete => none

end Sys2Proof
end

