-- ==== Sys2Proof/Config.lean ====
section
/-! DEFINITION. What is fixed when the block is built (00_scope.md R8): the constants, the layout descriptors of
43_codec.md section 3, the parameter record P, and the free values the spec leaves open. -/

namespace Sys2Proof

/-- The scalar types (R73, R180). -/
inductive ScalarType where
  | u8 | i8 | u16 | i16 | u32 | i32 | u64 | i64 | f32 | f64
deriving DecidableEq, Repr

/-- A field of a layout: `count` elements of type `ty` at byte offset `off` (R200, R184). -/
structure Field where
  name : String
  off : Nat
  ty : ScalarType
  count : Nat
deriving DecidableEq, Repr

/-- A bit-field of a layout, inside the field named `host` (R200). -/
structure BitField where
  name : String
  host : String
  shift : Nat
  width : Nat
deriving DecidableEq, Repr

/-- The three forms of a variant's tail (R200). -/
inductive Tail where
  /-- A fixed-size variant. -/
  | none
  /-- The element count is derived from the payload length. -/
  | len (size : Nat) (fields : List Field)
  /-- The element count is the value of the fixed field `count`. -/
  | cnt (count : String) (size : Nat) (fields : List Field)
deriving DecidableEq, Repr

/-- One wire layout of a packet kind (R200). -/
structure Variant where
  head : Nat
  fields : List Field
  bitfields : List BitField
  tail : Tail
deriving DecidableEq, Repr

/-- A layout: one packet kind (R200). -/
structure Layout where
  pid : Byte
  encodable : Bool
  variants : List Variant
deriving DecidableEq, Repr

/-- The parameter record P (R8): its open fields. Its fixed fields are the constants below. -/
structure Config where
  /-- BUF_CAP; `none` is the spec's `unbounded`. -/
  bufCap : Option Nat
  /-- COMPACT_THRESHOLD. -/
  compactThreshold : Nat
  /-- STREAM_THRESHOLD. -/
  streamThreshold : Nat
  /-- CNT_W. -/
  cntW : Nat
  /-- LAYOUTS: entry `k` of the list, absent where the list is shorter or holds `none`. -/
  layouts : List (Option Layout)
deriving DecidableEq, Repr

/-- HDR, the header size (R8). -/
abbrev Config.hdr : Nat := 5

/-- MAX_LEN, the largest payload length (R8). -/
abbrev Config.maxLen : Nat := 255

/-- CRC_POLY (R8). -/
abbrev Config.crcPoly : Word16 := 0x1021#16

/-- CRC_SEED (R8). -/
abbrev Config.crcSeed : Word16 := 0xFFFF#16

/-- FREE VALUE (log entry 10). The `u16` count of a TO_BYTES response when `5 + n` is 65536 or more: R80 and R125
give the count two bytes, R11 defines `le_bytes_2` only below 65536. A function of the operand, since TO_BYTES is
a pure projection of it (R126). -/
opaque Config.freeToBytesCount : Header → List Byte → Word16

/-- FREE VALUE (log entry 11). The `u16` count of a CODEC_DECODE response when there are 65536 values or more (R80,
R212, R11). A function of the layout and the payload, the only things a codec result depends on (R33, R210). -/
opaque Config.freeValueCount : Layout → List Byte → Word16

end Sys2Proof
end

