-- ==== Sys2Proof/Machine/Scalar.lean ====
section
/-! DEFINITION. The ten scalar types: their codes, widths and signedness (30_encoding.md R73, 43_codec.md R180). -/

namespace Sys2Proof

/-- The type of a `ty` code, `none` for a code that R73 does not list. -/
def ScalarType.ofCode (ty : Byte) : Option ScalarType :=
  match ty with
  | 0x01#8 => some .u8
  | 0x02#8 => some .i8
  | 0x03#8 => some .u16
  | 0x04#8 => some .i16
  | 0x05#8 => some .u32
  | 0x06#8 => some .i32
  | 0x07#8 => some .u64
  | 0x08#8 => some .i64
  | 0x09#8 => some .f32
  | 0x0A#8 => some .f64
  | _ => none

/-- `w(ty)`, the width in bytes (R73, R180). -/
def ScalarType.width : ScalarType → Nat
  | .u8 => 1
  | .i8 => 1
  | .u16 => 2
  | .i16 => 2
  | .u32 => 4
  | .i32 => 4
  | .u64 => 8
  | .i64 => 8
  | .f32 => 4
  | .f64 => 8

/-- The types read as two's complement (R73, R181). -/
def ScalarType.signed : ScalarType → Bool
  | .i8 => true
  | .i16 => true
  | .i32 => true
  | .i64 => true
  | .u8 => false
  | .u16 => false
  | .u32 => false
  | .u64 => false
  | .f32 => false
  | .f64 => false

/-- The unsigned integer types: those a bit-field host or a count field may have (R200, R201). -/
def ScalarType.unsignedInt : ScalarType → Bool
  | .u8 => true
  | .u16 => true
  | .u32 => true
  | .u64 => true
  | .i8 => false
  | .i16 => false
  | .i32 => false
  | .i64 => false
  | .f32 => false
  | .f64 => false

end Sys2Proof
end

