-- ==== Sys2Proof/Machine/Layout.lean ====
section
/-! DEFINITION. Layout descriptors: sizes and counts, well-formedness (43_codec.md R201), the lengths a variant
accepts (R202), and the layouts in scope (R220, R221). -/

namespace Sys2Proof

/-- The bytes a field occupies (R184). -/
def Field.size (f : Field) : Nat := f.count * f.ty.width

/-- The number of values of a list of fields (R212). -/
def fieldValues (fs : List Field) : Nat := (fs.map (·.count)).sum

/-- The element size `E`; 0 for a fixed-size variant (R215). -/
def Tail.size : Tail → Nat
  | .none => 0
  | .len size _ => size
  | .cnt _ size _ => size

/-- The element fields. -/
def Tail.fields : Tail → List Field
  | .none => []
  | .len _ fields => fields
  | .cnt _ _ fields => fields

/-- Whether the variant has a tail. -/
def Tail.variable : Tail → Bool
  | .none => false
  | .len _ _ => true
  | .cnt _ _ _ => true

/-- Whether the variant accepts a payload of `n` bytes (R202). -/
def Variant.accepts (V : Variant) (n : Nat) : Bool :=
  if V.tail.variable then decide (V.head ≤ n) && (n - V.head) % V.tail.size == 0
  else n == V.head

/-- Every pair of entries of the list, taken at two different places, satisfies `r`. -/
def allPairs {α : Type} (r : α → α → Bool) : List α → Bool
  | [] => true
  | a :: as => as.all (r a) && allPairs r as

/-- The field a reference by name means: the first of that name (log entry 13). -/
def findField (fs : List Field) (name : String) : Option Field := fs.find? fun f => f.name == name

/-- The values of the field a name refers to, out of the values of all the fields in descriptor order (R212):
its first value, which is its only one where R200 and R201 let a field be referred to. -/
def fieldValue {α : Type} : List Field → List α → String → Option α
  | [], _, _ => none
  | f :: fs, vals, name =>
    if f.name == name then vals.head? else fieldValue fs (vals.drop f.count) name

/-- Two fields share no byte (R201 b, d). -/
def Field.apart (f g : Field) : Bool :=
  decide (f.off + f.size ≤ g.off) || decide (g.off + g.size ≤ f.off)

/-- The fields have at least one element each, lie inside `limit` bytes and share no byte (R200, R201 a, b, d). -/
def fieldsFit (limit : Nat) (fs : List Field) : Bool :=
  fs.all (fun f => decide (1 ≤ f.count) && decide (f.off + f.size ≤ limit)) && allPairs Field.apart fs

/-- A name refers to a field with one element of an unsigned integer type (R200, R201 e). -/
def refersToUnsigned (fs : List Field) (name : String) : Bool :=
  match findField fs name with
  | none => false
  | some f => f.count == 1 && f.ty.unsignedInt

/-- The bit-field is legal for its host (R190, R201 c). -/
def BitField.legal (fs : List Field) (b : BitField) : Bool :=
  match findField fs b.host with
  | none => false
  | some f => refersToUnsigned fs b.host && decide (1 ≤ b.width) && decide (b.shift + b.width ≤ 8 * f.ty.width)

/-- Two bit-fields lie in different hosts or have disjoint masks (R201 c). -/
def BitField.apart (b c : BitField) : Bool :=
  b.host != c.host || decide (b.shift + b.width ≤ c.shift) || decide (c.shift + c.width ≤ b.shift)

/-- The tail is well-formed (R200, R201 d, e). -/
def Tail.wf (fs : List Field) : Tail → Bool
  | .none => true
  | .len size fields => decide (1 ≤ size) && fieldsFit size fields
  | .cnt count size fields => decide (1 ≤ size) && fieldsFit size fields && refersToUnsigned fs count

/-- One variant is well-formed (R200, R201 a to e). Field names are distinct (log entry 13). -/
def Variant.wf (V : Variant) : Bool :=
  decide (V.head ≤ 255) && fieldsFit V.head V.fields && allPairs (fun f g => f.name != g.name) V.fields
    && V.bitfields.all (BitField.legal V.fields) && allPairs BitField.apart V.bitfields && V.tail.wf V.fields

/-- No payload length is accepted by both variants (R201, R202). For two tails the lengths both accept are those
of two arithmetic progressions, which meet exactly when the gcd of the element sizes divides the difference of
the heads (log entry 14). -/
def Variant.apart (V W : Variant) : Bool :=
  match V.tail.variable, W.tail.variable with
  | false, false => V.head != W.head
  | false, true => !W.accepts V.head
  | true, false => !V.accepts W.head
  | true, true => V.head % Nat.gcd V.tail.size W.tail.size != W.head % Nat.gcd V.tail.size W.tail.size

/-- A layout is well-formed (R201). -/
def Layout.wf (L : Layout) : Bool :=
  !L.variants.isEmpty && L.variants.all Variant.wf && allPairs Variant.apart L.variants

/-- A parameter record the block can be built with: a capacity of at least 260 (R8) and a table of at most 256
well-formed layouts (R8, R201). -/
def Config.wf (P : Config) : Bool :=
  (match P.bufCap with
    | none => true
    | some c => decide (260 ≤ c))
    && decide (P.layouts.length ≤ 256)
    && P.layouts.all fun e =>
      match e with
      | none => true
      | some L => L.wf

/-- `LAYOUTS[k]` (R8, R210). -/
def Config.layout (P : Config) (k : Byte) : Option Layout := P.layouts.getD k.toNat none

/-- Layout index 0, *acknowledge* (R220). The name of byte 3 is PRESUMED (log entry 16). -/
def layoutAcknowledge : Layout :=
  { pid := 0x00#8
    encodable := false
    variants :=
      [{ head := 4
         fields := [⟨"packet_id", 0, .u8, 1⟩, ⟨"packet_crc", 1, .u16, 1⟩, ⟨"result", 3, .u8, 1⟩]
         bitfields := []
         tail := .none }] }

/-- Layout index 1, *request* (R221). -/
def layoutRequest : Layout :=
  { pid := 0x01#8
    encodable := true
    variants :=
      [{ head := 0
         fields := []
         bitfields := []
         tail := .len 1 [⟨"packet_id", 0, .u8, 1⟩] }] }

/-- The parameter record with the spec's defaults (R8, R220 to R222). R8 gives the two thresholds no default:
1000 is the value 95_test_vectors.md assumes, DESIGN CHOICE (log entry 6). -/
def Config.spec : Config :=
  { bufCap := none
    compactThreshold := 1000
    streamThreshold := 1000
    cntW := 32
    layouts := [some layoutAcknowledge, some layoutRequest] }

end Sys2Proof
end

