-- ==== Sys2Proof/Machine/State.lean ====
section
/-! DEFINITION. The state of the block (10_state.md), its ports, and the state after reset. -/

namespace Sys2Proof.Machine

/-- The decoder state (R24). The encoding 3 is never held, so it has no constructor. -/
inductive Phase where
  | scanning
  | frameReady
  | starved
deriving DecidableEq, Repr

/-- The fault codes (R241). A fault is a response status: the command that raises one takes a next state (R244). -/
inductive FaultCode where
  /-- 0x81: an unassigned opcode. -/
  | illegalCmd
  /-- 0x82: an operand value outside its legal set. -/
  | badOperand
  /-- 0x83: the precondition of ENCODE or CODEC_ENCODE is violated. -/
  | encodePrecond
  /-- 0x84: ADD_DATA would exceed a finite BUF_CAP. -/
  | overflow
  /-- 0x85: a scalar read past the end of its data. -/
  | extractRange
  /-- 0x86: illegal bit-field geometry. -/
  | bfRange
  /-- 0x87: a value does not fit its field or type. -/
  | valueRange
deriving DecidableEq, Repr

/-- The response statuses (R81). -/
inductive Status where
  /-- 0x00. -/
  | ok
  /-- 0x01: DECODE found no complete valid frame. -/
  | none
  /-- 0x02: DECODE returned a frame. -/
  | frame
  /-- 0x03: the codec refused the frame; a normal result. -/
  | decodeError
  /-- 0x81 to 0x87. -/
  | fault (c : FaultCode)
deriving DecidableEq, Repr

/-- One response: a status byte and data bytes (R80). -/
structure Response where
  status : Status
  data : List Byte
deriving DecidableEq, Repr

/-- The state: the parameters the block was built with (R8), the five registers of R20, and the two ports (R3). -/
structure State where
  /-- The parameter record P, fixed at build (R8, R32). -/
  cfg : Config
  /-- The decode buffer (R21). -/
  buf : List Byte
  /-- The read cursor (R22). -/
  cur : Nat
  /-- The CRC-error counter, below 2^CNT_W (R23). -/
  crcErrors : Nat
  /-- The decoder state (R24). -/
  phase : Phase
  /-- The sticky fault register (R25). -/
  fault : Byte
  /-- The command port: the bytes not yet consumed, oldest first (R70, R72). -/
  cmd : List Byte
  /-- The response port: the responses the host has not taken, oldest first (R80). -/
  rsp : List Response
deriving DecidableEq, Repr

/-- The stops of a step. None: every fault of the spec is a response after which the block goes on (R244, R245),
and the block waits for a command that has not arrived (R72). Nobody raises one; safe. -/
inductive Fault where
deriving DecidableEq, Repr

/-- The refusals of a step. -/
inductive Refusal where
  /-- An instruction without a meaning, named by its mnemonic. Raised by an arm of `exec` only, and no arm of this
  model raises it; safe. -/
  | notModelled (mnemonic : String)
deriving DecidableEq, Repr

/-- The state of a block with parameters `P` right after power-on (R36, R271), with nothing on its ports (R272). -/
def State.powerOn (P : Config) : State :=
  { cfg := P, buf := [], cur := 0, crcErrors := 0, phase := .scanning, fault := 0#8, cmd := [], rsp := [] }

/-- Building a block: an ill-formed parameter record is refused at build time (R201, R273). -/
def State.build (P : Config) : Option State := if P.wf then some (State.powerOn P) else none

/-- The block with the spec's default parameters, right after reset (R36, R271). -/
def State.reset : State := State.powerOn Config.spec

end Sys2Proof.Machine
end

