-- ==== Sys2Proof/Machine/Flags.lean ====
section
/-! DEFINITION. The block has no condition flags (R31): a command's outcome is its response status. This file holds
the codes of the status bytes (R81, R211, R241) and of the status registers (R24, R32). -/

namespace Sys2Proof.Machine

/-- The 2-bit code of `phase`, zero-extended to the READ_STATUS byte (R24, R32). -/
def Phase.code : Phase → Byte
  | .scanning => 0x00#8
  | .frameReady => 0x01#8
  | .starved => 0x02#8

/-- The code of a fault (R241). -/
def FaultCode.code : FaultCode → Byte
  | .illegalCmd => 0x81#8
  | .badOperand => 0x82#8
  | .encodePrecond => 0x83#8
  | .overflow => 0x84#8
  | .extractRange => 0x85#8
  | .bfRange => 0x86#8
  | .valueRange => 0x87#8

/-- The status byte (R81). -/
def Status.code : Status → Byte
  | .ok => 0x00#8
  | .none => 0x01#8
  | .frame => 0x02#8
  | .decodeError => 0x03#8
  | .fault c => c.code

/-- The bytes of a response on the response port (R80). -/
def Response.toBytes (r : Response) : List Byte := r.status.code :: r.data

/-- The DECODE_ERROR sub-codes (R211). -/
inductive DecodeError where
  | idMismatch
  | lengthMismatch
  | tailMisaligned
  | countOverrun
deriving DecidableEq, Repr

/-- The sub-code byte (R211). -/
def DecodeError.code : DecodeError → Byte
  | .idMismatch => 0x01#8
  | .lengthMismatch => 0x02#8
  | .tailMisaligned => 0x03#8
  | .countOverrun => 0x04#8

/-- The value of the `fault` register after a fault: the first code since reset stays (R25, R244). -/
def stickyFault (old : Byte) (c : FaultCode) : Byte := if old = 0#8 then c.code else old

end Sys2Proof.Machine
end

