-- ==== Sys2Proof/Machine/Operands.lean ====
section
/-! DEFINITION. The operand forms of the codec: scalars (43_codec.md section 1), bit-fields (section 2), and the
reading and writing of the fields of a layout (R210, R215). -/

namespace Sys2Proof.Machine

/-! ## Scalars -/

/-- The value of the unsigned number `u` as a scalar of type `ty` (R181): two's complement for the signed types,
the number itself for the unsigned ones, the raw bits for floats (R183). -/
def scalarValue (ty : ScalarType) (u : Nat) : Int :=
  if ty.signed && decide (2 ^ (8 * ty.width - 1) ≤ u) then (u : Int) - 2 ^ (8 * ty.width) else u

/-- `read_scalar(d, off, ty)` (R181); `none` where it raises EXTRACT_RANGE. -/
def readScalar (d : List Byte) (off : Nat) (ty : ScalarType) : Option Int :=
  if off + ty.width ≤ d.length then some (scalarValue ty (le ((d.drop off).take ty.width))) else none

/-- Whether `v` fits a scalar of type `ty` (R182). -/
def scalarFits (ty : ScalarType) (v : Int) : Bool :=
  if ty.signed then decide (-(2 ^ (8 * ty.width - 1)) ≤ v) && decide (v < 2 ^ (8 * ty.width - 1))
  else decide (0 ≤ v) && decide (v < 2 ^ (8 * ty.width))

/-- `write_scalar(v, ty)` (R182). -/
def writeScalar (v : Int) (ty : ScalarType) : Except FaultCode (List Byte) :=
  if scalarFits ty v then .ok (leBytes ty.width (v % 2 ^ (8 * ty.width)).toNat) else .error .valueRange

/-- The 8 bytes of a value in a response: `x mod 2^64`, little-endian (R185, R212). -/
def valueBytes (x : Int) : List Byte := leBytes 8 (x % 2 ^ 64).toNat

/-- The integer a `u64` operand stands for when it feeds a field of type `ty` (R75, R215). -/
def slotValue (ty : ScalarType) (v : Word64) : Int := if ty.signed then v.toInt else v.toNat

/-! ## Bit-fields -/

/-- The word widths `w` (R71, R74). -/
def legalWidth (w : Byte) : Bool := w == 1#8 || w == 2#8 || w == 4#8 || w == 8#8

/-- A bit-field of width `k` at shift `s` is legal in a word of `W` bits (R190). -/
def bitFieldLegal (W s k : Nat) : Bool := decide (1 ≤ k) && decide (s + k ≤ W)

/-- `extract(x, s, k)` (R190). -/
def extract (x s k : Nat) : Nat := (x >>> s) &&& (2 ^ k - 1)

/-- The mask of a bit-field in its word (R192). -/
def bitMask (s k : Nat) : Nat := (2 ^ k - 1) <<< s

/-- An item of `pack`: value, shift, width (R192). -/
structure BitItem where
  v : Nat
  s : Nat
  k : Nat
deriving DecidableEq, Repr

/-- The loop of `pack` (R192), from the word `x` and the bits `used` so far. Packing is by OR, never AND (R194). -/
def packFrom (W : Nat) : List BitItem → Nat → Nat → Except FaultCode Nat
  | [], x, _ => .ok x
  | i :: is, x, used =>
    if bitFieldLegal W i.s i.k = false then .error .bfRange
    else if used &&& bitMask i.s i.k ≠ 0 then .error .bfRange
    else if 2 ^ i.k ≤ i.v then .error .valueRange
    else packFrom W is (x ||| (i.v <<< i.s)) (used ||| bitMask i.s i.k)

/-- `pack(W, items)` (R192). -/
def pack (W : Nat) (items : List BitItem) : Except FaultCode Nat := packFrom W items 0 0

/-- The item of `pack` that an item of format P stands for (R75, R193). -/
def PackItem.toBitItem (i : PackItem) : BitItem := ⟨i.value.toNat, i.shift.toNat, i.nbits.toNat⟩

/-! ## Reading the fields of a layout (R210) -/

/-- The `c` elements of type `ty` from offset `off` (R184). -/
def readArray (p : List Byte) (ty : ScalarType) : Nat → Nat → Option (List Int)
  | 0, _ => some []
  | c + 1, off =>
    (readScalar p off ty).bind fun x => (readArray p ty c (off + ty.width)).map fun xs => x :: xs

/-- The values of the fields `fs`, whose offsets are relative to `base`, in descriptor order (R210, R212). -/
def readFields (p : List Byte) (base : Nat) : List Field → Option (List Int)
  | [] => some []
  | f :: fs =>
    (readArray p f.ty f.count (base + f.off)).bind fun xs => (readFields p base fs).map fun ys => xs ++ ys

/-- The values of the bit-fields, out of the values of the fixed fields (R210). -/
def readBitFields (fs : List Field) (vals : List Int) : List BitField → Option (List Int)
  | [] => some []
  | b :: bs =>
    (fieldValue fs vals b.host).bind fun x =>
      (readBitFields fs vals bs).map fun xs => (extract x.toNat b.shift b.width : Int) :: xs

/-- How CODEC_DECODE can end without a packet value. -/
inductive CodecStop where
  /-- A fault (R241). -/
  | fault (c : FaultCode)
  /-- A typed refusal of the frame, a normal result (R211, R240). -/
  | refuse (e : DecodeError)
deriving DecidableEq, Repr

/-- The values of `cnt` tail elements of `size` bytes from `base` on; each element is checked against the payload
before it is read (R210). -/
def readElements (p : List Byte) (size : Nat) (ef : List Field) : Nat → Nat → Except CodecStop (List Int)
  | 0, _ => .ok []
  | cnt + 1, base =>
    if p.length < base + size then .error (.refuse .countOverrun)
    else
      match readFields p base ef with
      | none => .error (.fault .extractRange)
      | some xs =>
        match readElements p size ef cnt (base + size) with
        | .error e => .error e
        | .ok ys => .ok (xs ++ ys)

/-! ## Writing the fields of a layout (R215) -/

/-- `p` with the bytes `bs` written from index `at` on. -/
def overlay (p : List Byte) (pos : Nat) (bs : List Byte) : List Byte :=
  p.take pos ++ bs ++ p.drop (pos + bs.length)

/-- Writes values as consecutive elements of type `ty` from offset `off` on (R184, R215). -/
def writeArray (ty : ScalarType) : List Word64 → Nat → List Byte → Except FaultCode (List Byte)
  | [], _, p => .ok p
  | v :: vs, off, p =>
    match writeScalar (slotValue ty v) ty with
    | .error e => .error e
    | .ok bs => writeArray ty vs (off + ty.width) (overlay p off bs)

/-- Writes the fields `fs`, whose offsets are relative to `base`, from the values in descriptor order (R215). -/
def writeFields (base : Nat) : List Field → List Word64 → List Byte → Except FaultCode (List Byte)
  | [], _, p => .ok p
  | f :: fs, vals, p =>
    match writeArray f.ty (vals.take f.count) (base + f.off) p with
    | .error e => .error e
    | .ok p' => writeFields base fs (vals.drop f.count) p'

/-- The items of the bit-fields of one host, with their values (R215). -/
def hostItems (host : String) : List BitField → List Word64 → List BitItem
  | b :: bs, v :: vs =>
    if b.host == host then ⟨v.toNat, b.shift, b.width⟩ :: hostItems host bs vs else hostItems host bs vs
  | [], _ => []
  | _ :: _, [] => []

/-- The union of the masks of the items (R215). -/
def unionMask : List BitItem → Nat
  | [] => 0
  | i :: is => bitMask i.s i.k ||| unionMask is

/-- The word written for a host field: its own bits outside its bit-fields, theirs inside (R215, R216). -/
def hostWord (W value : Nat) (items : List BitItem) : Except FaultCode Nat :=
  match pack W items with
  | .error e => .error e
  | .ok x => .ok ((value &&& ((2 ^ W - 1) ^^^ unionMask items)) ||| x)

/-- Writes every host field that has bit-fields (R215, R216). -/
def writeHosts (bfs : List BitField) (bvals : List Word64) :
    List Field → List Word64 → List Byte → Except FaultCode (List Byte)
  | [], _, p => .ok p
  | f :: fs, vals, p =>
    match hostItems f.name bfs bvals, vals with
    | i :: is, v :: _ =>
      match hostWord (8 * f.ty.width) v.toNat (i :: is) with
      | .error e => .error e
      | .ok hv =>
        match writeScalar hv f.ty with
        | .error e => .error e
        | .ok bs => writeHosts bfs bvals fs (vals.drop f.count) (overlay p f.off bs)
    | _, _ => writeHosts bfs bvals fs (vals.drop f.count) p

/-- Writes `cnt` tail elements of `size` bytes from `base` on (R215). -/
def writeElements (size : Nat) (ef : List Field) :
    Nat → Nat → List Word64 → List Byte → Except FaultCode (List Byte)
  | 0, _, _, p => .ok p
  | cnt + 1, base, vals, p =>
    match writeFields base ef vals p with
    | .error e => .error e
    | .ok p' => writeElements size ef cnt (base + size) (vals.drop (fieldValues ef)) p'

end Sys2Proof.Machine
end

