-- ==== Sys2Proof/Machine/Ops.lean ====
section
/-! DEFINITION. The named operations over the buffer, the ports and the registers (00_scope.md R12), and taking a
fault (60_exceptions.md R244). -/

namespace Sys2Proof.Machine

/-! ## The decode buffer (R12, R21, R40) -/

/-- One byte of a memory at a physical index; `none` for an index that does not exist (R40). -/
def readByte (m : List Byte) (a : Nat) : Option Byte := m[a]?

/-- `MemRead(i, n)` (R12): defined only when `i + n ≤ len(buf)`. -/
def memRead (m : List Byte) (i n : Nat) : Option (List Byte) :=
  if i + n ≤ m.length then some ((m.drop i).take n) else none

/-- The memory as (address, byte) cells: every index below its length, once each, in rising order. -/
def Memory.cells (m : List Byte) : List Host.Cell := m.zipIdx.map fun p => (p.2, p.1)

/-- The canonical form of a list of cells: addresses strictly rising. No cell is redundant, since an unlisted
address does not exist (R40, log entry 8). -/
def Memory.wf (c : List Host.Cell) : Bool := decide ((c.map (·.1)).Pairwise (· < ·))

/-- The pending bytes `buf[cur..len(buf))` (R28). -/
def State.pend (s : State) : List Byte := s.buf.drop s.cur

/-- `compact()` (R164): drops the consumed bytes and resets the cursor. -/
def State.compact (s : State) : State := { s with buf := s.buf.drop s.cur, cur := 0 }

/-- `buf <- buf ++ d` (R12, R141). -/
def State.append (s : State) (d : List Byte) : State := { s with buf := s.buf ++ d }

/-- `trunc_CNT_W(v)` (R10, R154). -/
def truncCounter (P : Config) (v : Nat) : Nat := v % 2 ^ P.cntW

/-! ## The ports (R3) -/

/-- The host puts bytes on the command port. -/
def State.hostSend (s : State) (bs : List Byte) : State := { s with cmd := s.cmd ++ bs }

/-- The host takes the oldest response. -/
def State.hostTake (s : State) : Option (Response × State) :=
  match s.rsp with
  | [] => none
  | r :: rs => some (r, { s with rsp := rs })

/-- The command port after the block has consumed a command. -/
def State.withCmd (s : State) (rest : List Byte) : State := { s with cmd := rest }

/-- `respond(status, data)`: emits the command's one response (R12, R80). -/
def State.respond (s : State) (status : Status) (data : List Byte) : State :=
  { s with rsp := s.rsp ++ [⟨status, data⟩] }

/-! ## Faults (R244, R245)

Taking a fault is the one exception entry of the block. It saves no pc and no status, changes no mode and jumps
nowhere. There is no return operation: a fault needs none, the next command runs normally (R245). -/

/-- `raise Fault(code)` from the state before the command: every register keeps its value but `fault`, which
records the code if it is the first since reset; the response is the code (R244). -/
def State.raise (s : State) (c : FaultCode) : State :=
  State.respond { s with fault := stickyFault s.fault c } (.fault c) []

/-- A command runs on a copy of the state, committed only when it ends without `raise` (R12, R244). -/
def commit (s : State) (r : Except FaultCode State) : Host.Outcome State Fault Refusal :=
  match r with
  | .ok t => .next t
  | .error c => .next (s.raise c)

/-- A command that computes response data and writes no register (R33, R48). -/
def commitData (s : State) (r : Except FaultCode (List Byte)) : Host.Outcome State Fault Refusal :=
  match r with
  | .ok data => .next (s.respond .ok data)
  | .error c => .next (s.raise c)

/-! ## Fetch (R70, R72) -/

/-- What the command port holds next. -/
inductive Fetched where
  /-- A whole command, and the port after it. -/
  | run (i : Instr) (rest : List Byte)
  /-- A 1-byte command with an unassigned opcode, and the port after it. -/
  | illegal (rest : List Byte)
  /-- No whole command: the block waits. -/
  | wait
deriving DecidableEq, Repr

/-- Reads the next command from the command port. -/
def fetch (s : State) : Fetched :=
  match Sys2Proof.decode s.cmd with
  | .command i rest => .run i rest
  | .illegal _ rest => .illegal rest
  | .incomplete => .wait

/-- An unassigned opcode: the command is consumed and raises ILLEGAL_CMD (R72, R74). -/
def State.illegal (s : State) (rest : List Byte) : State := (s.withCmd rest).raise .illegalCmd

/-- The command port holding the instruction of an opcode-table word and nothing else. -/
def State.fetchWord (s : State) (nbits w : Nat) : State := s.withCmd (Sys2Proof.tableWordBytes nbits w)

end Sys2Proof.Machine
end

