-- ==== Sys2Proof/Machine/Checksums.lean ====
section
/-! DEFINITION. The LRC accumulator and the CRC-16 generator, and their commands (40_checksums.md). -/

namespace Sys2Proof.Machine

/-- `LRC(b)` (R100): the sum is taken over integers, then XOR, `+ 1` and truncation to 8 bits. -/
def lrc (b0 b1 b2 b3 : Byte) : Byte :=
  BitVec.ofNat 8 (((b0.toNat + b1.toNat + b2.toNat + b3.toNat) ^^^ 0xFF) + 1)

/-- One bit of the CRC register (R104). -/
def crcBit (c : Word16) : Word16 := if c.msb then (c <<< 1) ^^^ Config.crcPoly else c <<< 1

/-- Eight bits of the CRC register (R104). -/
def crcBits8 (c : Word16) : Word16 :=
  crcBit (crcBit (crcBit (crcBit (crcBit (crcBit (crcBit (crcBit c)))))))

/-- `T[i]`, the table entry of a byte (R104). -/
def crcTable (i : Byte) : Word16 := crcBits8 (i.setWidth 16 <<< 8)

/-- One byte of the table-driven loop (R103). -/
def crcByte (crc : Word16) (b : Byte) : Word16 :=
  (crc <<< 8) ^^^ crcTable ((crc >>> 8).setWidth 8 ^^^ b)

/-- `crc16_from(c, s)`: the loop started from `c` (R103, R107). -/
def crc16From (c : Word16) (s : List Byte) : Word16 := s.foldl crcByte c

/-- `crc16(s)` (R102, R103). -/
def crc16 (s : List Byte) : Word16 := crc16From Config.crcSeed s

/-- The low and high byte of a CRC, in wire order (R64, R121). -/
def crcLo (c : Word16) : Byte := c.setWidth 8

/-- The high byte of a CRC (R121). -/
def crcHi (c : Word16) : Byte := (c >>> 8).setWidth 8

/-- The `crc` of a header: `header[3] | header[4] << 8` (R13, R64). -/
def headerCrc (h : Header) : Word16 := h.crcLo.setWidth 16 ||| (h.crcHi.setWidth 16 <<< 8)

/-- The LRC of the four header bytes after the LRC byte (R61). -/
def headerLrc (h : Header) : Byte := lrc h.id h.length h.crcLo h.crcHi

/-- A frame value is well-formed (R13). -/
def frameWf (f : Frame) : Bool :=
  f.payload.length == f.header.length.toNat && f.header.lrc == headerLrc f.header
    && crc16 f.payload == headerCrc f.header

/-- LRC (R108). -/
def execLrc (b0 b1 b2 b3 : Byte) (s : State) : Host.Outcome State Fault Refusal :=
  .next (s.respond .ok [lrc b0 b1 b2 b3])

/-- CRC16 (R109). -/
def execCrc16 (d : List Byte) (s : State) : Host.Outcome State Fault Refusal :=
  .next (s.respond .ok [crcLo (crc16 d), crcHi (crc16 d)])

end Sys2Proof.Machine
end

