-- ==== Sys2Proof/Machine/FrameContainer.lean ====
section
/-! DEFINITION. The frame container: ENCODE and TO_BYTES (41_frame.md). -/

namespace Sys2Proof.Machine

/-- The wire bytes of a frame: `header ++ payload` (R60, R80). -/
def frameBytes (f : Frame) : List Byte := f.header.toBytes ++ f.payload

/-- The frame ENCODE builds (R121). -/
def buildFrame (id length : Byte) (p : List Byte) : Frame :=
  { header := ⟨lrc id length (crcLo (crc16 p)) (crcHi (crc16 p)), id, length, crcLo (crc16 p), crcHi (crc16 p)⟩
    payload := p }

/-- The computation of ENCODE, which CODEC_ENCODE ends with (R121, R215). -/
def encodeFrame (id length : Byte) (p : List Byte) : Except FaultCode (List Byte) :=
  if p.length ≠ length.toNat then .error .encodePrecond else .ok (frameBytes (buildFrame id length p))

/-- A `u16` count in a response (R80): the free value stands in where the count does not fit (R11). -/
def countBytes (m : Nat) (free : Word16) : List Byte :=
  if m < 65536 then leBytes 2 m else leBytes 2 free.toNat

/-- ENCODE (R121). -/
def execEncode (id length : Byte) (p : List Byte) (s : State) : Host.Outcome State Fault Refusal :=
  commitData s (encodeFrame id length p)

/-- TO_BYTES (R125). -/
def execToBytes (h : Header) (p : List Byte) (s : State) : Host.Outcome State Fault Refusal :=
  .next (s.respond .ok (countBytes (5 + p.length) (Config.freeToBytesCount h p) ++ frameBytes ⟨h, p⟩))

end Sys2Proof.Machine
end

