-- ==== Sys2Proof/Machine/Codec.lean ====
section
/-! DEFINITION. The codec: RD_SCALAR, BF_EXTRACT, BF_PACK, CODEC_DECODE and CODEC_ENCODE (43_codec.md). -/

namespace Sys2Proof.Machine

/-! ## Scalars and bit-fields -/

/-- The computation of RD_SCALAR (R185). -/
def rdScalar (ty : Byte) (off : Word16) (d : List Byte) : Except FaultCode (List Byte) :=
  match ScalarType.ofCode ty with
  | none => .error .badOperand
  | some t =>
    match readScalar d off.toNat t with
    | none => .error .extractRange
    | some x => .ok (valueBytes x)

/-- RD_SCALAR (R185). -/
def execRdScalar (ty : Byte) (off : Word16) (d : List Byte) (s : State) : Host.Outcome State Fault Refusal :=
  commitData s (rdScalar ty off d)

/-- The computation of BF_EXTRACT (R191). -/
def bfExtract (w : Byte) (word : List Byte) (shift nbits : Byte) : Except FaultCode (List Byte) :=
  if legalWidth w = false then .error .badOperand
  else if bitFieldLegal (8 * w.toNat) shift.toNat nbits.toNat = false then .error .bfRange
  else .ok (leBytes 8 (extract (le word) shift.toNat nbits.toNat))

/-- BF_EXTRACT (R191). -/
def execBfExtract (w : Byte) (word : List Byte) (shift nbits : Byte) (s : State) :
    Host.Outcome State Fault Refusal :=
  commitData s (bfExtract w word shift nbits)

/-- The computation of BF_PACK (R193). -/
def bfPack (w : Byte) (items : List PackItem) : Except FaultCode (List Byte) :=
  if legalWidth w = false then .error .badOperand
  else
    match pack (8 * w.toNat) (items.map PackItem.toBitItem) with
    | .error e => .error e
    | .ok x => .ok (leBytes w.toNat x)

/-- BF_PACK (R193). -/
def execBfPack (w : Byte) (items : List PackItem) (s : State) : Host.Outcome State Fault Refusal :=
  commitData s (bfPack w items)

/-! ## CODEC_DECODE -/

/-- The first variant from index `i` on that accepts `n` bytes, with its index; R201 makes it the only one. -/
def selectFrom (n : Nat) : List Variant → Nat → Option (Nat × Variant)
  | [], _ => none
  | V :: Vs, i => if V.accepts n then some (i, V) else selectFrom n Vs (i + 1)

/-- The error when no variant accepts `n` bytes (R202, R211). -/
def lengthError (L : Layout) (n : Nat) : DecodeError :=
  if L.variants.any (fun V => V.tail.variable && decide (V.head ≤ n)) then .tailMisaligned else .lengthMismatch

/-- The tail element count (R210): 0, derived from the length, or the value of the count field. -/
def tailCount (V : Variant) (n : Nat) (vals : List Int) : Option Nat :=
  match V.tail with
  | .none => some 0
  | .len size _ => some ((n - V.head) / size)
  | .cnt count _ _ => (fieldValue V.fields vals count).map Int.toNat

/-- The values after the variant index: fixed fields, bit-fields, tail count, tail elements (R210, R212). The
faults arise only for a layout that R201 refuses (R181, log entry 15). -/
def decodeVariant (V : Variant) (p : List Byte) : Except CodecStop (List Int) :=
  match readFields p 0 V.fields with
  | none => .error (.fault .extractRange)
  | some xs =>
    match readBitFields V.fields xs V.bitfields, tailCount V p.length xs with
    | some bs, some cnt =>
      match readElements p V.tail.size V.tail.fields cnt V.head with
      | .error e => .error e
      | .ok ys => .ok (xs ++ bs ++ [(cnt : Int)] ++ ys)
    | _, _ => .error (.fault .badOperand)

/-- The packet value of a frame, flattened (R210, R212): the variant index first. -/
def decodeLayout (L : Layout) (h : Header) (p : List Byte) : Except CodecStop (List Int) :=
  if h.id ≠ L.pid then .error (.refuse .idMismatch)
  else
    match selectFrom p.length L.variants 0 with
    | none => .error (.refuse (lengthError L p.length))
    | some iV =>
      match decodeVariant iV.2 p with
      | .error e => .error e
      | .ok vals => .ok ((iV.1 : Int) :: vals)

/-- The data of an OK response of CODEC_DECODE: the count, then 8 bytes a value (R80, R212). -/
def valuesData (vals : List Int) (free : Word16) : List Byte :=
  countBytes vals.length free ++ vals.flatMap valueBytes

/-- CODEC_DECODE (R210). -/
def execCodecDecode (k : Byte) (h : Header) (p : List Byte) (s : State) : Host.Outcome State Fault Refusal :=
  match s.cfg.layout k with
  | none => .next (s.raise .badOperand)
  | some L =>
    match decodeLayout L h p with
    | .ok vals => .next (s.respond .ok (valuesData vals (Config.freeValueCount L p)))
    | .error (.refuse e) => .next (s.respond .decodeError [e.code])
    | .error (.fault c) => .next (s.raise c)

/-! ## CODEC_ENCODE -/

/-- The number of values of a packet of variant `V` with `cnt` tail elements (R212, R215). -/
def expectedValues (V : Variant) (cnt : Nat) : Nat :=
  1 + fieldValues V.fields + V.bitfields.length + 1 + cnt * fieldValues V.tail.fields

/-- The tail count agrees with the count field of a `CNT` tail (R215). -/
def countAgrees (V : Variant) (vals : List Word64) (cnt : Nat) : Bool :=
  match V.tail with
  | .none => true
  | .len _ _ => true
  | .cnt count _ _ =>
    match fieldValue V.fields vals count with
    | none => false
    | some v => v.toNat == cnt

/-- The payload of a packet (R215): `vals` are the values after the variant index. Bytes no field covers are 0. -/
def encodePayload (V : Variant) (cnt : Nat) (vals : List Word64) : Except FaultCode (List Byte) :=
  match writeFields 0 V.fields vals (List.replicate (V.head + cnt * V.tail.size) 0#8) with
  | .error e => .error e
  | .ok p1 =>
    match writeHosts V.bitfields (vals.drop (fieldValues V.fields)) V.fields vals p1 with
    | .error e => .error e
    | .ok p2 =>
      if countAgrees V vals cnt = false then .error .valueRange
      else
        writeElements V.tail.size V.tail.fields cnt V.head
          (vals.drop (fieldValues V.fields + V.bitfields.length + 1)) p2

/-- The checks of CODEC_ENCODE once the variant and the tail count are known, in the order of R215. -/
def encodeVariant (pid : Byte) (V : Variant) (vals : List Word64) (cnt : Nat) : Except FaultCode (List Byte) :=
  if 1 + vals.length ≠ expectedValues V cnt then .error .badOperand
  else if V.tail.variable = false ∧ cnt ≠ 0 then .error .valueRange
  else if Config.maxLen < V.head + cnt * V.tail.size then .error .encodePrecond
  else
    match encodePayload V cnt vals with
    | .error e => .error e
    | .ok p => encodeFrame pid (BitVec.ofNat 8 (V.head + cnt * V.tail.size)) p

/-- The computation of CODEC_ENCODE on a layout (R215). A missing variant index or tail count is a wrong value
count (log entry 12). -/
def encodeLayout (L : Layout) (v : List Word64) : Except FaultCode (List Byte) :=
  if L.encodable = false then .error .badOperand
  else
    match v with
    | [] => .error .badOperand
    | vi :: vals =>
      match L.variants[vi.toNat]? with
      | none => .error .badOperand
      | some V =>
        match vals[fieldValues V.fields + V.bitfields.length]? with
        | none => .error .badOperand
        | some cnt => encodeVariant L.pid V vals cnt.toNat

/-- The computation of CODEC_ENCODE (R215). -/
def codecEncode (P : Config) (k : Byte) (v : List Word64) : Except FaultCode (List Byte) :=
  match P.layout k with
  | none => .error .badOperand
  | some L => encodeLayout L v

/-- CODEC_ENCODE (R215). -/
def execCodecEncode (k : Byte) (v : List Word64) (s : State) : Host.Outcome State Fault Refusal :=
  commitData s (codecEncode s.cfg k v)

end Sys2Proof.Machine
end

