-- ==== Sys2Proof/Machine/Decoder.lean ====
section
/-! DEFINITION. The frame decoder: ADD_DATA, DECODE, READ_CRC_ERRORS, READ_STATUS and RESET (42_decoder.md,
70_reset_and_hazards.md R270). -/

namespace Sys2Proof.Machine

/-! ## ADD_DATA -/

/-- The first check of ADD_DATA: the pending bytes and the data exceed a finite capacity (R141). -/
def overflows (s : State) (n : Nat) : Bool :=
  match s.cfg.bufCap with
  | none => false
  | some c => decide (c < s.buf.length - s.cur + n)

/-- The second check of ADD_DATA: the buffer has to be compacted to make room (R141). -/
def needsRoom (s : State) (n : Nat) : Bool :=
  match s.cfg.bufCap with
  | none => false
  | some c => decide (c < s.buf.length + n)

/-- The state in which ADD_DATA appends (R141). -/
def makeRoom (s : State) (n : Nat) : State := if needsRoom s n then s.compact else s

/-- The compaction at the end of ADD_DATA (R163 b). -/
def streamCompact (s : State) : State :=
  if s.cfg.streamThreshold < s.buf.length then s.compact else s

/-- ADD_DATA (R141). -/
def execAddData (d : List Byte) (s : State) : Host.Outcome State Fault Refusal :=
  commit s
    (if overflows s d.length then .error .overflow
     else .ok ((streamCompact ((makeRoom s d.length).append d)).respond .ok []))

/-! ## DECODE -/

/-- The outcome of the scanning loop (R150, R158). -/
inductive ScanOutcome where
  | starved
  | frameReady (f : Frame)
deriving DecidableEq, Repr

/-- The registers the scanning loop leaves, and its outcome. -/
structure ScanResult where
  cur : Nat
  crcErrors : Nat
  outcome : ScanOutcome
deriving DecidableEq, Repr

/-- The five bytes of a candidate header (R152). -/
def headerOf : List Byte → Option Header
  | [a, b, c, d, e] => some ⟨a, b, c, d, e⟩
  | _ => none

/-- The candidate header at the cursor; `none` when fewer than 5 bytes remain (R151, R152). -/
def candidate (buf : List Byte) (cur : Nat) : Option Header := (memRead buf cur 5).bind headerOf

/-- The scanning loop (R150, steps 1 to 5). The first number is how many bytes remain from the cursor to the end
of the buffer: every iteration that goes on leaves one fewer, and with none left the loop starves (R151, R159). -/
def scanLoop (P : Config) (buf : List Byte) : Nat → Nat → Nat → ScanResult
  | 0, cur, e => ⟨cur, e, .starved⟩
  | rem + 1, cur, e =>
    match candidate buf cur with
    | none => ⟨cur, e, .starved⟩
    | some h =>
      if headerLrc h ≠ h.lrc then scanLoop P buf rem (cur + 1) e
      else
        match memRead buf (cur + 5) h.length.toNat with
        | none => ⟨cur, e, .starved⟩
        | some p =>
          if crc16 p ≠ headerCrc h then scanLoop P buf rem (cur + 1) (truncCounter P (e + 1))
          else ⟨cur + 5 + h.length.toNat, e, .frameReady ⟨h, p⟩⟩

/-- The scanning loop from the registers of a state. -/
def scanState (s : State) : ScanResult := scanLoop s.cfg s.buf (s.buf.length - s.cur) s.cur s.crcErrors

/-- The phase an outcome sets (R158). -/
def ScanOutcome.phase : ScanOutcome → Phase
  | .starved => .starved
  | .frameReady _ => .frameReady

/-- The registers after the loop, before compaction (R150, R158). -/
def State.scanned (s : State) (r : ScanResult) : State :=
  { s with cur := r.cur, crcErrors := r.crcErrors, phase := r.outcome.phase }

/-- DECODE compacts when it starved, or when the cursor is past the threshold (R150, R163 a, c). -/
def decodeCompacts (P : Config) (r : ScanResult) : Bool :=
  match r.outcome with
  | .starved => true
  | .frameReady _ => decide (P.compactThreshold < r.cur)

/-- The registers after DECODE. -/
def decodeRegs (s : State) (r : ScanResult) : State :=
  if decodeCompacts s.cfg r then (s.scanned r).compact else s.scanned r

/-- The response of DECODE (R80, R150). -/
def decodeRespond (s : State) : ScanOutcome → State
  | .starved => s.respond .none []
  | .frameReady f => s.respond .frame (frameBytes f)

/-- DECODE (R150). -/
def execDecode (s : State) : Host.Outcome State Fault Refusal :=
  .next (decodeRespond (decodeRegs s (scanState s)) (scanState s).outcome)

/-! ## Status and reset -/

/-- The bytes of the counter, `ceil(CNT_W/8)` of them (R80, R167). -/
def counterBytes (P : Config) (v : Nat) : List Byte := leBytes ((P.cntW + 7) / 8) v

/-- READ_CRC_ERRORS (R167). -/
def execReadCrcErrors (s : State) : Host.Outcome State Fault Refusal :=
  .next (s.respond .ok (counterBytes s.cfg s.crcErrors))

/-- READ_STATUS (R168). -/
def execReadStatus (s : State) : Host.Outcome State Fault Refusal :=
  .next (s.respond .ok [s.phase.code, s.fault])

/-- The registers after RESET (R36, R270). -/
def State.resetRegs (s : State) : State :=
  { s with buf := [], cur := 0, crcErrors := 0, phase := .scanning, fault := 0#8 }

/-- RESET (R270). -/
def execReset (s : State) : Host.Outcome State Fault Refusal := .next (s.resetRegs.respond .ok [])

end Sys2Proof.Machine
end

