-- ==== Sys2Proof/Machine/Dispatch.lean ====
section
/-! DEFINITION. The meaning of each command, one arm each. -/

namespace Sys2Proof.Machine

def exec (i : Instr) (s : State) : Host.Outcome State Fault Refusal :=
  match i with
  | .addData d => Sys2Proof.Machine.execAddData d s
  | .decode => Sys2Proof.Machine.execDecode s
  | .readCrcErrors => Sys2Proof.Machine.execReadCrcErrors s
  | .readStatus => Sys2Proof.Machine.execReadStatus s
  | .reset => Sys2Proof.Machine.execReset s
  | .encode id length p => Sys2Proof.Machine.execEncode id length p s
  | .toBytes h p => Sys2Proof.Machine.execToBytes h p s
  | .lrc b0 b1 b2 b3 => Sys2Proof.Machine.execLrc b0 b1 b2 b3 s
  | .crc16 d => Sys2Proof.Machine.execCrc16 d s
  | .codecDecode k h p => Sys2Proof.Machine.execCodecDecode k h p s
  | .codecEncode k v => Sys2Proof.Machine.execCodecEncode k v s
  | .rdScalar ty off d => Sys2Proof.Machine.execRdScalar ty off d s
  | .bfExtract w word shift nbits => Sys2Proof.Machine.execBfExtract w word shift nbits s
  | .bfPack w items => Sys2Proof.Machine.execBfPack w items s

end Sys2Proof.Machine
end

