-- ==== Sys2Proof/Machine/Step.lean ====
section
/-! DEFINITION. One step of the block: one command (00_scope.md R3). -/

namespace Sys2Proof.Machine

/-- The command port holding exactly the instruction of an opcode-table word, its missing bytes zero. -/
def State.withFetchWord (s : State) (nbits w : Nat) : State := s.fetchWord nbits w

/-- One step. A whole command at the front of the command port is consumed and executed; an unassigned opcode is
consumed and faults (R74); while the command is incomplete the block waits, its state unchanged (R72, R285). -/
def step (s : State) : Host.Outcome State Fault Refusal :=
  match fetch s with
  | .run i rest => exec i (s.withCmd rest)
  | .illegal rest => .next (s.illegal rest)
  | .wait => .next s

end Sys2Proof.Machine
end

