-- ==== Sys2Proof/Safety.lean ====
section
/-! DEFINITION. What counts as a safe state, and the terms in which claims are written: the state after an answer,
the scanner over pending bytes (42_decoder.md R162), the bitwise CRC (40_checksums.md R105), and states that no
command sequence can tell apart (R165). These follow the spec's text, not the machine's definitions. -/

namespace Sys2Proof.Machine

/-- The invariant of the block: what every command leaves true (R21, R23, R25, R27, R201). -/
structure State.Inv (s : State) : Prop where
  /-- R27. -/
  cursor : s.cur ≤ s.buf.length
  /-- R23. -/
  counter : s.crcErrors < 2 ^ s.cfg.cntW
  /-- R21. -/
  capacity : ∀ c, s.cfg.bufCap = some c → s.buf.length ≤ c
  /-- R25. -/
  fault : s.fault = 0#8 ∨ ∃ c : FaultCode, s.fault = c.code
  /-- R8, R201, R273. -/
  config : s.cfg.wf = true

/-- `n` bytes exceed BUF_CAP, which is then a number (R8, R141). -/
def exceedsCapacity (P : Config) (n : Nat) : Prop := ∃ c, P.bufCap = some c ∧ c < n

/-- The state after a command that writes no register and answers OK with `data`. -/
def okAfter (s : State) (data : List Byte) : State := { s with rsp := s.rsp ++ [⟨.ok, data⟩] }

/-- The state after a command that faults with `c` (R244). -/
def faultAfter (s : State) (c : FaultCode) : State :=
  { s with
    fault := if s.fault = 0#8 then c.code else s.fault
    rsp := s.rsp ++ [⟨.fault c, []⟩] }

/-- The state after a DECODE that starves where the cursor stands (R150, R151, R153, R164). -/
def starvedAfter (s : State) : State :=
  { s with
    buf := s.buf.drop s.cur
    cur := 0
    phase := .starved
    rsp := s.rsp ++ [⟨.none, []⟩] }

/-- The state after a DECODE that accepts the candidate at the cursor, `n` bytes long in all (R150, R156, R163 c). -/
def acceptedAfter (s : State) (n : Nat) : State :=
  { s with
    buf := if s.cfg.compactThreshold < s.cur + n then s.buf.drop (s.cur + n) else s.buf
    cur := if s.cfg.compactThreshold < s.cur + n then 0 else s.cur + n
    phase := .frameReady
    rsp := s.rsp ++ [⟨.frame, (s.buf.drop s.cur).take n⟩] }

/-- The wire bytes of a well-formed frame (R13, R60, R61, R63, R64). -/
def ValidFrameBytes (v : List Byte) : Prop :=
  ∃ (b id len lo hi : Byte) (p : List Byte),
    v = b :: id :: len :: lo :: hi :: p ∧ p.length = len.toNat ∧ b = lrc id len lo hi ∧
      (crc16 p).toNat = lo.toNat + 256 * hi.toNat

/-- `scan(q, e)` (R162): the pending bytes and the counter after DECODE, and the frame it returns. -/
def pendScan (cntW : Nat) : List Byte → Nat → List Byte × Nat × Option (List Byte)
  | [], e => ([], e, none)
  | b :: q, e =>
    match q with
    | id :: len :: lo :: hi :: r =>
      if lrc id len lo hi ≠ b then pendScan cntW q e
      else if r.length < len.toNat then (b :: q, e, none)
      else if (crc16 (r.take len.toNat)).toNat ≠ lo.toNat + 256 * hi.toNat then
        pendScan cntW q ((e + 1) % 2 ^ cntW)
      else (r.drop len.toNat, e, some (b :: id :: len :: lo :: hi :: r.take len.toNat))
    | _ => (b :: q, e, none)

/-- The candidate at the front of `q` is rejected: it fails its LRC, or it passes with a fully buffered payload that
fails its CRC (R152, R154, R169). The second component says whether the CRC was what failed. -/
def rejects (q : List Byte) : Bool × Bool :=
  match q with
  | b :: id :: len :: lo :: hi :: r =>
    if lrc id len lo hi ≠ b then (true, false)
    else if r.length < len.toNat then (false, false)
    else if (crc16 (r.take len.toNat)).toNat ≠ lo.toNat + 256 * hi.toNat then (true, true)
    else (false, false)
  | _ => (false, false)

/-- One bit of the bitwise CRC (R105). -/
def bitwiseBit (c : Word16) : Word16 := if c.getLsbD 15 then (c <<< 1) ^^^ 0x1021#16 else c <<< 1

/-- The bitwise CRC (R105): each byte is XORed into the top of the register, then eight bits are shifted out. -/
def crc16Bitwise (s : List Byte) : Word16 :=
  s.foldl (fun (crc : Word16) (b : Byte) => bitwiseBit^[8] (crc ^^^ (b.setWidth 16 <<< 8))) 0xFFFF#16

/-- The rows of R73: the width in bytes of a type code and whether it is two's complement. -/
def scalarRow (ty : Byte) : Option (Nat × Bool) :=
  [(0x01#8, (1, false)), (0x02#8, (1, true)), (0x03#8, (2, false)), (0x04#8, (2, true)), (0x05#8, (4, false)),
    (0x06#8, (4, true)), (0x07#8, (8, false)), (0x08#8, (8, true)), (0x09#8, (4, false)),
    (0x0A#8, (8, false))].lookup ty

/-- The 8 response bytes of a scalar with the little-endian bytes `bs`: sign- or zero-extended (R181, R185). -/
def extendBytes (signed : Bool) (bs : List Byte) : List Byte :=
  bs ++ List.replicate (8 - bs.length) (if signed && (bs.getLastD 0#8).msb then 0xFF#8 else 0x00#8)

/-- The items of BF_PACK are legal in a word of `W` bits, fit, and do not overlap (R190, R192). -/
def PackLegal (W : Nat) (items : List PackItem) : Prop :=
  (∀ i ∈ items, 1 ≤ i.nbits.toNat ∧ i.shift.toNat + i.nbits.toNat ≤ W ∧ i.value.toNat < 2 ^ i.nbits.toNat) ∧
    items.Pairwise fun i j =>
      i.shift.toNat + i.nbits.toNat ≤ j.shift.toNat ∨ j.shift.toNat + j.nbits.toNat ≤ i.shift.toNat

/-- The word that legal items make: with no two overlapping, OR is addition (R192). -/
def packSum (items : List PackItem) : Nat := (items.map fun i => i.value.toNat * 2 ^ i.shift.toNat).sum

/-- Two states that no command sequence can tell apart (R9, R28, R165): they agree on the pending bytes and on
everything else but the two thresholds. -/
structure Indistinguishable (s t : State) : Prop where
  cursors : s.cur ≤ s.buf.length ∧ t.cur ≤ t.buf.length
  pend : s.pend = t.pend
  crcErrors : s.crcErrors = t.crcErrors
  phase : s.phase = t.phase
  fault : s.fault = t.fault
  cmd : s.cmd = t.cmd
  rsp : s.rsp = t.rsp
  bufCap : s.cfg.bufCap = t.cfg.bufCap
  cntW : s.cfg.cntW = t.cfg.cntW
  layouts : s.cfg.layouts = t.cfg.layouts

/-- The commands of the codec and of the pure functions: those that R33 and R48 say have no effect but a fault. -/
def pureCommand : Instr → Bool
  | .encode _ _ _ => true
  | .toBytes _ _ => true
  | .lrc _ _ _ _ => true
  | .crc16 _ => true
  | .codecDecode _ _ _ => true
  | .codecEncode _ _ => true
  | .rdScalar _ _ _ => true
  | .bfExtract _ _ _ _ => true
  | .bfPack _ _ => true
  | .addData _ => false
  | .decode => false
  | .readCrcErrors => false
  | .readStatus => false
  | .reset => false

/-- `cnt` is the tail element count of the payload `p` of a variant, and the payload holds that many elements (R210):
0 without a tail, derived from the length, or the value of the count field. -/
def TailCount (V : Variant) (p : List Byte) (cnt : Nat) : Prop :=
  match V.tail with
  | .none => cnt = 0
  | .len size _ => cnt = (p.length - V.head) / size
  | .cnt name size _ =>
    (∃ f, findField V.fields name = some f ∧ cnt = le ((p.drop f.off).take f.ty.width)) ∧
      V.head + cnt * size ≤ p.length

/-- The bytes of a payload that no field of the variant covers, up to the end of `cnt` tail elements, are zero
(R215, R217). -/
def GapsZero (V : Variant) (cnt : Nat) (p : List Byte) : Prop :=
  ∀ a, a < V.head + cnt * V.tail.size →
    (∀ f ∈ V.fields, a < f.off ∨ f.off + f.size ≤ a) →
    (∀ e, e < cnt → ∀ f ∈ V.tail.fields,
      a < V.head + e * V.tail.size + f.off ∨ V.head + e * V.tail.size + f.off + f.size ≤ a) →
    p[a]? = some 0#8

/-- A value slot of CODEC_ENCODE is in the range of a scalar type: two's complement for the signed types (R75, R182). -/
def SlotFits (ty : ScalarType) (x : Word64) : Prop :=
  if ty.signed = true then -(2 ^ (8 * ty.width - 1)) ≤ x.toInt ∧ x.toInt < 2 ^ (8 * ty.width - 1)
  else x.toNat < 2 ^ (8 * ty.width)

/-- The values of a packet after the variant index fit the variant (R182, R192, R215): `cnt` is the tail count, and
the slots stand in the order of R212. -/
structure ValuesFit (V : Variant) (cnt : Nat) (vals : List Word64) : Prop where
  /-- Every element of every fixed field is in the range of its type (R182). -/
  fields : ∀ pre f post j x, V.fields = pre ++ f :: post → j < f.count → vals[fieldValues pre + j]? = some x →
    SlotFits f.ty x
  /-- Every bit-field value fits its width (R192). -/
  bitfields : ∀ pre b post y, V.bitfields = pre ++ b :: post →
    vals[fieldValues V.fields + pre.length]? = some y → y.toNat < 2 ^ b.width
  /-- The slot of the count field of a `CNT` tail is the tail count (R215, log entry 19). -/
  count : ∀ name size ef pre f post x, V.tail = .cnt name size ef → V.fields = pre ++ f :: post → f.name = name →
    vals[fieldValues pre]? = some x → x.toNat = cnt
  /-- Every element of every field of every tail element is in the range of its type (R182). -/
  elements : ∀ e pre g post j x, e < cnt → V.tail.fields = pre ++ g :: post → j < g.count →
    vals[fieldValues V.fields + V.bitfields.length + 1 + e * fieldValues V.tail.fields + fieldValues pre + j]?
      = some x → SlotFits g.ty x

end Sys2Proof.Machine
end

