-- ==== Sys2Proof/Certificates/Slice0/Obligations.lean ====
section
/-! DEFINITION. The statements for the provers, stated from the rules of the spec. -/

open Sys2Proof Sys2Proof.Machine

/-! ## Encoding -/

/-- Decode and encode agree (30_encoding.md R70 to R75): the decoder reads a well-formed command back from its
bytes, whatever follows them on the port. -/
def Obligations.DecodeOfEncodeIsTheCommand : Prop :=
  ∀ (i : Instr) (rest : List Byte), i.wf = true → decode (encode i ++ rest) = .command i rest

/-- Every byte string has one meaning: bytes that decode to a command are the bytes of that command, which is
well-formed (30_encoding.md R70 to R75). -/
def Obligations.DecodedBytesAreTheEncoding : Prop :=
  ∀ (bs : List Byte) (i : Instr) (rest : List Byte),
    decode bs = .command i rest → i.wf = true ∧ bs = encode i ++ rest

/-- R72: a command is complete exactly when as many bytes as its opcode and count field say have arrived; a
complete one takes exactly that many bytes, and an unassigned opcode is a command of exactly 1 byte. -/
def Obligations.CommandLengthDecidesCompleteness : Prop :=
  ∀ bs : List Byte,
    (decode bs = .incomplete ↔ bs.length < commandLength bs) ∧
    (∀ i rest, decode bs = .command i rest → bs.length = commandLength bs + rest.length) ∧
    (∀ op rest, decode bs = .illegal op rest ↔ bs = op :: rest ∧ formatOf op = none)

/-- A command of which only the first bytes have arrived is held without being executed (30_encoding.md R72,
70_reset_and_hazards.md R285). That holding it is a next state equal to the old one is the model's reading (log
entry 4). -/
def Obligations.PartialCommandIsHeld : Prop :=
  ∀ (s : State) (i : Instr) (n : Nat),
    i.wf = true → n < (encode i).length → s.cmd = (encode i).take n → step s = .next s

/-- R70, R51: when the bytes at the front of the command port decode to a command, a step is that command's
execution, with its bytes taken off the port first, which is the model's reading (log entry 18). -/
def Obligations.StepRunsTheDecodedCommand : Prop :=
  ∀ (s : State) (i : Instr) (rest : List Byte),
    decode s.cmd = .command i rest → step s = exec i { s with cmd := rest }

/-- An unassigned opcode raises ILLEGAL_CMD, an operand value outside its legal set raises BAD_OPERAND
(30_encoding.md R74). That the one byte of the unassigned opcode is gone from the command port is the model's reading
(log entry 18, with R72 for the one byte). -/
def Obligations.IllegalEncodingsFault : Prop :=
  (∀ (s : State) (op : Byte) (rest : List Byte),
    op ∉ [0x01#8, 0x02#8, 0x03#8, 0x04#8, 0x0F#8, 0x10#8, 0x11#8, 0x20#8, 0x21#8, 0x30#8, 0x31#8, 0x40#8, 0x41#8,
      0x42#8] →
    s.cmd = op :: rest → step s = .next (faultAfter { s with cmd := rest } .illegalCmd)) ∧
  (∀ (s : State) (ty : Byte) (off : Word16) (d : List Byte),
    (ty = 0#8 ∨ 0x0A#8 < ty) → exec (.rdScalar ty off d) s = .next (faultAfter s .badOperand)) ∧
  (∀ (s : State) (w shift nbits : Byte) (word : List Byte) (items : List PackItem),
    w ∉ [1#8, 2#8, 4#8, 8#8] →
    exec (.bfExtract w word shift nbits) s = .next (faultAfter s .badOperand) ∧
      exec (.bfPack w items) s = .next (faultAfter s .badOperand)) ∧
  (∀ (s : State) (k : Byte) (h : Header) (p : List Byte) (v : List Word64),
    s.cfg.layout k = none →
    exec (.codecDecode k h p) s = .next (faultAfter s .badOperand) ∧
      exec (.codecEncode k v) s = .next (faultAfter s .badOperand))

/-- One word of each format, written out from R70 and R71 (the words of 95_test_vectors.md where it gives one),
decodes to the command it stands for. -/
def Obligations.WrittenOutWordsDecode : Prop :=
  decode [0x01, 0x02, 0x00, 0x30, 0x02] = .command (.addData [0x30, 0x02]) [] ∧
  decode [0x02, 0x03] = .command .decode [0x03] ∧
  decode [0x10, 0x01, 0x02, 0x01, 0x00, 0x02] = .command (.encode 0x01 0x02 [0x02]) [] ∧
  decode [0x11, 0x8b, 0x01, 0x01, 0xb2, 0xc1, 0x01, 0x00, 0x02]
    = .command (.toBytes ⟨0x8b, 0x01, 0x01, 0xb2, 0xc1⟩ [0x02]) [] ∧
  decode [0x20, 0x01, 0x01, 0xb2, 0xc1] = .command (.lrc 0x01 0x01 0xb2 0xc1) [] ∧
  decode [0x30, 0x01, 0x82, 0x00, 0x04, 0x79, 0x01, 0x01, 0x00, 0xb8]
    = .command (.codecDecode 0x01 ⟨0x82, 0x00, 0x04, 0x79, 0x01⟩ [0xb8]) [] ∧
  decode [0x31, 0x01, 0x01, 0x00, 1, 2, 3, 4, 5, 6, 7, 8]
    = .command (.codecEncode 0x01 [0x0807060504030201]) [] ∧
  decode [0x40, 0x03, 0x01, 0x02, 0x01, 0x00, 0xaa] = .command (.rdScalar 0x03 0x0201 [0xaa]) [] ∧
  decode [0x41, 0x02, 0x34, 0x12, 0x04, 0x08] = .command (.bfExtract 0x02 [0x34, 0x12] 0x04 0x08) [] ∧
  decode [0x42, 0x01, 0x01, 2, 0, 0, 0, 0, 0, 0, 0, 0x00, 0x01]
    = .command (.bfPack 0x01 [⟨2, 0x00, 0x01⟩]) []

/-! ## Reset -/

/-- R270: RESET, its encoding and its effect on all five registers, and it is the only command that clears
`fault`. -/
def Obligations.ResetClearsEveryRegister : Prop :=
  (∀ (s : State) (rest : List Byte),
    decode (0x0F#8 :: rest) = .command .reset rest ∧
    exec .reset s = .next
      { s with
        buf := [], cur := 0, crcErrors := 0, phase := .scanning, fault := 0#8
        rsp := s.rsp ++ [⟨.ok, []⟩] }) ∧
  ∀ (i : Instr) (s t : State), i ≠ .reset → s.fault ≠ 0#8 → exec i s = .next t → t.fault = s.fault

/-- R36, R271: the register values after power-on, and RESET gives the same ones. -/
def Obligations.PowerOnIsTheResetState : Prop :=
  (∀ P : Config,
    (State.powerOn P).buf = [] ∧ (State.powerOn P).cur = 0 ∧ (State.powerOn P).crcErrors = 0 ∧
      (State.powerOn P).phase = .scanning ∧ (State.powerOn P).fault = 0#8) ∧
  ∀ s : State, ∃ t, exec .reset s = .next t ∧
    t.buf = (State.powerOn s.cfg).buf ∧ t.cur = (State.powerOn s.cfg).cur ∧
      t.crcErrors = (State.powerOn s.cfg).crcErrors ∧ t.phase = (State.powerOn s.cfg).phase ∧
      t.fault = (State.powerOn s.cfg).fault

/-! ## Checksums -/

/-- R100, R108: LRC answers the header LRC of its four bytes and writes no register. -/
def Obligations.LrcCommandAnswersHeaderLrc : Prop :=
  ∀ (s : State) (b0 b1 b2 b3 : Byte) (rest : List Byte),
    decode (0x20#8 :: b0 :: b1 :: b2 :: b3 :: rest) = .command (.lrc b0 b1 b2 b3) rest ∧
    exec (.lrc b0 b1 b2 b3) s = .next
      (okAfter s [BitVec.ofNat 8 (((b0.toNat + b1.toNat + b2.toNat + b3.toNat) ^^^ 0xFF) + 1)])

/-- The LRC is the negated sum, the five header bytes sum to 0 modulo 256, and every byte value occurs. The spec
marks these as its own derivations (40_checksums.md R101, 30_encoding.md R66). -/
def Obligations.LrcIsTheNegatedSum : Prop :=
  (∀ b0 b1 b2 b3 : Byte,
    lrc b0 b1 b2 b3 = -(b0 + b1 + b2 + b3) ∧
      ((lrc b0 b1 b2 b3).toNat + b0.toNat + b1.toNat + b2.toNat + b3.toNat) % 256 = 0) ∧
  ∀ x : Byte, ∃ b0 b1 b2 b3 : Byte, lrc b0 b1 b2 b3 = x

/-- R109: CRC16 answers the CRC of any data the port can carry, low byte first, and writes no register. -/
def Obligations.CrcCommandAnswersPayloadCrc : Prop :=
  ∀ (s : State) (d rest : List Byte), d.length < 65536 →
    decode (0x21#8 :: (leBytes 2 d.length ++ d ++ rest)) = .command (.crc16 d) rest ∧
    exec (.crc16 d) s = .next (okAfter s (leBytes 2 (crc16 d).toNat))

/-- The table-driven CRC equals the bitwise one on every input (40_checksums.md R105, which the spec marks as its
own derivation). -/
def Obligations.CrcTableLoopEqualsBitwiseForm : Prop :=
  ∀ s : List Byte, crc16 s = crc16Bitwise s

/-- The CRC can be computed incrementally, and does not depend on how the data is split (40_checksums.md R107, which
the spec marks as its own derivation). -/
def Obligations.CrcIsIncremental : Prop :=
  ∀ a b : List Byte, crc16 (a ++ b) = crc16From (crc16 a) b

/-- The three CRC values that the source's vectors fix, and the standard check value of the digits 1 to 9, which
40_checksums.md R106 adds from general knowledge. -/
def Obligations.KnownCrcValues : Prop :=
  crc16 [] = 0xFFFF#16 ∧ crc16 [0x02] = 0xC1B2#16 ∧ crc16 [0x02, 0x03, 0xb6] = 0x30B2#16 ∧
    crc16 [0x31, 0x32, 0x33, 0x34, 0x35, 0x36, 0x37, 0x38, 0x39] = 0x29B1#16

/-! ## Frame container -/

/-- R121: ENCODE builds the header for a payload of the announced length, and faults with ENCODE_PRECOND on any
other length, which covers every payload above 255 bytes. -/
def Obligations.EncodeBuildsTheFrame : Prop :=
  ∀ (s : State) (id length : Byte) (p rest : List Byte), p.length < 65536 →
    decode (0x10#8 :: id :: length :: (leBytes 2 p.length ++ p ++ rest)) = .command (.encode id length p) rest ∧
    if p.length = length.toNat then
      ∃ lo hi : Byte, (crc16 p).toNat = lo.toNat + 256 * hi.toNat ∧
        exec (.encode id length p) s = .next (okAfter s (lrc id length lo hi :: id :: length :: lo :: hi :: p))
    else exec (.encode id length p) s = .next (faultAfter s .encodePrecond)

/-- The zero-length frame: its header is the LRC byte `2 - id`, then `id 00 ff ff` (41_frame.md R122, which the
spec marks as its own derivation). -/
def Obligations.ZeroLengthFrameHeader : Prop :=
  ∀ (s : State) (id : Byte),
    exec (.encode id 0#8 []) s = .next (okAfter s [0x02#8 - id, id, 0x00, 0xff, 0xff])

/-- R13: every frame that DECODE or ENCODE emits is well-formed. -/
def Obligations.EmittedFramesAreWellFormed : Prop :=
  ∀ (s t : State) (data : List Byte),
    (exec .decode s = .next t → t.rsp = s.rsp ++ [⟨.frame, data⟩] → ValidFrameBytes data) ∧
    ∀ (id length : Byte) (p : List Byte),
      exec (.encode id length p) s = .next t → t.rsp = s.rsp ++ [⟨.ok, data⟩] → ValidFrameBytes data

/-- R126: TO_BYTES is a pure projection: the response depends on the operand alone, is header then payload after a
two-byte count, and the count is `5 + n` where that fits two bytes. Where it does not, the spec gives no count, and
the statement leaves it free (log entry 10). -/
def Obligations.ToBytesIsAPureProjection : Prop :=
  ∀ (h : Header) (p : List Byte), ∃ c : List Byte, c.length = 2 ∧
    (5 + p.length < 65536 → c = leBytes 2 (5 + p.length)) ∧
    ∀ s : State, exec (.toBytes h p) s = .next
      (okAfter s (c ++ [h.lrc, h.id, h.length, h.crcLo, h.crcHi] ++ p))

/-- Round trip: a frame that ENCODE builds, fed to a decoder with nothing pending, is what the next DECODE returns
(41_frame.md R124, which the spec marks as its own derivation). -/
def Obligations.EncodeThenDecodeReturnsTheFrame : Prop :=
  ∀ (s : State) (id length : Byte) (p : List Byte),
    s.cur = s.buf.length → (∀ c, s.cfg.bufCap = some c → 260 ≤ c) → p.length = length.toNat →
    ∃ (lrcByte lo hi : Byte) (t u : State),
      exec (.encode id length p) s = .next (okAfter s (lrcByte :: id :: length :: lo :: hi :: p)) ∧
      exec (.addData (lrcByte :: id :: length :: lo :: hi :: p))
        (okAfter s (lrcByte :: id :: length :: lo :: hi :: p)) = .next t ∧
      exec .decode t = .next u ∧
      u.rsp = t.rsp ++ [⟨.frame, lrcByte :: id :: length :: lo :: hi :: p⟩] ∧
      u.pend = [] ∧ u.crcErrors = s.crcErrors ∧ u.fault = s.fault

/-! ## ADD_DATA -/

/-- R141, R163 (b), R164: ADD_DATA appends the bytes, or faults when the pending bytes and the data exceed a finite
capacity; it compacts exactly where the rule says. -/
def Obligations.AddDataAppendsOrOverflows : Prop :=
  ∀ (s : State) (d rest : List Byte), s.cur ≤ s.buf.length → d.length < 65536 →
    decode (0x01#8 :: (leBytes 2 d.length ++ d ++ rest)) = .command (.addData d) rest ∧
    (exceedsCapacity s.cfg (s.buf.length - s.cur + d.length) →
      exec (.addData d) s = .next (faultAfter s .overflow)) ∧
    (¬ exceedsCapacity s.cfg (s.buf.length - s.cur + d.length) →
      exceedsCapacity s.cfg (s.buf.length + d.length) ∨ s.cfg.streamThreshold < s.buf.length + d.length →
      exec (.addData d) s = .next
        { s with buf := s.buf.drop s.cur ++ d, cur := 0, rsp := s.rsp ++ [⟨.ok, []⟩] }) ∧
    (¬ exceedsCapacity s.cfg (s.buf.length + d.length) → s.buf.length + d.length ≤ s.cfg.streamThreshold →
      exec (.addData d) s = .next { s with buf := s.buf ++ d, rsp := s.rsp ++ [⟨.ok, []⟩] })

/-- Splitting the data over two ADD_DATA commands leaves the same pending bytes, counter, phase and fault as one
command (42_decoder.md R142, which the spec marks as its own derivation). -/
def Obligations.SplittingTheDataDoesNotMatter : Prop :=
  ∀ (s : State) (a b : List Byte), s.cur ≤ s.buf.length → s.cfg.bufCap = none →
    ∃ t u v : State, exec (.addData a) s = .next t ∧ exec (.addData b) t = .next u ∧
      exec (.addData (a ++ b)) s = .next v ∧
      u.pend = v.pend ∧ u.pend = s.pend ++ a ++ b ∧ u.crcErrors = v.crcErrors ∧ u.phase = v.phase ∧
      u.fault = v.fault

/-! ## DECODE -/

/-- R150 to R154, R156: one pass of the scanning machine, case by case. The candidate at the cursor starves, is
noise, waits for its payload, fails its CRC, or is returned; a rejected one means that DECODE goes on one byte
later. -/
def Obligations.DecodeFollowsItsFiveSteps : Prop :=
  ∀ (s : State) (rest : List Byte),
    decode (0x02#8 :: rest) = .command .decode rest ∧
    (s.buf.length < s.cur + 5 → exec .decode s = .next (starvedAfter s)) ∧
    ∀ (b id len lo hi : Byte), (s.buf.drop s.cur).take 5 = [b, id, len, lo, hi] →
      if lrc id len lo hi ≠ b then exec .decode s = exec .decode { s with cur := s.cur + 1 }
      else if s.buf.length < s.cur + 5 + len.toNat then exec .decode s = .next (starvedAfter s)
      else if (crc16 ((s.buf.drop (s.cur + 5)).take len.toNat)).toNat ≠ lo.toNat + 256 * hi.toNat then
        exec .decode s
          = exec .decode { s with cur := s.cur + 1, crcErrors := (s.crcErrors + 1) % 2 ^ s.cfg.cntW }
      else exec .decode s = .next (acceptedAfter s (5 + len.toNat))

/-- R160: DECODE never raises a fault, whatever the buffer holds: it answers a frame or NONE. -/
def Obligations.DecodeNeverFaults : Prop :=
  ∀ s : State, ∃ (t : State) (r : Response), exec .decode s = .next t ∧ t.rsp = s.rsp ++ [r] ∧
    (r.status = .frame ∨ r = ⟨.none, []⟩) ∧ t.fault = s.fault ∧ t.cfg = s.cfg ∧ t.cmd = s.cmd

/-- R158: the phase after DECODE is its outcome, and the phase before it has no influence. -/
def Obligations.PhaseIsTheOutcomeOfDecode : Prop :=
  ∀ s : State, ∃ (t : State) (r : Response), exec .decode s = .next t ∧ t.rsp = s.rsp ++ [r] ∧
    (t.phase = .frameReady ∧ r.status = .frame ∨ t.phase = .starved ∧ r = ⟨.none, []⟩) ∧
    ∀ ph : Phase, exec .decode { s with phase := ph } = .next t

/-- DECODE takes bytes off the front of the pending bytes only: what it returns is a run of them, what stays pending
is what follows it (20_memory.md R52, 42_decoder.md R161). -/
def Obligations.DecodeReturnsBytesInStreamOrder : Prop :=
  ∀ s : State, s.cur ≤ s.buf.length → ∃ (t : State) (skipped data : List Byte), exec .decode s = .next t ∧
    s.pend = skipped ++ data ++ t.pend ∧ t.cur ≤ t.buf.length ∧
    (t.rsp = s.rsp ++ [⟨.frame, data⟩] ∧ 5 ≤ data.length ∨ t.rsp = s.rsp ++ [⟨.none, []⟩] ∧ data = [])

/-- DECODE is the function `scan` of the pending bytes and the counter (42_decoder.md R162, which the spec marks as
its own derivation). -/
def Obligations.DecodeIsScanOfThePendingBytes : Prop :=
  ∀ s : State, s.cur ≤ s.buf.length → ∃ t : State, exec .decode s = .next t ∧
    t.pend = (pendScan s.cfg.cntW s.pend s.crcErrors).1 ∧
    t.crcErrors = (pendScan s.cfg.cntW s.pend s.crcErrors).2.1 ∧
    match (pendScan s.cfg.cntW s.pend s.crcErrors).2.2 with
    | some data => t.phase = .frameReady ∧ t.rsp = s.rsp ++ [⟨.frame, data⟩]
    | none => t.phase = .starved ∧ t.rsp = s.rsp ++ [⟨.none, []⟩]

/-- Starvation idempotence: a DECODE that starves at its first candidate answers NONE and leaves the pending bytes
and the counter as they were; when the missing bytes arrive, the frame is returned (42_decoder.md R166, which the
spec marks as its own derivation). -/
def Obligations.StarvingAtAFrameKeepsItPending : Prop :=
  ∀ (s : State) (v : List Byte) (n : Nat), s.cur ≤ s.buf.length → s.cfg.bufCap = none → ValidFrameBytes v →
    n < v.length → s.pend = v.take n →
    ∃ t u w : State, exec .decode s = .next t ∧ t.rsp = s.rsp ++ [⟨.none, []⟩] ∧ t.pend = s.pend ∧
      t.crcErrors = s.crcErrors ∧ exec (.addData (v.drop n)) t = .next u ∧ exec .decode u = .next w ∧
      w.rsp = u.rsp ++ [⟨.frame, v⟩] ∧ w.pend = [] ∧ w.crcErrors = s.crcErrors

/-- Resync: behind noise of which every offset is rejected, one DECODE returns the valid frame, and the counter rises
by the number of offsets that failed the CRC (42_decoder.md R169, which the spec marks as its own derivation). -/
def Obligations.DecodeResynchronizesBehindNoise : Prop :=
  ∀ (s : State) (noise v after : List Byte), s.cur ≤ s.buf.length → ValidFrameBytes v →
    s.pend = noise ++ v ++ after →
    (∀ i, i < noise.length → (rejects (s.pend.drop i)).1 = true) →
    ∃ t : State, exec .decode s = .next t ∧ t.rsp = s.rsp ++ [⟨.frame, v⟩] ∧ t.pend = after ∧
      t.crcErrors % 2 ^ s.cfg.cntW =
        (s.crcErrors + ((List.range noise.length).filter fun i => (rejects (s.pend.drop i)).2).length)
          % 2 ^ s.cfg.cntW

/-- No double consumption: two valid frames are returned once each, in order, and a third DECODE answers NONE
(42_decoder.md R170, which the spec marks as its own derivation). -/
def Obligations.TwoFramesAreReturnedOnceEach : Prop :=
  ∀ (s : State) (f1 f2 : List Byte), s.cur ≤ s.buf.length → ValidFrameBytes f1 → ValidFrameBytes f2 →
    s.pend = f1 ++ f2 →
    ∃ t u v : State, exec .decode s = .next t ∧ exec .decode t = .next u ∧ exec .decode u = .next v ∧
      v.rsp = s.rsp ++ [⟨.frame, f1⟩, ⟨.frame, f2⟩, ⟨.none, []⟩] ∧ v.pend = [] ∧ v.crcErrors = s.crcErrors

/-- With at least 260 bytes pending, DECODE returns a frame or consumes at least one byte, so ADD_DATA cannot be
blocked for good (70_reset_and_hazards.md R284, which the spec marks as its own derivation). -/
def Obligations.FullBufferAlwaysFreesRoom : Prop :=
  ∀ s : State, 260 ≤ s.buf.length - s.cur →
    ∃ t : State, exec .decode s = .next t ∧ t.pend.length < s.pend.length

/-- R167: READ_CRC_ERRORS answers the counter in `ceil(CNT_W/8)` bytes and does not clear it. -/
def Obligations.ReadCrcErrorsAnswersTheCounter : Prop :=
  ∀ (s : State) (rest : List Byte),
    decode (0x03#8 :: rest) = .command .readCrcErrors rest ∧
    ∃ data : List Byte, exec .readCrcErrors s = .next (okAfter s data) ∧
      8 * data.length < s.cfg.cntW + 8 ∧ s.cfg.cntW ≤ 8 * data.length ∧
      (s.crcErrors < 2 ^ s.cfg.cntW → le data = s.crcErrors)

/-- R168: READ_STATUS answers the phase and the fault register and changes neither. -/
def Obligations.ReadStatusAnswersPhaseAndFault : Prop :=
  ∀ (s : State) (rest : List Byte),
    decode (0x04#8 :: rest) = .command .readStatus rest ∧
    exec .readStatus s = .next
      (okAfter s [match s.phase with | .scanning => 0#8 | .frameReady => 1#8 | .starved => 2#8, s.fault])

/-! ## Codec -/

/-- R181, R185: RD_SCALAR answers the bytes at the offset, sign- or zero-extended to 8 by the rows of R73; an
unknown type faults before a read past the end does. -/
def Obligations.RdScalarExtendsTheBytes : Prop :=
  ∀ (s : State) (ty : Byte) (off : Word16) (d rest : List Byte), d.length < 65536 →
    decode (0x40#8 :: ty :: (leBytes 2 off.toNat ++ leBytes 2 d.length ++ d ++ rest))
      = .command (.rdScalar ty off d) rest ∧
    match scalarRow ty with
    | none => exec (.rdScalar ty off d) s = .next (faultAfter s .badOperand)
    | some (n, signed) =>
      if d.length < off.toNat + n then exec (.rdScalar ty off d) s = .next (faultAfter s .extractRange)
      else exec (.rdScalar ty off d) s = .next (okAfter s (extendBytes signed ((d.drop off.toNat).take n)))

/-- R190, R191: BF_EXTRACT answers the bits `s+k-1 .. s` of the word as 8 bytes; an illegal word width faults before
an illegal geometry does. -/
def Obligations.BfExtractAnswersTheBits : Prop :=
  ∀ (s : State) (w shift nbits : Byte) (word rest : List Byte), word.length = w.toNat →
    decode (0x41#8 :: w :: (word ++ [shift, nbits] ++ rest)) = .command (.bfExtract w word shift nbits) rest ∧
    if w ∉ [1#8, 2#8, 4#8, 8#8] then exec (.bfExtract w word shift nbits) s = .next (faultAfter s .badOperand)
    else if nbits.toNat < 1 ∨ 8 * w.toNat < shift.toNat + nbits.toNat then
      exec (.bfExtract w word shift nbits) s = .next (faultAfter s .bfRange)
    else ∃ x : Nat, x < 2 ^ 64 ∧ exec (.bfExtract w word shift nbits) s = .next (okAfter s (leBytes 8 x)) ∧
      ∀ j, x.testBit j = (decide (j < nbits.toNat) && (le word).testBit (shift.toNat + j))

/-- R192 for legal items: BF_PACK answers the word in which every item stands at its shift. With no two items
overlapping the OR of the items is their sum, an inference of this statement's (R192 writes OR). -/
def Obligations.BfPackSumsTheFields : Prop :=
  ∀ (s : State) (w : Byte) (items : List PackItem), w ∈ [1#8, 2#8, 4#8, 8#8] → PackLegal (8 * w.toNat) items →
    exec (.bfPack w items) s = .next (okAfter s (leBytes w.toNat (packSum items))) ∧
      packSum items < 2 ^ (8 * w.toNat)

/-- R193: items are checked in order and the first failing item decides the fault; within an item, geometry, then
overlap, then the value. -/
def Obligations.FirstBadPackItemDecidesTheFault : Prop :=
  ∀ (s : State) (w : Byte) (good : List PackItem) (bad : PackItem) (others : List PackItem),
    w ∈ [1#8, 2#8, 4#8, 8#8] → PackLegal (8 * w.toNat) good →
    if bad.nbits.toNat < 1 ∨ 8 * w.toNat < bad.shift.toNat + bad.nbits.toNat then
      exec (.bfPack w (good ++ bad :: others)) s = .next (faultAfter s .bfRange)
    else if ∃ g ∈ good, g.shift.toNat < bad.shift.toNat + bad.nbits.toNat ∧
        bad.shift.toNat < g.shift.toNat + g.nbits.toNat then
      exec (.bfPack w (good ++ bad :: others)) s = .next (faultAfter s .bfRange)
    else 2 ^ bad.nbits.toNat ≤ bad.value.toNat →
      exec (.bfPack w (good ++ bad :: others)) s = .next (faultAfter s .valueRange)

/-- Extraction inverts packing: what BF_EXTRACT reads at an item's place in the word that BF_PACK answers is the
item's value (43_codec.md R195, which the spec marks as its own derivation). -/
def Obligations.ExtractInvertsPack : Prop :=
  ∀ (s : State) (w : Byte) (items : List PackItem), w ∈ [1#8, 2#8, 4#8, 8#8] → PackLegal (8 * w.toNat) items →
    ∃ word : List Byte, word.length = w.toNat ∧ exec (.bfPack w items) s = .next (okAfter s word) ∧
      ∀ i ∈ items, exec (.bfExtract w word i.shift i.nbits) s = .next (okAfter s (leBytes 8 i.value.toNat))

/-- R202, R211: the sub-codes of CODEC_DECODE and the order of its checks, for every table of well-formed layouts:
the id, then the length, then the count of a `CNT` tail against the payload. -/
def Obligations.DecodeErrorsFollowTheOrderOfChecks : Prop :=
  ∀ (s : State) (k : Byte) (L : Layout) (h : Header) (p : List Byte),
    s.cfg.wf = true → s.cfg.layout k = some L →
    if h.id ≠ L.pid then
      exec (.codecDecode k h p) s = .next { s with rsp := s.rsp ++ [⟨.decodeError, [0x01]⟩] }
    else if ∀ V ∈ L.variants, V.accepts p.length = false then
      if ∃ V ∈ L.variants, V.tail ≠ .none ∧ V.head ≤ p.length then
        exec (.codecDecode k h p) s = .next { s with rsp := s.rsp ++ [⟨.decodeError, [0x03]⟩] }
      else exec (.codecDecode k h p) s = .next { s with rsp := s.rsp ++ [⟨.decodeError, [0x02]⟩] }
    else ∀ (V : Variant) (name : String) (size : Nat) (ef : List Field) (f : Field),
      V ∈ L.variants → V.accepts p.length = true → V.tail = .cnt name size ef →
      findField V.fields name = some f →
      p.length < V.head + le ((p.drop f.off).take f.ty.width) * size →
      exec (.codecDecode k h p) s = .next { s with rsp := s.rsp ++ [⟨.decodeError, [0x04]⟩] }

/-- Every payload that a variant accepts and whose count fits is decoded: the response holds the variant index and
as many values as the layout has, 8 bytes each, and no register changes (43_codec.md R210, R212). The u16 count is
the number of values where that fits two bytes; where it does not, the spec gives none (log entry 11). -/
def Obligations.CodecDecodeAnswersTheValues : Prop :=
  ∀ (s : State) (k : Byte) (L : Layout) (V : Variant) (n : Nat) (h : Header) (p : List Byte) (cnt : Nat),
    s.cfg.wf = true → s.cfg.layout k = some L → L.variants[n]? = some V → h.id = L.pid →
    V.accepts p.length = true →
    TailCount V p cnt →
    ∃ c vals : List Byte, exec (.codecDecode k h p) s = .next (okAfter s (c ++ leBytes 8 n ++ vals)) ∧
      c.length = 2 ∧
      vals.length = 8 * (fieldValues V.fields + V.bitfields.length + 1 + cnt * fieldValues V.tail.fields) ∧
      (1 + vals.length / 8 < 65536 → c = leBytes 2 (1 + vals.length / 8)) ∧
      (vals.drop (8 * (fieldValues V.fields + V.bitfields.length))).take 8 = leBytes 8 cnt

/-- Where each value of a decoded payload stands and what it is, for every layout of a well-formed table
(43_codec.md R184, R210, R212): the fields in descriptor order, each array in element order, the bit-fields, and
behind the tail count the elements in order. Each value is 8 bytes: a scalar sign- or zero-extended, a bit-field of
its host. -/
def Obligations.DecodedValuesStandInDescriptorOrder : Prop :=
  ∀ (s : State) (k : Byte) (L : Layout) (V : Variant) (n : Nat) (h : Header) (p : List Byte) (cnt : Nat),
    s.cfg.wf = true → s.cfg.layout k = some L → L.variants[n]? = some V → h.id = L.pid →
    V.accepts p.length = true → TailCount V p cnt →
    ∃ c vals : List Byte, exec (.codecDecode k h p) s = .next (okAfter s (c ++ leBytes 8 n ++ vals)) ∧
      c.length = 2 ∧
      (∀ pre f post j, V.fields = pre ++ f :: post → j < f.count →
        (vals.drop (8 * (fieldValues pre + j))).take 8
          = extendBytes f.ty.signed ((p.drop (f.off + j * f.ty.width)).take f.ty.width)) ∧
      (∀ pre b post f, V.bitfields = pre ++ b :: post → findField V.fields b.host = some f →
        (vals.drop (8 * (fieldValues V.fields + pre.length))).take 8
          = leBytes 8 (le ((p.drop f.off).take f.ty.width) / 2 ^ b.shift % 2 ^ b.width)) ∧
      ∀ e pre g post j, e < cnt → V.tail.fields = pre ++ g :: post → j < g.count →
        (vals.drop (8 * (fieldValues V.fields + V.bitfields.length + 1 + e * fieldValues V.tail.fields
            + fieldValues pre + j))).take 8
          = extendBytes g.ty.signed
              ((p.drop (V.head + e * V.tail.size + g.off + j * g.ty.width)).take g.ty.width)

/-- Fixed-length rejection: one fixed-size variant of size N refuses every other length, N-1 and N+1 among them, and
never truncates or pads (43_codec.md R213, which the spec marks as its own derivation). -/
def Obligations.FixedLengthLayoutsRejectOtherLengths : Prop :=
  ∀ (s : State) (k : Byte) (L : Layout) (V : Variant) (h : Header) (p : List Byte),
    s.cfg.layout k = some L → L.variants = [V] → V.tail = .none → h.id = L.pid → p.length ≠ V.head →
    exec (.codecDecode k h p) s = .next { s with rsp := s.rsp ++ [⟨.decodeError, [0x02]⟩] }

/-- The acknowledge layout at index 0 (43_codec.md R220; byte 3 has its name from general knowledge, log entry 16):
a 4-byte payload is packet_id, packet_crc little-endian and the result byte; and it is not encodable. -/
def Obligations.AcknowledgeIsDecodedNotEncoded : Prop :=
  ∀ (s : State) (h : Header) (a b c d : Byte) (v : List Word64),
    s.cfg.layouts = State.reset.cfg.layouts → h.id = 0x00#8 →
    exec (.codecDecode 0x00#8 h [a, b, c, d]) s = .next
      (okAfter s ([0x05, 0x00] ++ leBytes 8 0 ++ leBytes 8 a.toNat ++ leBytes 8 (b.toNat + 256 * c.toNat) ++
        leBytes 8 d.toNat ++ leBytes 8 0)) ∧
    exec (.codecEncode 0x00#8 v) s = .next (faultAfter s .badOperand)

/-- The request layout at index 1, decoded (43_codec.md R221, which the spec marks as its own derivation): the
values are the variant 0, the number of ids, and the ids. -/
def Obligations.RequestDecodesToItsIds : Prop :=
  ∀ (s : State) (h : Header) (ids : List Byte),
    s.cfg.layouts = State.reset.cfg.layouts → h.id = 0x01#8 → ids.length < 65534 →
    exec (.codecDecode 0x01#8 h ids) s = .next
      (okAfter s (leBytes 2 (2 + ids.length) ++ leBytes 8 0 ++ leBytes 8 ids.length ++
        ids.flatMap fun b => leBytes 8 b.toNat))

/-- The request layout at index 1, encoded (43_codec.md R215, R221): up to 255 ids make the frame that ENCODE builds
of them; more ids fault with ENCODE_PRECOND; an id above 255 faults with VALUE_RANGE; a count that disagrees with
the number of values faults with BAD_OPERAND. -/
def Obligations.RequestEncodesItsIds : Prop :=
  ∀ (s : State) (ids : List Word64), s.cfg.layouts = State.reset.cfg.layouts → ids.length < 2 ^ 64 →
    (if 255 < ids.length then
      exec (.codecEncode 0x01#8 (0 :: BitVec.ofNat 64 ids.length :: ids)) s
        = .next (faultAfter s .encodePrecond)
    else if ∃ x ∈ ids, 255 < x.toNat then
      exec (.codecEncode 0x01#8 (0 :: BitVec.ofNat 64 ids.length :: ids)) s = .next (faultAfter s .valueRange)
    else ∃ frame : List Byte,
      exec (.codecEncode 0x01#8 (0 :: BitVec.ofNat 64 ids.length :: ids)) s = .next (okAfter s frame) ∧
      exec (.encode 0x01#8 (BitVec.ofNat 8 ids.length) (ids.map (BitVec.setWidth 8))) s
        = .next (okAfter s frame)) ∧
    ∀ n : Word64, n.toNat ≠ ids.length →
      exec (.codecEncode 0x01#8 (0 :: n :: ids)) s = .next (faultAfter s .badOperand)

/-- The checks of CODEC_ENCODE in their order, for every layout of a well-formed table (43_codec.md R215): the layout,
the variant index, the number of values, the count of a variant without tail, the payload length. What passes them
is refused with VALUE_RANGE exactly when a scalar slot is outside the range of its type, a bit-field value does not
fit its width, or the slot of the count field differs from the tail count (R182, R192, R215); otherwise CODEC_ENCODE
completes with the frame that ENCODE builds. A value list too short to hold the variant index or the tail count has
the wrong length (log entry 12); the value of the count field is that of its slot (log entry 19). -/
def Obligations.EncodeErrorsFollowTheOrderOfChecks : Prop :=
  ∀ (s : State) (k : Byte) (L : Layout) (v : List Word64), s.cfg.wf = true → s.cfg.layout k = some L →
    if L.encodable = false ∨ v = [] then exec (.codecEncode k v) s = .next (faultAfter s .badOperand)
    else ∀ (vi : Word64) (vals : List Word64), v = vi :: vals →
      if L.variants.length ≤ vi.toNat then exec (.codecEncode k v) s = .next (faultAfter s .badOperand)
      else ∀ V : Variant, L.variants[vi.toNat]? = some V →
        if vals.length ≤ fieldValues V.fields + V.bitfields.length then
          exec (.codecEncode k v) s = .next (faultAfter s .badOperand)
        else ∀ cnt : Word64, vals[fieldValues V.fields + V.bitfields.length]? = some cnt →
          if vals.length ≠ fieldValues V.fields + V.bitfields.length + 1 + cnt.toNat * fieldValues V.tail.fields then
            exec (.codecEncode k v) s = .next (faultAfter s .badOperand)
          else if V.tail = .none ∧ cnt ≠ 0 then exec (.codecEncode k v) s = .next (faultAfter s .valueRange)
          else if 255 < V.head + cnt.toNat * V.tail.size then
            exec (.codecEncode k v) s = .next (faultAfter s .encodePrecond)
          else
            (¬ ValuesFit V cnt.toNat vals → exec (.codecEncode k v) s = .next (faultAfter s .valueRange)) ∧
            (ValuesFit V cnt.toNat vals → ∃ (b0 lo hi : Byte) (p : List Byte),
              p.length = V.head + cnt.toNat * V.tail.size ∧
              exec (.codecEncode k v) s
                = .next (okAfter s (b0 :: L.pid :: BitVec.ofNat 8 p.length :: lo :: hi :: p)) ∧
              exec (.encode L.pid (BitVec.ofNat 8 p.length) p) s
                = .next (okAfter s (b0 :: L.pid :: BitVec.ofNat 8 p.length :: lo :: hi :: p)))

/-- What stands in the payload that CODEC_ENCODE builds, for every layout of a well-formed table (43_codec.md R182,
R184, R215, R216). Every value fits its place, so none is truncated: each scalar slot is in the range of its type,
signed slots as two's complement (R75), each bit-field value fits its width, and the slot of the count field of a
`CNT` tail is the tail count (log entry 19). At each field's place stand the low bytes of its value; in a host field
its bit-fields' values, and the host's own bits elsewhere; the elements likewise; 0 in every byte that no field
covers. -/
def Obligations.EncodedPayloadHoldsTheValues : Prop :=
  ∀ (s : State) (k : Byte) (L : Layout) (V : Variant) (vi cnt : Word64) (vals : List Word64)
    (b0 id len lo hi : Byte) (p : List Byte),
    s.cfg.wf = true → s.cfg.layout k = some L → L.variants[vi.toNat]? = some V →
    vals[fieldValues V.fields + V.bitfields.length]? = some cnt →
    exec (.codecEncode k (vi :: vals)) s = .next (okAfter s (b0 :: id :: len :: lo :: hi :: p)) →
    id = L.pid ∧ p.length = V.head + cnt.toNat * V.tail.size ∧ ValuesFit V cnt.toNat vals ∧
    GapsZero V cnt.toNat p ∧
    (∀ pre f post j x, V.fields = pre ++ f :: post → j < f.count → (∀ b ∈ V.bitfields, b.host ≠ f.name) →
      vals[fieldValues pre + j]? = some x →
      (p.drop (f.off + j * f.ty.width)).take f.ty.width = (leBytes 8 x.toNat).take f.ty.width) ∧
    (∀ pre f post x i, V.fields = pre ++ f :: post → (∃ b ∈ V.bitfields, b.host = f.name) →
      vals[fieldValues pre]? = some x → i < 8 * f.ty.width →
      (∀ b ∈ V.bitfields, b.host = f.name → i < b.shift ∨ b.shift + b.width ≤ i) →
      (le ((p.drop f.off).take f.ty.width)).testBit i = x.toNat.testBit i) ∧
    (∀ pre b post f y, V.bitfields = pre ++ b :: post → findField V.fields b.host = some f →
      vals[fieldValues V.fields + pre.length]? = some y →
      le ((p.drop f.off).take f.ty.width) / 2 ^ b.shift % 2 ^ b.width = y.toNat) ∧
    ∀ e pre g post j x, e < cnt.toNat → V.tail.fields = pre ++ g :: post → j < g.count →
      vals[fieldValues V.fields + V.bitfields.length + 1 + e * fieldValues V.tail.fields + fieldValues pre + j]?
        = some x →
      (p.drop (V.head + e * V.tail.size + g.off + j * g.ty.width)).take g.ty.width
        = (leBytes 8 x.toNat).take g.ty.width

/-- Codec round trip: for any encodable layout of a well-formed table, the values that CODEC_DECODE answers for a
payload whose gap bytes are zero and whose tail holds exactly the counted elements are encoded by CODEC_ENCODE to
the frame of that payload (43_codec.md R216, R217, which the spec marks as its own derivation). -/
def Obligations.CodecEncodeInvertsDecode : Prop :=
  ∀ (s : State) (k : Byte) (L : Layout) (V : Variant) (h : Header) (p : List Byte) (v : List Word64) (cnt : Word64),
    s.cfg.wf = true → s.cfg.layout k = some L → L.encodable = true → V ∈ L.variants →
    V.accepts p.length = true → p.length ≤ 255 →
    v[1 + fieldValues V.fields + V.bitfields.length]? = some cnt →
    p.length = V.head + cnt.toNat * V.tail.size → GapsZero V cnt.toNat p →
    exec (.codecDecode k h p) s = .next (okAfter s (leBytes 2 v.length ++ v.flatMap fun x => leBytes 8 x.toNat)) →
    exec (.codecEncode k v) s = exec (.encode L.pid (BitVec.ofNat 8 p.length) p) s

/-- R214: the codec commands, and the other commands without effect on the state, read and write no decoder
register: the response is a function of the command and the parameters, and only `fault` can change. -/
def Obligations.PureCommandsNeverTouchTheDecoder : Prop :=
  ∀ (i : Instr) (P : Config), pureCommand i = true → ∃ r : Response, ∀ s : State, s.cfg = P →
    exec i s = .next
      { s with
        fault := (match r.status with
          | .fault c => if s.fault = 0#8 then c.code else s.fault
          | _ => s.fault)
        rsp := s.rsp ++ [r] }

/-! ## Faults and responses -/

/-- A fault is precise: the state after a faulting command is the state before it, except for `fault`, which records
the first code, and the response is the code alone (60_exceptions.md R244). So for every command, and for every step;
that a step also takes exactly the bytes of the command off the port is the model's reading (log entry 18). -/
def Obligations.FaultsArePrecise : Prop :=
  (∀ (i : Instr) (s t : State) (c : FaultCode) (data : List Byte),
    exec i s = .next t → t.rsp = s.rsp ++ [⟨.fault c, data⟩] →
    data = [] ∧ t = { s with
      fault := if s.fault = 0#8 then c.code else s.fault
      rsp := s.rsp ++ [⟨.fault c, []⟩] }) ∧
  ∀ (s t : State) (c : FaultCode) (data : List Byte),
    step s = .next t → t.rsp = s.rsp ++ [⟨.fault c, data⟩] →
    data = [] ∧ ∃ taken rest : List Byte, s.cmd = taken ++ rest ∧ taken.length = commandLength s.cmd ∧
      t = { s with
        cmd := rest
        fault := if s.fault = 0#8 then c.code else s.fault
        rsp := s.rsp ++ [⟨.fault c, []⟩] }

/-- R245: after a fault the next command runs normally, whatever `fault` holds, and `fault` keeps the first code
until RESET. READ_STATUS, whose answer holds `fault` itself, writes no register at all. -/
def Obligations.FirstFaultStaysAndBlocksNothing : Prop :=
  (∀ s t : State, step s = .next t → s.fault ≠ 0#8 →
    t.fault = s.fault ∨ ∃ rest, decode s.cmd = .command .reset rest) ∧
  (∀ (i : Instr) (s t : State) (f : Byte), i ≠ .readStatus → exec i s = .next t →
    ∃ u, exec i { s with fault := f } = .next u ∧ { u with fault := t.fault } = t) ∧
  ∀ s : State, ∃ data : List Byte, exec .readStatus s = .next (okAfter s data)

/-- The commands that never fault: their response is never a fault and `fault` keeps its value, but for RESET, which
clears it (60_exceptions.md R242, which the spec marks as its own derivation). -/
def Obligations.SomeCommandsNeverFault : Prop :=
  ∀ (i : Instr) (s : State),
    (match i with
      | .decode => True
      | .addData _ => s.cfg.bufCap = none
      | .readCrcErrors => True
      | .readStatus => True
      | .reset => True
      | .toBytes _ _ => True
      | .lrc _ _ _ _ => True
      | .crc16 _ => True
      | _ => False) →
    ∃ (t : State) (r : Response), exec i s = .next t ∧ t.rsp = s.rsp ++ [r] ∧ (∀ c, r.status ≠ .fault c) ∧
      (t.fault = s.fault ∨ i = .reset ∧ t.fault = 0#8)

/-- Every command completes with exactly one response, and changes neither the parameters nor the command port
(30_encoding.md R80, 10_state.md R32, 60_exceptions.md R240); and every step answers a next state. That a step with an
empty or partial command on the port answers one too, the state unchanged, is the model's reading (log entry 4). -/
def Obligations.EveryCommandAnswersOnce : Prop :=
  (∀ (i : Instr) (s : State), ∃ (t : State) (r : Response), exec i s = .next t ∧ t.rsp = s.rsp ++ [r] ∧
    t.cfg = s.cfg ∧ t.cmd = s.cmd) ∧
  ∀ s : State, ∃ t : State, step s = .next t ∧ t.cfg = s.cfg

/-- Which commands write which registers: the buffer and the cursor only ADD_DATA, DECODE and RESET; the counter and
the phase only DECODE and RESET (10_state.md R21 to R24). -/
def Obligations.OnlyDecoderCommandsWriteItsRegisters : Prop :=
  ∀ (i : Instr) (s t : State), exec i s = .next t → i ≠ .decode → i ≠ .reset →
    t.crcErrors = s.crcErrors ∧ t.phase = s.phase ∧
    ((∀ d, i ≠ .addData d) → t.buf = s.buf ∧ t.cur = s.cur ∧ ∀ a, readByte t.buf a = readByte s.buf a)

/-! ## Invariants -/

/-- Every step keeps the invariant of the block: the cursor inside the buffer, the buffer inside its capacity, the
counter inside its width, a legal fault code, a well-formed parameter record (10_state.md R21, R23, R25, R27). -/
def Obligations.EveryStepKeepsTheInvariant : Prop :=
  ∀ s t : State, s.Inv → step s = .next t → t.Inv

/-- The state after reset has the invariant, and so has the power-on state of every block that can be built. -/
def Obligations.ResetStateHasTheInvariant : Prop :=
  State.reset.Inv ∧ ∀ (P : Config) (s : State), State.build P = some s → s.Inv

/-- Compaction cannot be observed: a step takes two states that agree on the pending bytes, the other registers, the
ports and all parameters but the two thresholds to two such states again, with the same responses
(42_decoder.md R165, 00_scope.md R9, which the spec marks as its own derivations). -/
def Obligations.CompactionIsNotObservable : Prop :=
  ∀ s t s' t' : State, Indistinguishable s t → step s = .next s' → step t = .next t' → Indistinguishable s' t'
end

