-- ==== Sys2Proof/Laws/Bytes.lean ====
section
/-! SUPPORT. Byte order: what `le` and `leBytes` do (R11). -/

namespace Sys2Proof.Machine

@[simp] theorem le_nil : le [] = 0 := rfl

@[simp] theorem le_cons (b : Byte) (bs : List Byte) : le (b :: bs) = b.toNat + 256 * le bs := rfl

@[simp] theorem leBytes_zero (v : Nat) : leBytes 0 v = [] := rfl

theorem leBytes_succ (n v : Nat) : leBytes (n + 1) v = BitVec.ofNat 8 v :: leBytes n (v / 256) := rfl

@[simp] theorem leBytes_length (n v : Nat) : (leBytes n v).length = n := by
  induction n generalizing v with
  | zero => rfl
  | succ n ih => simp [leBytes_succ, ih]

/-- The value of a byte sequence fits its length. -/
theorem le_lt (bs : List Byte) : le bs < 256 ^ bs.length := by
  induction bs with
  | nil => simp
  | cons b bs ih =>
    have := b.isLt
    simp only [le_cons, List.length_cons, pow_succ]
    omega

/-- Reading back `n` bytes gives the value modulo `2^(8n)`. -/
theorem le_leBytes_mod (n v : Nat) : le (leBytes n v) = v % 256 ^ n := by
  induction n generalizing v with
  | zero => simp [Nat.mod_one]
  | succ n ih =>
    rw [leBytes_succ, le_cons, ih, BitVec.toNat_ofNat, pow_succ' 256, Nat.mod_mul]

theorem le_leBytes {n v : Nat} (h : v < 256 ^ n) : le (leBytes n v) = v := by
  rw [le_leBytes_mod, Nat.mod_eq_of_lt h]

/-- The bytes of a value are determined by it modulo `2^(8n)`. -/
theorem leBytes_mod (n v : Nat) : leBytes n (v % 256 ^ n) = leBytes n v := by
  induction n generalizing v with
  | zero => rfl
  | succ n ih =>
    rw [leBytes_succ, leBytes_succ, ← ih (v / 256)]
    congr 1
    · apply BitVec.eq_of_toNat_eq
      simp only [BitVec.toNat_ofNat]
      exact Nat.mod_mod_of_dvd v (Dvd.intro_left (256 ^ n) (pow_succ 256 n).symm)
    · rw [pow_succ' 256, Nat.mod_mul_right_div_self]

/-- A byte sequence is the bytes of its value. -/
theorem leBytes_le (bs : List Byte) : leBytes bs.length (le bs) = bs := by
  induction bs with
  | nil => rfl
  | cons b bs ih =>
    have hb := b.isLt
    rw [le_cons, List.length_cons, leBytes_succ]
    congr 1
    · apply BitVec.eq_of_toNat_eq
      simp only [BitVec.toNat_ofNat]
      omega
    · rw [show (b.toNat + 256 * le bs) / 256 = le bs by omega, ih]

theorem le_append (as bs : List Byte) : le (as ++ bs) = le as + 256 ^ as.length * le bs := by
  induction as with
  | nil => simp
  | cons a as ih => simp [ih, pow_succ]; ring

/-- Two byte sequences of one length with one value are equal. -/
theorem le_injective {as bs : List Byte} (hl : as.length = bs.length) (h : le as = le bs) : as = bs := by
  rw [← leBytes_le as, ← leBytes_le bs, hl, h]

/-- The low `n` bytes first, then the bytes of what is left. -/
theorem leBytes_append (n m v : Nat) : leBytes (n + m) v = leBytes n v ++ leBytes m (v / 256 ^ n) := by
  induction n generalizing v with
  | zero => simp
  | succ n ih =>
    rw [show n + 1 + m = (n + m) + 1 by omega, leBytes_succ, leBytes_succ, ih, List.cons_append,
      Nat.div_div_eq_div_mul, ← pow_succ']

theorem leBytes_replicate_zero (n : Nat) : leBytes n 0 = List.replicate n 0#8 := by
  induction n with
  | zero => rfl
  | succ n ih =>
    rw [leBytes_succ, List.replicate_succ]
    simp [ih]

theorem leBytes_replicate_ff (n : Nat) : leBytes n (256 ^ n - 1) = List.replicate n 0xFF#8 := by
  induction n with
  | zero => rfl
  | succ n ih =>
    rw [leBytes_succ, List.replicate_succ]
    have : 1 ≤ 256 ^ n := Nat.one_le_pow _ _ (by norm_num)
    have h1 : (256 ^ (n + 1) - 1) / 256 = 256 ^ n - 1 := by
      rw [pow_succ]
      omega
    rw [h1, ih]
    congr 1
    apply BitVec.eq_of_toNat_eq
    simp only [BitVec.toNat_ofNat]
    rw [pow_succ]
    omega

/-- The top bit of the last byte says whether the value is in the upper half of its range. -/
theorem getLastD_msb (bs : List Byte) :
    (bs.getLastD 0#8).msb = decide (2 ^ (8 * bs.length - 1) ≤ le bs ∧ bs ≠ []) := by
  induction bs with
  | nil => rfl
  | cons b bs ih =>
    cases bs with
    | nil => simp [BitVec.msb_eq_decide]
    | cons c bs =>
      rw [List.getLastD_cons, show (c :: bs).getLastD b = (c :: bs).getLastD 0#8 by
        rw [List.getLastD_cons, List.getLastD_cons], ih]
      have hb := b.isLt
      simp only [ne_eq, reduceCtorEq, not_false_eq_true, and_true, decide_eq_decide]
      rw [le_cons b (c :: bs)]
      have : 2 ^ (8 * (b :: c :: bs).length - 1) = 256 * 2 ^ (8 * (c :: bs).length - 1) := by
        rw [show (256 : Nat) = 2 ^ 8 by rfl, ← pow_add]
        congr 1
        simp
        omega
      rw [this]
      constructor <;> intro h <;> omega

theorem byteAt_cons_zero (b : Byte) (bs : List Byte) : byteAt (b :: bs) 0 = b.toNat := rfl

theorem byteAt_cons_succ (b : Byte) (bs : List Byte) (i : Nat) : byteAt (b :: bs) (i + 1) = byteAt bs i := rfl

theorem byteAt_nil (i : Nat) : byteAt [] i = 0 := rfl

end Sys2Proof.Machine
end

