-- ==== Sys2Proof/Laws/State.lean ====
section
/-! SUPPORT. One lemma per field per update of State, so that no later proof unfolds a record update. -/

namespace Sys2Proof.Machine

variable (s : State)

/-! ## compact: compact() -/

@[simp] theorem State.compact_cfg : (s.compact).cfg = s.cfg := rfl
@[simp] theorem State.compact_buf : (s.compact).buf = s.buf.drop s.cur := rfl
@[simp] theorem State.compact_cur : (s.compact).cur = 0 := rfl
@[simp] theorem State.compact_crcErrors : (s.compact).crcErrors = s.crcErrors := rfl
@[simp] theorem State.compact_phase : (s.compact).phase = s.phase := rfl
@[simp] theorem State.compact_fault : (s.compact).fault = s.fault := rfl
@[simp] theorem State.compact_cmd : (s.compact).cmd = s.cmd := rfl
@[simp] theorem State.compact_rsp : (s.compact).rsp = s.rsp := rfl

/-! ## append: appending data -/

@[simp] theorem State.append_cfg (d : List Byte) : (s.append d).cfg = s.cfg := rfl
@[simp] theorem State.append_buf (d : List Byte) : (s.append d).buf = s.buf ++ d := rfl
@[simp] theorem State.append_cur (d : List Byte) : (s.append d).cur = s.cur := rfl
@[simp] theorem State.append_crcErrors (d : List Byte) : (s.append d).crcErrors = s.crcErrors := rfl
@[simp] theorem State.append_phase (d : List Byte) : (s.append d).phase = s.phase := rfl
@[simp] theorem State.append_fault (d : List Byte) : (s.append d).fault = s.fault := rfl
@[simp] theorem State.append_cmd (d : List Byte) : (s.append d).cmd = s.cmd := rfl
@[simp] theorem State.append_rsp (d : List Byte) : (s.append d).rsp = s.rsp := rfl

/-! ## hostSend: bytes arriving on the command port -/

@[simp] theorem State.hostSend_cfg (bs : List Byte) : (s.hostSend bs).cfg = s.cfg := rfl
@[simp] theorem State.hostSend_buf (bs : List Byte) : (s.hostSend bs).buf = s.buf := rfl
@[simp] theorem State.hostSend_cur (bs : List Byte) : (s.hostSend bs).cur = s.cur := rfl
@[simp] theorem State.hostSend_crcErrors (bs : List Byte) : (s.hostSend bs).crcErrors = s.crcErrors := rfl
@[simp] theorem State.hostSend_phase (bs : List Byte) : (s.hostSend bs).phase = s.phase := rfl
@[simp] theorem State.hostSend_fault (bs : List Byte) : (s.hostSend bs).fault = s.fault := rfl
@[simp] theorem State.hostSend_cmd (bs : List Byte) : (s.hostSend bs).cmd = s.cmd ++ bs := rfl
@[simp] theorem State.hostSend_rsp (bs : List Byte) : (s.hostSend bs).rsp = s.rsp := rfl

/-! ## withCmd: consuming a command -/

@[simp] theorem State.withCmd_cfg (rest : List Byte) : (s.withCmd rest).cfg = s.cfg := rfl
@[simp] theorem State.withCmd_buf (rest : List Byte) : (s.withCmd rest).buf = s.buf := rfl
@[simp] theorem State.withCmd_cur (rest : List Byte) : (s.withCmd rest).cur = s.cur := rfl
@[simp] theorem State.withCmd_crcErrors (rest : List Byte) : (s.withCmd rest).crcErrors = s.crcErrors := rfl
@[simp] theorem State.withCmd_phase (rest : List Byte) : (s.withCmd rest).phase = s.phase := rfl
@[simp] theorem State.withCmd_fault (rest : List Byte) : (s.withCmd rest).fault = s.fault := rfl
@[simp] theorem State.withCmd_cmd (rest : List Byte) : (s.withCmd rest).cmd = rest := rfl
@[simp] theorem State.withCmd_rsp (rest : List Byte) : (s.withCmd rest).rsp = s.rsp := rfl

/-! ## respond: answering -/

@[simp] theorem State.respond_cfg (st : Status) (data : List Byte) : (s.respond st data).cfg = s.cfg := rfl
@[simp] theorem State.respond_buf (st : Status) (data : List Byte) : (s.respond st data).buf = s.buf := rfl
@[simp] theorem State.respond_cur (st : Status) (data : List Byte) : (s.respond st data).cur = s.cur := rfl
@[simp] theorem State.respond_crcErrors (st : Status) (data : List Byte) : (s.respond st data).crcErrors = s.crcErrors := rfl
@[simp] theorem State.respond_phase (st : Status) (data : List Byte) : (s.respond st data).phase = s.phase := rfl
@[simp] theorem State.respond_fault (st : Status) (data : List Byte) : (s.respond st data).fault = s.fault := rfl
@[simp] theorem State.respond_cmd (st : Status) (data : List Byte) : (s.respond st data).cmd = s.cmd := rfl
@[simp] theorem State.respond_rsp (st : Status) (data : List Byte) : (s.respond st data).rsp = s.rsp ++ [⟨st, data⟩] := rfl

/-! ## raise: faulting -/

@[simp] theorem State.raise_cfg (c : FaultCode) : (s.raise c).cfg = s.cfg := rfl
@[simp] theorem State.raise_buf (c : FaultCode) : (s.raise c).buf = s.buf := rfl
@[simp] theorem State.raise_cur (c : FaultCode) : (s.raise c).cur = s.cur := rfl
@[simp] theorem State.raise_crcErrors (c : FaultCode) : (s.raise c).crcErrors = s.crcErrors := rfl
@[simp] theorem State.raise_phase (c : FaultCode) : (s.raise c).phase = s.phase := rfl
@[simp] theorem State.raise_fault (c : FaultCode) : (s.raise c).fault = stickyFault s.fault c := rfl
@[simp] theorem State.raise_cmd (c : FaultCode) : (s.raise c).cmd = s.cmd := rfl
@[simp] theorem State.raise_rsp (c : FaultCode) : (s.raise c).rsp = s.rsp ++ [⟨.fault c, []⟩] := rfl

/-! ## illegal: an unassigned opcode -/

@[simp] theorem State.illegal_cfg (rest : List Byte) : (s.illegal rest).cfg = s.cfg := rfl
@[simp] theorem State.illegal_buf (rest : List Byte) : (s.illegal rest).buf = s.buf := rfl
@[simp] theorem State.illegal_cur (rest : List Byte) : (s.illegal rest).cur = s.cur := rfl
@[simp] theorem State.illegal_crcErrors (rest : List Byte) : (s.illegal rest).crcErrors = s.crcErrors := rfl
@[simp] theorem State.illegal_phase (rest : List Byte) : (s.illegal rest).phase = s.phase := rfl
@[simp] theorem State.illegal_fault (rest : List Byte) : (s.illegal rest).fault = stickyFault s.fault .illegalCmd := rfl
@[simp] theorem State.illegal_cmd (rest : List Byte) : (s.illegal rest).cmd = rest := rfl
@[simp] theorem State.illegal_rsp (rest : List Byte) : (s.illegal rest).rsp = s.rsp ++ [⟨.fault .illegalCmd, []⟩] := rfl

/-! ## scanned: the scanning loop -/

@[simp] theorem State.scanned_cfg (r : ScanResult) : (s.scanned r).cfg = s.cfg := rfl
@[simp] theorem State.scanned_buf (r : ScanResult) : (s.scanned r).buf = s.buf := rfl
@[simp] theorem State.scanned_cur (r : ScanResult) : (s.scanned r).cur = r.cur := rfl
@[simp] theorem State.scanned_crcErrors (r : ScanResult) : (s.scanned r).crcErrors = r.crcErrors := rfl
@[simp] theorem State.scanned_phase (r : ScanResult) : (s.scanned r).phase = r.outcome.phase := rfl
@[simp] theorem State.scanned_fault (r : ScanResult) : (s.scanned r).fault = s.fault := rfl
@[simp] theorem State.scanned_cmd (r : ScanResult) : (s.scanned r).cmd = s.cmd := rfl
@[simp] theorem State.scanned_rsp (r : ScanResult) : (s.scanned r).rsp = s.rsp := rfl

/-! ## resetRegs: RESET -/

@[simp] theorem State.resetRegs_cfg : (s.resetRegs).cfg = s.cfg := rfl
@[simp] theorem State.resetRegs_buf : (s.resetRegs).buf = [] := rfl
@[simp] theorem State.resetRegs_cur : (s.resetRegs).cur = 0 := rfl
@[simp] theorem State.resetRegs_crcErrors : (s.resetRegs).crcErrors = 0 := rfl
@[simp] theorem State.resetRegs_phase : (s.resetRegs).phase = .scanning := rfl
@[simp] theorem State.resetRegs_fault : (s.resetRegs).fault = 0#8 := rfl
@[simp] theorem State.resetRegs_cmd : (s.resetRegs).cmd = s.cmd := rfl
@[simp] theorem State.resetRegs_rsp : (s.resetRegs).rsp = s.rsp := rfl

/-! ## withFetchWord: placing a table word -/

@[simp] theorem State.withFetchWord_cfg (nbits w : Nat) : (s.withFetchWord nbits w).cfg = s.cfg := rfl
@[simp] theorem State.withFetchWord_buf (nbits w : Nat) : (s.withFetchWord nbits w).buf = s.buf := rfl
@[simp] theorem State.withFetchWord_cur (nbits w : Nat) : (s.withFetchWord nbits w).cur = s.cur := rfl
@[simp] theorem State.withFetchWord_crcErrors (nbits w : Nat) : (s.withFetchWord nbits w).crcErrors = s.crcErrors := rfl
@[simp] theorem State.withFetchWord_phase (nbits w : Nat) : (s.withFetchWord nbits w).phase = s.phase := rfl
@[simp] theorem State.withFetchWord_fault (nbits w : Nat) : (s.withFetchWord nbits w).fault = s.fault := rfl
@[simp] theorem State.withFetchWord_cmd (nbits w : Nat) : (s.withFetchWord nbits w).cmd = tableWordBytes nbits w := rfl
@[simp] theorem State.withFetchWord_rsp (nbits w : Nat) : (s.withFetchWord nbits w).rsp = s.rsp := rfl

/-! ## Power-on -/

@[simp] theorem State.powerOn_cfg (P : Config) : (State.powerOn P).cfg = P := rfl
@[simp] theorem State.powerOn_buf (P : Config) : (State.powerOn P).buf = [] := rfl
@[simp] theorem State.powerOn_cur (P : Config) : (State.powerOn P).cur = 0 := rfl
@[simp] theorem State.powerOn_crcErrors (P : Config) : (State.powerOn P).crcErrors = 0 := rfl
@[simp] theorem State.powerOn_phase (P : Config) : (State.powerOn P).phase = .scanning := rfl
@[simp] theorem State.powerOn_fault (P : Config) : (State.powerOn P).fault = 0#8 := rfl
@[simp] theorem State.powerOn_cmd (P : Config) : (State.powerOn P).cmd = [] := rfl
@[simp] theorem State.powerOn_rsp (P : Config) : (State.powerOn P).rsp = [] := rfl

/-! ## The states claims speak of -/

theorem respond_ok (data : List Byte) : s.respond .ok data = okAfter s data := rfl

theorem raise_eq_faultAfter (c : FaultCode) : s.raise c = faultAfter s c := rfl

@[simp] theorem okAfter_cfg (data : List Byte) : (okAfter s data).cfg = s.cfg := rfl
@[simp] theorem okAfter_buf (data : List Byte) : (okAfter s data).buf = s.buf := rfl
@[simp] theorem okAfter_cur (data : List Byte) : (okAfter s data).cur = s.cur := rfl
@[simp] theorem okAfter_crcErrors (data : List Byte) : (okAfter s data).crcErrors = s.crcErrors := rfl
@[simp] theorem okAfter_phase (data : List Byte) : (okAfter s data).phase = s.phase := rfl
@[simp] theorem okAfter_fault (data : List Byte) : (okAfter s data).fault = s.fault := rfl
@[simp] theorem okAfter_cmd (data : List Byte) : (okAfter s data).cmd = s.cmd := rfl
@[simp] theorem okAfter_rsp (data : List Byte) : (okAfter s data).rsp = s.rsp ++ [⟨.ok, data⟩] := rfl
@[simp] theorem faultAfter_cfg (c : FaultCode) : (faultAfter s c).cfg = s.cfg := rfl
@[simp] theorem faultAfter_buf (c : FaultCode) : (faultAfter s c).buf = s.buf := rfl
@[simp] theorem faultAfter_cur (c : FaultCode) : (faultAfter s c).cur = s.cur := rfl
@[simp] theorem faultAfter_crcErrors (c : FaultCode) : (faultAfter s c).crcErrors = s.crcErrors := rfl
@[simp] theorem faultAfter_phase (c : FaultCode) : (faultAfter s c).phase = s.phase := rfl
@[simp] theorem faultAfter_fault (c : FaultCode) : (faultAfter s c).fault = if s.fault = 0#8 then c.code else s.fault := rfl
@[simp] theorem faultAfter_cmd (c : FaultCode) : (faultAfter s c).cmd = s.cmd := rfl
@[simp] theorem faultAfter_rsp (c : FaultCode) : (faultAfter s c).rsp = s.rsp ++ [⟨.fault c, []⟩] := rfl

end Sys2Proof.Machine
end

