-- ==== Sys2Proof/Laws/Ops.lean ====
section
/-! SUPPORT. What the shared operations over the buffer and the registers do: one lemma each. -/

namespace Sys2Proof.Machine

/-! ## The buffer -/

/-- `MemRead` answers the `n` bytes from `i`, and only inside the buffer (R12). -/
theorem memRead_eq_some {m : List Byte} {i n : Nat} {bs : List Byte} :
    memRead m i n = some bs ↔ i + n ≤ m.length ∧ bs = (m.drop i).take n := by
  unfold memRead
  split <;> simp_all [eq_comm]

theorem memRead_eq_none {m : List Byte} {i n : Nat} : memRead m i n = none ↔ m.length < i + n := by
  unfold memRead
  split <;> simp_all

theorem memRead_length {m : List Byte} {i n : Nat} {bs : List Byte} (h : memRead m i n = some bs) :
    bs.length = n := by
  obtain ⟨hle, rfl⟩ := memRead_eq_some.1 h
  simp only [List.length_take, List.length_drop]
  omega

/-- A read through the pending bytes (R28). -/
theorem memRead_drop (m : List Byte) (i j n : Nat) (h : i ≤ m.length) :
    memRead (m.drop i) j n = memRead m (i + j) n := by
  unfold memRead
  rw [List.length_drop, List.drop_drop]
  by_cases hc : i + j + n ≤ m.length
  · rw [if_pos hc, if_pos (by omega)]
  · rw [if_neg hc, if_neg (by omega)]

/-- The bytes of a memory after an append: the old ones where they were, the new ones behind them. -/
theorem readByte_append (m d : List Byte) (a : Nat) :
    readByte (m ++ d) a = if a < m.length then readByte m a else readByte d (a - m.length) := by
  unfold readByte
  split
  · exact List.getElem?_append_left (by assumption)
  · exact List.getElem?_append_right (by omega)

/-- The bytes of a memory after a drop: each `k` places lower. -/
theorem readByte_drop (m : List Byte) (k a : Nat) : readByte (m.drop k) a = readByte m (k + a) := by
  simp [readByte]

/-! ## The canonical form of the memory (R40)

The buffer is a byte sequence; its cells are in canonical form whatever it holds, so every operation keeps the form. -/

theorem Memory.cells_addresses (m : List Byte) : (Memory.cells m).map (·.1) = List.range m.length := by
  rw [Memory.cells, List.map_map, List.range_eq_range']
  exact List.zipIdx_map_snd 0 m

theorem Memory.wf_cells (m : List Byte) : Memory.wf (Memory.cells m) = true := by
  rw [Memory.wf, decide_eq_true_iff, Memory.cells_addresses]
  exact List.pairwise_lt_range

/-- Equal cells are equal memories: the form is canonical. -/
theorem Memory.cells_injective {m n : List Byte} (h : Memory.cells m = Memory.cells n) : m = n := by
  have key : ∀ l : List Byte, (Memory.cells l).map (·.2) = l := by
    intro l
    rw [Memory.cells, List.map_map]
    exact List.zipIdx_map_fst 0 l
  rw [← key m, ← key n, h]

theorem Memory.wf_append (m d : List Byte) : Memory.wf (Memory.cells (m ++ d)) = true := Memory.wf_cells _

theorem Memory.wf_compact (s : State) : Memory.wf (Memory.cells s.compact.buf) = true := Memory.wf_cells _

theorem Memory.wf_reset : Memory.wf (Memory.cells State.reset.buf) = true := Memory.wf_cells _

/-! ## Pending bytes -/

theorem pend_eq (s : State) : s.pend = s.buf.drop s.cur := rfl

theorem pend_length (s : State) : s.pend.length = s.buf.length - s.cur := by simp [State.pend]

/-- Compaction leaves the pending bytes (R165). -/
@[simp] theorem compact_pend (s : State) : s.compact.pend = s.pend := by simp [State.pend]

@[simp] theorem respond_pend (s : State) (st : Status) (data : List Byte) :
    (s.respond st data).pend = s.pend := rfl

@[simp] theorem raise_pend (s : State) (c : FaultCode) : (s.raise c).pend = s.pend := rfl

@[simp] theorem withCmd_pend (s : State) (rest : List Byte) : (s.withCmd rest).pend = s.pend := rfl

/-- An append lengthens the pending bytes, where the cursor is inside the buffer (R27). -/
theorem append_pend {s : State} (d : List Byte) (h : s.cur ≤ s.buf.length) :
    (s.append d).pend = s.pend ++ d := by
  simp only [State.pend, State.append_buf, State.append_cur]
  exact List.drop_append_of_le_length h

/-! ## Answers -/

theorem respond_rsp_length (s : State) (st : Status) (data : List Byte) :
    (s.respond st data).rsp.length = s.rsp.length + 1 := by simp

/-- What a command without register writes can do: answer OK with its data, or fault. -/
theorem commitData_eq_next {s t : State} {r : Except FaultCode (List Byte)} (h : commitData s r = .next t) :
    (∃ data, r = .ok data ∧ t = okAfter s data) ∨ ∃ c, r = .error c ∧ t = faultAfter s c := by
  cases r with
  | ok data => left; cases h; exact ⟨data, rfl, rfl⟩
  | error c => right; cases h; exact ⟨c, rfl, rfl⟩

@[simp] theorem commitData_ok (s : State) (data : List Byte) : commitData s (.ok data) = .next (okAfter s data) := rfl

@[simp] theorem commitData_error (s : State) (c : FaultCode) :
    commitData s (.error c) = .next (faultAfter s c) := rfl

/-- What a command that writes registers can do: commit them, or fault and keep the old ones (R12, R244). -/
theorem commit_eq_next {s t : State} {r : Except FaultCode State} (h : commit s r = .next t) :
    r = .ok t ∨ ∃ c, r = .error c ∧ t = faultAfter s c := by
  cases r with
  | ok u => left; cases h; rfl
  | error c => right; cases h; exact ⟨c, rfl, rfl⟩

/-! ## The fault register -/

theorem FaultCode.code_ne_zero (c : FaultCode) : c.code ≠ 0#8 := by cases c <;> decide

theorem stickyFault_zero (c : FaultCode) : stickyFault 0#8 c = c.code := rfl

theorem stickyFault_of_ne {f : Byte} (h : f ≠ 0#8) (c : FaultCode) : stickyFault f c = f := if_neg h

/-- The codes of two statuses differ when the statuses do (R81). -/
theorem Status.code_injective {a b : Status} (h : a.code = b.code) : a = b := by
  cases a with
  | fault c => cases b with
    | fault d => cases c <;> cases d <;> first | rfl | exact absurd h (by decide)
    | _ => cases c <;> exact absurd h (by decide)
  | ok => cases b with
    | fault d => cases d <;> exact absurd h (by decide)
    | _ => first | rfl | exact absurd h (by decide)
  | none => cases b with
    | fault d => cases d <;> exact absurd h (by decide)
    | _ => first | rfl | exact absurd h (by decide)
  | frame => cases b with
    | fault d => cases d <;> exact absurd h (by decide)
    | _ => first | rfl | exact absurd h (by decide)
  | decodeError => cases b with
    | fault d => cases d <;> exact absurd h (by decide)
    | _ => first | rfl | exact absurd h (by decide)

end Sys2Proof.Machine
end

