-- ==== Sys2Proof/Laws/Checksums.lean ====
section
/-! SUPPORT. What the checksums and the frame container do. -/

namespace Sys2Proof.Machine

/-! ## LRC -/

/-- The LRC as a number: the negated sum modulo 256. -/
theorem lrc_toNat (b0 b1 b2 b3 : Byte) :
    (lrc b0 b1 b2 b3).toNat = (256 - (b0.toNat + b1.toNat + b2.toNat + b3.toNat) % 256) % 256 := by
  have hx : ∀ s : Nat, s < 1024 → ((s ^^^ 0xFF) + 1) % 256 = (256 - s % 256) % 256 := by decide +kernel
  have h0 := b0.isLt
  have h1 := b1.isLt
  have h2 := b2.isLt
  have h3 := b3.isLt
  rw [lrc, BitVec.toNat_ofNat]
  exact hx _ (by omega)

/-! ## CRC -/

@[simp] theorem crc16From_nil (c : Word16) : crc16From c [] = c := rfl

@[simp] theorem crc16From_cons (c : Word16) (b : Byte) (s : List Byte) :
    crc16From c (b :: s) = crc16From (crcByte c b) s := rfl

theorem crc16From_append (c : Word16) (a b : List Byte) :
    crc16From c (a ++ b) = crc16From (crc16From c a) b := List.foldl_append

@[simp] theorem crcLo_toNat (c : Word16) : (crcLo c).toNat = c.toNat % 256 := by simp [crcLo]

@[simp] theorem crcHi_toNat (c : Word16) : (crcHi c).toNat = c.toNat / 256 := by
  have := c.isLt
  simp only [crcHi, BitVec.toNat_setWidth, BitVec.toNat_ushiftRight, Nat.shiftRight_eq_div_pow]
  omega

/-- The two CRC bytes are the little-endian bytes of the CRC (R42, R64). -/
theorem leBytes_crc (c : Word16) : leBytes 2 c.toNat = [crcLo c, crcHi c] := by
  have := c.isLt
  have hlo : BitVec.ofNat 8 c.toNat = crcLo c := BitVec.eq_of_toNat_eq (by simp)
  have hhi : BitVec.ofNat 8 (c.toNat / 256) = crcHi c :=
    BitVec.eq_of_toNat_eq (by simp only [BitVec.toNat_ofNat, crcHi_toNat]; omega)
  rw [leBytes_succ, leBytes_succ, leBytes_zero, hlo, hhi]

/-- The CRC of a header as a number (R13, R64). -/
theorem headerCrc_toNat (h : Header) : (headerCrc h).toNat = h.crcLo.toNat + 256 * h.crcHi.toNat := by
  have hl := h.crcLo.isLt
  have hh := h.crcHi.isLt
  have hor : h.crcLo.toNat ||| (h.crcHi.toNat <<< 8) = h.crcLo.toNat + 256 * h.crcHi.toNat := by
    rw [Nat.or_comm, ← Nat.shiftLeft_add_eq_or_of_lt hl, Nat.shiftLeft_eq]
    ring
  simp only [headerCrc, BitVec.toNat_or, BitVec.toNat_shiftLeft, BitVec.toNat_setWidth]
  rw [Nat.mod_eq_of_lt (by omega : h.crcLo.toNat < 2 ^ 16), Nat.mod_eq_of_lt (by omega : h.crcHi.toNat < 2 ^ 16),
    Nat.mod_eq_of_lt (by rw [Nat.shiftLeft_eq]; omega : h.crcHi.toNat <<< 8 < 2 ^ 16), hor]

/-- A CRC equals a header's exactly when the numbers agree. -/
theorem crc_eq_headerCrc_iff (c : Word16) (h : Header) :
    c = headerCrc h ↔ c.toNat = h.crcLo.toNat + 256 * h.crcHi.toNat := by
  rw [← headerCrc_toNat]
  exact BitVec.toNat_inj.symm

/-! ## Frames -/

@[simp] theorem frameBytes_length (f : Frame) : (frameBytes f).length = 5 + f.payload.length := by
  simp [frameBytes, Header.toBytes]
  omega

/-- The frame ENCODE builds is well-formed when the payload has the announced length (R123). -/
theorem buildFrame_wf {id length : Byte} {p : List Byte} (h : p.length = length.toNat) :
    frameWf (buildFrame id length p) = true := by
  have hc : crc16 p = headerCrc (buildFrame id length p).header := by
    rw [crc_eq_headerCrc_iff]
    simp only [buildFrame, crcLo_toNat, crcHi_toNat]
    omega
  rw [frameWf, show (buildFrame id length p).payload = p from rfl, ← hc]
  simp [headerLrc, h, buildFrame]

/-- What the encoder can do: fault on a wrong length, or build the frame (R121). -/
theorem encodeFrame_eq (id length : Byte) (p : List Byte) :
    encodeFrame id length p =
      if p.length = length.toNat then .ok (frameBytes (buildFrame id length p)) else .error .encodePrecond := by
  unfold encodeFrame
  by_cases h : p.length = length.toNat <;> simp [h]

theorem countBytes_of_lt {m : Nat} (h : m < 65536) (free : Word16) : countBytes m free = leBytes 2 m := if_pos h

@[simp] theorem countBytes_length (m : Nat) (free : Word16) : (countBytes m free).length = 2 := by
  unfold countBytes
  split <;> simp

end Sys2Proof.Machine
end

