-- ==== Sys2Proof/Laws/Codec.lean ====
section
/-! SUPPORT. What the operand forms of the codec do: scalars, bit-fields, and the fields of a layout. -/

namespace Sys2Proof.Machine

/-! ## Scalars (R180 to R182) -/

theorem ScalarType.width_pos (ty : ScalarType) : 1 ≤ ty.width := by cases ty <;> decide

theorem ScalarType.width_le (ty : ScalarType) : ty.width ≤ 8 := by cases ty <;> decide

/-- `read_scalar` answers the value of the bytes at the offset, and only inside the data (R181). -/
theorem readScalar_eq_some {d : List Byte} {off : Nat} {ty : ScalarType} {x : Int} :
    readScalar d off ty = some x ↔
      off + ty.width ≤ d.length ∧ x = scalarValue ty (le ((d.drop off).take ty.width)) := by
  unfold readScalar
  split <;> simp_all [eq_comm]

theorem readScalar_eq_none {d : List Byte} {off : Nat} {ty : ScalarType} :
    readScalar d off ty = none ↔ d.length < off + ty.width := by
  unfold readScalar
  split <;> simp_all

/-- The little-endian value of the bytes of a scalar fits its width. -/
theorem le_take_lt (d : List Byte) (off w : Nat) : le ((d.drop off).take w) < 2 ^ (8 * w) := by
  have h := le_lt ((d.drop off).take w)
  have hw : 256 ^ ((d.drop off).take w).length ≤ 256 ^ w := Nat.pow_le_pow_right (by norm_num) (by simp)
  have : (256 : Nat) ^ w = 2 ^ (8 * w) := by rw [pow_mul]; norm_num
  omega

/-- The values of a type: those of its two's complement or of its unsigned number (R182). -/
theorem scalarFits_iff {ty : ScalarType} {v : Int} :
    scalarFits ty v = true ↔
      if ty.signed = true then -(2 ^ (8 * ty.width - 1)) ≤ v ∧ v < 2 ^ (8 * ty.width - 1)
      else 0 ≤ v ∧ v < 2 ^ (8 * ty.width) := by
  unfold scalarFits
  split <;> simp

/-- What `read_scalar` gives is a value `write_scalar` takes (R181, R182). -/
theorem scalarFits_scalarValue (ty : ScalarType) {u : Nat} (h : u < 2 ^ (8 * ty.width)) :
    scalarFits ty (scalarValue ty u) = true := by
  have hp : 2 ^ (8 * ty.width) = 2 * 2 ^ (8 * ty.width - 1) := by
    rw [← pow_succ', Nat.sub_add_cancel (by have := ScalarType.width_pos ty; omega)]
  have hq : (2 : Int) ^ (8 * ty.width) = 2 * 2 ^ (8 * ty.width - 1) := by exact_mod_cast hp
  have hu : (u : Int) < 2 ^ (8 * ty.width) := by exact_mod_cast h
  rw [scalarFits_iff, scalarValue]
  by_cases hs : ty.signed = true
  · by_cases hc : 2 ^ (8 * ty.width - 1) ≤ u
    · have hc' : (2 : Int) ^ (8 * ty.width - 1) ≤ u := by exact_mod_cast hc
      simp only [hs, hc, decide_true, Bool.and_true, if_true]
      omega
    · have hc' : (u : Int) < 2 ^ (8 * ty.width - 1) := by exact_mod_cast not_le.1 hc
      simp only [hs, hc, decide_false, Bool.and_false, if_true, Bool.false_eq_true, if_false]
      omega
  · simp only [hs, Bool.false_and, Bool.false_eq_true, if_false]
    omega

/-- A scalar's value is its bits modulo `2^(8n)` (R181). -/
theorem scalarValue_mod (ty : ScalarType) {u : Nat} (h : u < 2 ^ (8 * ty.width)) :
    scalarValue ty u % 2 ^ (8 * ty.width) = u := by
  cases ty <;> simp [scalarValue, ScalarType.signed, ScalarType.width] at h ⊢ <;> omega

/-- `write_scalar` inverts the value of a scalar (R181, R182). -/
theorem writeScalar_scalarValue (ty : ScalarType) {u : Nat} (h : u < 2 ^ (8 * ty.width)) :
    writeScalar (scalarValue ty u) ty = .ok (leBytes ty.width u) := by
  rw [writeScalar, if_pos (scalarFits_scalarValue ty h), scalarValue_mod ty h, Int.toNat_natCast]

/-- `write_scalar` of a value that fits answers as many bytes as the type has; of another one it faults (R182). -/
theorem writeScalar_eq_ok {v : Int} {ty : ScalarType} {bs : List Byte} (h : writeScalar v ty = .ok bs) :
    scalarFits ty v = true ∧ bs.length = ty.width := by
  unfold writeScalar at h
  split at h
  · cases h
    exact ⟨by assumption, leBytes_length _ _⟩
  · cases h

theorem writeScalar_eq_error {v : Int} {ty : ScalarType} {c : FaultCode} (h : writeScalar v ty = .error c) :
    scalarFits ty v = false ∧ c = .valueRange := by
  unfold writeScalar at h
  split at h
  · cases h
  · cases h
    exact ⟨by rwa [Bool.not_eq_true] at *, rfl⟩

/-- The word in which a scalar's value travels stands for that value again (R75, R212, R215). -/
theorem slotValue_ofInt (ty : ScalarType) {x : Int} (h : scalarFits ty x = true) :
    slotValue ty (BitVec.ofInt 64 x) = x := by
  rw [scalarFits_iff] at h
  unfold slotValue
  rw [BitVec.toInt_ofInt, BitVec.toNat_ofInt]
  cases ty <;> simp only [ScalarType.signed, ScalarType.width, if_true, Bool.false_eq_true, if_false] at h ⊢ <;>
    first
    | omega
    | (rw [Int.bmod_def]; split <;> omega)

/-- The bytes of a value are those of its 64-bit word (R212). -/
theorem valueBytes_eq (x : Int) : valueBytes x = leBytes 8 (BitVec.ofInt 64 x).toNat := by
  rw [valueBytes, BitVec.toNat_ofInt]
  rfl

@[simp] theorem valueBytes_length (x : Int) : (valueBytes x).length = 8 := by simp [valueBytes]

theorem valueBytes_natCast (n : Nat) : valueBytes (n : Int) = leBytes 8 n := by
  rw [valueBytes, ← leBytes_mod 8 n]
  congr 1

/-- A scalar that fits is its word, and its bytes in a response are the word's. -/
theorem valueBytes_injective {x y : Int} (h : valueBytes x = valueBytes y) :
    BitVec.ofInt 64 x = BitVec.ofInt 64 y := by
  rw [valueBytes_eq, valueBytes_eq] at h
  apply BitVec.eq_of_toNat_eq
  have := congrArg le h
  rwa [le_leBytes (n := 8) (BitVec.isLt _), le_leBytes (n := 8) (BitVec.isLt _)] at this

/-- The bytes of a scalar in a response are its own, sign- or zero-extended to 8 (R181, R185). -/
theorem valueBytes_scalarValue (ty : ScalarType) {bs : List Byte} (h : bs.length = ty.width) :
    valueBytes (scalarValue ty (le bs)) = extendBytes ty.signed bs := by
  have hw := ScalarType.width_le ty
  have hp := ScalarType.width_pos ty
  have hlt := le_lt bs
  rw [h] at hlt
  have hne : bs ≠ [] := by
    rintro rfl
    simp at h
    omega
  have hbs : leBytes ty.width (le bs) = bs := by rw [← h]; exact leBytes_le bs
  have e2 : (2 : Nat) ^ (8 * ty.width) = 256 ^ ty.width := by
    rw [pow_mul]
    norm_num
  have e3 : (256 : Nat) ^ 8 = 256 ^ (8 - ty.width) * 256 ^ ty.width := by
    rw [← pow_add]
    congr 1
    omega
  have hm : (256 ^ (8 - ty.width) - 1) * 256 ^ ty.width = 256 ^ 8 - 256 ^ ty.width := by
    rw [Nat.sub_mul, ← e3, one_mul]
  have hle : 256 ^ ty.width ≤ 256 ^ 8 := Nat.pow_le_pow_right (by norm_num) hw
  have key : ∀ u : Nat, leBytes 8 u = leBytes ty.width u ++ leBytes (8 - ty.width) (u / 256 ^ ty.width) := by
    intro u
    conv_lhs => rw [show 8 = ty.width + (8 - ty.width) by omega]
    exact leBytes_append _ _ _
  unfold extendBytes scalarValue
  rw [getLastD_msb, h]
  simp only [hne, ne_eq, not_false_eq_true, and_true]
  split
  · have hval : ((le bs : Int) - 2 ^ (8 * ty.width)) % 2 ^ 64
        = ((le bs + (256 ^ (8 - ty.width) - 1) * 256 ^ ty.width : Nat) : Int) := by
      have e2' : (2 : Int) ^ (8 * ty.width) = (256 ^ ty.width : Nat) := by exact_mod_cast e2
      rw [hm, show (2 : Int) ^ 64 = 256 ^ 8 by norm_num, e2', Int.emod_eq_add_self_emod, Int.emod_eq_of_lt] <;> omega
    rw [valueBytes, hval, Int.toNat_natCast, key]
    congr 1
    · rw [← leBytes_mod, Nat.add_mul_mod_self_right, leBytes_mod, hbs]
    · rw [Nat.add_mul_div_right _ _ (by positivity), Nat.div_eq_of_lt hlt, Nat.zero_add, leBytes_replicate_ff]
  · rw [valueBytes_natCast, key, hbs, Nat.div_eq_of_lt hlt, leBytes_replicate_zero]

/-! ## The values of a response (R80, R212) -/

theorem flatMap_valueBytes_length (xs : List Int) : (xs.flatMap valueBytes).length = 8 * xs.length := by
  induction xs with
  | nil => rfl
  | cons x xs ih =>
    simp [ih]
    omega

theorem flatMap_valueBytes_drop (xs : List Int) (i : Nat) :
    (xs.flatMap valueBytes).drop (8 * i) = (xs.drop i).flatMap valueBytes := by
  induction i generalizing xs with
  | zero => rfl
  | succ i ih =>
    cases xs with
    | nil => simp
    | cons x xs =>
      rw [List.flatMap_cons, List.drop_succ_cons, ← ih, Nat.mul_succ, Nat.add_comm, ← List.drop_drop,
        List.drop_left' (by simp)]

/-- The bytes of the value at index `i`. -/
theorem flatMap_valueBytes_at {xs : List Int} {i : Nat} {x : Int} (h : xs[i]? = some x) :
    ((xs.flatMap valueBytes).drop (8 * i)).take 8 = valueBytes x := by
  rw [flatMap_valueBytes_drop]
  obtain ⟨hl, rfl⟩ := List.getElem?_eq_some_iff.1 h
  rw [List.drop_eq_getElem_cons hl, List.flatMap_cons, List.take_left' (by simp)]

/-! ## Bit-fields (R190 to R195) -/

theorem extract_eq (x s k : Nat) : extract x s k = x / 2 ^ s % 2 ^ k := by
  rw [extract, Nat.shiftRight_eq_div_pow, Nat.and_two_pow_sub_one_eq_mod]

theorem extract_lt (x s k : Nat) : extract x s k < 2 ^ k := by
  rw [extract_eq]
  exact Nat.mod_lt _ (Nat.two_pow_pos k)

/-- Bit `j` of a bit-field is bit `s + j` of the word (R190). -/
theorem extract_testBit (x s k j : Nat) : (extract x s k).testBit j = (decide (j < k) && x.testBit (s + j)) := by
  rw [extract_eq, Nat.testBit_mod_two_pow, Nat.testBit_div_two_pow, Nat.add_comm]

theorem bitMask_testBit (s k j : Nat) : (bitMask s k).testBit j = (decide (s ≤ j) && decide (j < s + k)) := by
  rw [bitMask, Nat.testBit_shiftLeft, Nat.testBit_two_pow_sub_one]
  by_cases h : s ≤ j
  · simp only [ge_iff_le, h, decide_true, Bool.true_and]
    congr 1
    apply propext
    omega
  · simp [h]

/-- An item's contribution to the word has no bit outside its mask. -/
theorem shiftLeft_testBit_of_lt {v s k : Nat} (h : v < 2 ^ k) (j : Nat) :
    (v <<< s).testBit j = (decide (s ≤ j ∧ j < s + k) && v.testBit (j - s)) := by
  rw [Nat.testBit_shiftLeft]
  by_cases h1 : s ≤ j
  · by_cases h2 : j < s + k
    · simp [h1, h2]
    · have : v.testBit (j - s) = false :=
        Nat.testBit_lt_two_pow (lt_of_lt_of_le h (Nat.pow_le_pow_right (by norm_num) (by omega)))
      simp [this]
  · simp [h1]

/-- Two masks meet exactly where the fields overlap (R192). -/
theorem bitMask_and_eq_zero {s k s' k' : Nat} (hk : 1 ≤ k) (hk' : 1 ≤ k') :
    bitMask s k &&& bitMask s' k' = 0 ↔ s + k ≤ s' ∨ s' + k' ≤ s := by
  constructor
  · intro h
    by_contra hc
    have := congrArg (Nat.testBit · (max s s')) h
    simp [Nat.testBit_and, bitMask_testBit] at this
    omega
  · intro h
    apply Nat.eq_of_testBit_eq
    intro j
    simp only [Nat.testBit_and, bitMask_testBit, Nat.zero_testBit, Bool.and_eq_false_imp, Bool.and_eq_true,
      decide_eq_true_eq, decide_eq_false_iff_not]
    omega

/-- The items that `pack` accepts (R190, R192). -/
def BitItem.Ok (W : Nat) (i : BitItem) : Prop := 1 ≤ i.k ∧ i.s + i.k ≤ W ∧ i.v < 2 ^ i.k

/-- Two items share no bit. -/
def BitItem.Apart (i j : BitItem) : Prop := i.s + i.k ≤ j.s ∨ j.s + j.k ≤ i.s

theorem unionMask_testBit (is : List BitItem) (j : Nat) :
    (unionMask is).testBit j = is.any fun i => decide (i.s ≤ j) && decide (j < i.s + i.k) := by
  induction is with
  | nil => simp [unionMask]
  | cons i is ih => rw [unionMask, Nat.testBit_or, ih, bitMask_testBit, List.any_cons]

theorem and_unionMask_eq_zero {i : BitItem} {is : List BitItem} (hi : 1 ≤ i.k) (his : ∀ j ∈ is, 1 ≤ j.k) :
    unionMask is &&& bitMask i.s i.k = 0 ↔ ∀ j ∈ is, j.Apart i := by
  induction is with
  | nil => simp [unionMask]
  | cons j is ih =>
    rw [unionMask, Nat.and_or_distrib_right, Nat.or_eq_zero_iff, ih fun a ha => his a (by simp [ha]),
      bitMask_and_eq_zero (his j (by simp)) hi]
    simp [BitItem.Apart]

/-- The word that `pack` makes of legal items: the OR of each value at its shift (R192). -/
def packWord : List BitItem → Nat
  | [] => 0
  | i :: is => i.v <<< i.s ||| packWord is

theorem packWord_testBit (is : List BitItem) (j : Nat) :
    (packWord is).testBit j = is.any fun i => (i.v <<< i.s).testBit j := by
  induction is with
  | nil => simp [packWord]
  | cons i is ih => rw [packWord, Nat.testBit_or, ih, List.any_cons]

/-- The loop of `pack` on good items that meet none of the used bits: it goes on to the items after them (R192). -/
theorem packFrom_append {W : Nat} (good more : List BitItem) (x : Nat) (seen : List BitItem)
    (hs : ∀ i ∈ seen, 1 ≤ i.k) (hg : ∀ i ∈ good, i.Ok W) (ha : ∀ i ∈ seen, ∀ j ∈ good, i.Apart j)
    (hp : good.Pairwise BitItem.Apart) :
    packFrom W (good ++ more) x (unionMask seen)
      = packFrom W more (x ||| packWord good) (unionMask (good.reverse ++ seen)) := by
  induction good generalizing x seen with
  | nil => simp [packWord]
  | cons i good ih =>
    obtain ⟨h1, h2, h3⟩ := hg i (by simp)
    obtain ⟨hp1, hp2⟩ := List.pairwise_cons.1 hp
    have hm : unionMask seen &&& bitMask i.s i.k = 0 :=
      (and_unionMask_eq_zero h1 hs).2 fun j hj => ha j hj i (by simp)
    rw [List.cons_append, packFrom, if_neg (by simp [bitFieldLegal, h1, h2]), if_neg (by simp [hm]),
      if_neg (by omega), Nat.or_comm (unionMask seen)]
    have := ih (x ||| i.v <<< i.s) (i :: seen)
      (by simpa [h1] using hs) (fun j hj => hg j (by simp [hj]))
      (by
        intro a haa j hj
        rcases List.mem_cons.1 haa with rfl | haa
        · exact hp1 j hj
        · exact ha a haa j (by simp [hj]))
      hp2
    rw [unionMask] at this
    rw [this, packWord, Nat.or_assoc]
    simp

/-- `pack` of legal items that do not overlap (R192). -/
theorem pack_ok {W : Nat} {items : List BitItem} (hg : ∀ i ∈ items, i.Ok W) (hp : items.Pairwise BitItem.Apart) :
    pack W items = .ok (packWord items) := by
  have := packFrom_append items [] 0 [] (by simp) hg (by simp) hp
  simpa [pack, unionMask, packFrom] using this

/-- `pack` fails on the first bad item, by the first check that it fails (R192, R193). -/
theorem pack_bad {W : Nat} {good : List BitItem} (bad : BitItem) (more : List BitItem)
    (hg : ∀ i ∈ good, i.Ok W) (hp : good.Pairwise BitItem.Apart) :
    pack W (good ++ bad :: more) =
      packFrom W (bad :: more) (packWord good) (unionMask (good.reverse ++ [])) := by
  have := packFrom_append good (bad :: more) 0 [] (by simp) hg (by simp) hp
  simpa [pack, unionMask] using this

theorem pairwise_apart {items : List BitItem} (hp : items.Pairwise BitItem.Apart) {a b : BitItem}
    (ha : a ∈ items) (hb : b ∈ items) (hab : a ≠ b) : a.Apart b :=
  have : Std.Symm BitItem.Apart := ⟨fun _ _ h => h.symm⟩
  hp.forall ha hb hab

/-- Extraction inverts packing (R195, both halves below). -/
theorem extract_packWord {W : Nat} {items : List BitItem} (hg : ∀ i ∈ items, i.Ok W)
    (hp : items.Pairwise BitItem.Apart) {i : BitItem} (hi : i ∈ items) :
    extract (packWord items) i.s i.k = i.v := by
  apply Nat.eq_of_testBit_eq
  intro j
  rw [extract_testBit, packWord_testBit]
  by_cases hj : j < i.k
  · simp only [hj, decide_true, Bool.true_and]
    rw [Bool.eq_iff_iff, List.any_eq_true]
    constructor
    · rintro ⟨a, haa, hb⟩
      rw [shiftLeft_testBit_of_lt (hg a haa).2.2] at hb
      simp only [Bool.and_eq_true, decide_eq_true_eq] at hb
      by_cases hai : a = i
      · subst hai
        simpa using hb.2
      · have hap := pairwise_apart hp haa hi hai
        unfold BitItem.Apart at hap
        omega
    · intro hb
      exact ⟨i, hi, by rw [shiftLeft_testBit_of_lt (hg i hi).2.2]; simp [hj, hb]⟩
  · have : i.v.testBit j = false :=
      Nat.testBit_lt_two_pow (lt_of_lt_of_le (hg i hi).2.2 (Nat.pow_le_pow_right (by norm_num) (by omega)))
    simp [hj, this]

theorem packWord_lt {W : Nat} {items : List BitItem} (hg : ∀ i ∈ items, i.Ok W) : packWord items < 2 ^ W := by
  induction items with
  | nil => exact Nat.two_pow_pos W
  | cons i is ih =>
    obtain ⟨-, h2, h3⟩ := hg i (by simp)
    refine Nat.or_lt_two_pow ?_ (ih fun j hj => hg j (by simp [hj]))
    rw [Nat.shiftLeft_eq]
    calc i.v * 2 ^ i.s < 2 ^ i.k * 2 ^ i.s := Nat.mul_lt_mul_of_pos_right h3 (Nat.two_pow_pos _)
      _ = 2 ^ (i.s + i.k) := by rw [pow_add, Nat.mul_comm]
      _ ≤ 2 ^ W := Nat.pow_le_pow_right (by norm_num) h2

/-- OR is addition where no bit is set in both. -/
theorem or_eq_add_of_and_eq_zero {x y : Nat} (h : x &&& y = 0) : x ||| y = x + y := by
  have hlt : x + y < 2 ^ (x + y) := Nat.lt_two_pow_self
  have hb : BitVec.ofNat (x + y) x &&& BitVec.ofNat (x + y) y = 0#(x + y) := by
    rw [← BitVec.ofNat_and, h]
  have := congrArg BitVec.toNat (BitVec.add_eq_or_of_and_eq_zero _ _ hb)
  rw [← BitVec.ofNat_or, ← BitVec.ofNat_add, BitVec.toNat_ofNat, BitVec.toNat_ofNat, Nat.mod_eq_of_lt hlt,
    Nat.mod_eq_of_lt (Nat.or_lt_two_pow (by omega) (by omega))] at this
  exact this.symm

/-- The word of legal items is the sum of the values at their shifts (R192). -/
theorem packWord_eq_sum {W : Nat} {items : List BitItem} (hg : ∀ i ∈ items, i.Ok W)
    (hp : items.Pairwise BitItem.Apart) : packWord items = (items.map fun i => i.v * 2 ^ i.s).sum := by
  induction items with
  | nil => rfl
  | cons i is ih =>
    obtain ⟨ha, hb⟩ := List.pairwise_cons.1 hp
    rw [packWord, List.map_cons, List.sum_cons, ← ih (fun j hj => hg j (by simp [hj])) hb, ← Nat.shiftLeft_eq]
    apply or_eq_add_of_and_eq_zero
    apply Nat.eq_of_testBit_eq
    intro j
    rw [Nat.testBit_and, packWord_testBit, shiftLeft_testBit_of_lt (hg i (by simp)).2.2, Nat.zero_testBit,
      Bool.and_eq_false_imp]
    intro hij
    simp only [Bool.and_eq_true, decide_eq_true_eq] at hij
    rw [Bool.eq_false_iff, ne_eq, List.any_eq_true]
    rintro ⟨a, haa, hab⟩
    rw [shiftLeft_testBit_of_lt (hg a (by simp [haa])).2.2] at hab
    simp only [Bool.and_eq_true, decide_eq_true_eq] at hab
    have := ha a haa
    unfold BitItem.Apart at this
    omega

/-- A host's word: its own bits outside its bit-fields, theirs inside (R216). -/
theorem hostWord_ok {W value : Nat} {items : List BitItem} (hg : ∀ i ∈ items, i.Ok W)
    (hp : items.Pairwise BitItem.Apart) :
    hostWord W value items = .ok ((value &&& ((2 ^ W - 1) ^^^ unionMask items)) ||| packWord items) := by
  rw [hostWord, pack_ok hg hp]

/-- The masks of items of legal geometry lie inside the word. -/
theorem unionMask_lt {W : Nat} {items : List BitItem} (hg : ∀ i ∈ items, i.s + i.k ≤ W) :
    unionMask items < 2 ^ W := by
  apply Nat.lt_pow_two_of_testBit
  intro j hj
  rw [unionMask_testBit, List.any_eq_false]
  intro i hi
  have := hg i hi
  simp only [Bool.and_eq_true, decide_eq_true_eq]
  omega

/-- The word of a host fits the host, whatever the host's value (R216). -/
theorem hostWord_lt {W value x : Nat} {items : List BitItem} (hg : ∀ i ∈ items, i.Ok W)
    (hp : items.Pairwise BitItem.Apart) (h : hostWord W value items = .ok x) : x < 2 ^ W := by
  rw [hostWord_ok hg hp] at h
  cases h
  exact Nat.or_lt_two_pow
    (lt_of_le_of_lt Nat.and_le_right
      (Nat.xor_lt_two_pow (Nat.sub_lt (Nat.two_pow_pos W) Nat.one_pos) (unionMask_lt fun i hi => (hg i hi).2.1)))
    (packWord_lt hg)

/-- Packing the extracted fields of a word into it gives the word back (R195, second half; R216). -/
theorem hostWord_extract {W value : Nat} {items : List BitItem} (hv : value < 2 ^ W)
    (hg : ∀ i ∈ items, i.Ok W) (hp : items.Pairwise BitItem.Apart)
    (he : ∀ i ∈ items, i.v = extract value i.s i.k) : hostWord W value items = .ok value := by
  rw [hostWord_ok hg hp]
  congr 1
  apply Nat.eq_of_testBit_eq
  intro j
  rw [Nat.testBit_or, Nat.testBit_and, Nat.testBit_xor, Nat.testBit_two_pow_sub_one, unionMask_testBit,
    packWord_testBit]
  by_cases hW : j < W
  · by_cases hm : ∃ i ∈ items, i.s ≤ j ∧ j < i.s + i.k
    · have h1 : (items.any fun i => decide (i.s ≤ j) && decide (j < i.s + i.k)) = true := by
        simpa [List.any_eq_true] using hm
      rw [h1]
      simp only [hW, decide_true, Bool.xor_true, Bool.not_true, Bool.and_false, Bool.false_or]
      obtain ⟨i, hi, hij⟩ := hm
      rw [Bool.eq_iff_iff, List.any_eq_true]
      constructor
      · rintro ⟨a, ha, hb⟩
        rw [shiftLeft_testBit_of_lt (hg a ha).2.2, he a ha, extract_testBit] at hb
        simp only [Bool.and_eq_true, decide_eq_true_eq] at hb
        have : a.s + (j - a.s) = j := by omega
        rw [this] at hb
        exact hb.2.2
      · intro hb
        refine ⟨i, hi, ?_⟩
        rw [shiftLeft_testBit_of_lt (hg i hi).2.2, he i hi, extract_testBit, show i.s + (j - i.s) = j by omega]
        simp only [Bool.and_eq_true, decide_eq_true_eq]
        exact ⟨hij, by omega, hb⟩
    · have h1 : (items.any fun i => decide (i.s ≤ j) && decide (j < i.s + i.k)) = false := by
        rw [Bool.eq_false_iff, ne_eq, List.any_eq_true]
        simpa using hm
      have h2 : (items.any fun i => (i.v <<< i.s).testBit j) = false := by
        rw [Bool.eq_false_iff, ne_eq, List.any_eq_true]
        rintro ⟨a, ha, hb⟩
        rw [shiftLeft_testBit_of_lt (hg a ha).2.2] at hb
        simp only [Bool.and_eq_true, decide_eq_true_eq] at hb
        exact hm ⟨a, ha, hb.1⟩
      rw [h1, h2]
      simp [hW]
  · have hvj : value.testBit j = false :=
      Nat.testBit_lt_two_pow (lt_of_lt_of_le hv (Nat.pow_le_pow_right (by norm_num) (by omega)))
    have h2 : (items.any fun i => (i.v <<< i.s).testBit j) = false := by
      rw [← packWord_testBit]
      exact Nat.testBit_lt_two_pow (lt_of_lt_of_le (packWord_lt hg) (Nat.pow_le_pow_right (by norm_num) (by omega)))
    rw [h2]
    simp [hvj]

end Sys2Proof.Machine
end

