-- ==== Sys2Proof/Laws/Decode.lean ====
section
/-! SUPPORT. What the operand readers of the decoder do: each reads back what the encoder writes, and whatever it
reads is what the encoder would have written. -/

namespace Sys2Proof

open Sys2Proof.Machine

/-! ## Reading back -/

theorem takeBytes_append (d r : List Byte) : takeBytes d.length (d ++ r) = some (d, r) := by
  simp [takeBytes]

theorem takeBytes_append_of_length {n : Nat} {d : List Byte} (h : d.length = n) (r : List Byte) :
    takeBytes n (d ++ r) = some (d, r) := h ▸ takeBytes_append d r

theorem takeU16_leBytes {n : Nat} (h : n < 65536) (r : List Byte) : takeU16 (leBytes 2 n ++ r) = some (n, r) := by
  rw [takeU16, takeBytes_append_of_length (leBytes_length 2 n)]
  simp [le_leBytes (n := 2) h]

theorem takeU64_leBytes (v : Word64) (r : List Byte) : takeU64 (leBytes 8 v.toNat ++ r) = some (v, r) := by
  rw [takeU64, takeBytes_append_of_length (leBytes_length 8 _)]
  simp [le_leBytes (n := 8) v.isLt]

theorem takeData_encodeData {d : List Byte} (h : d.length < 65536) (r : List Byte) :
    takeData (encodeData d ++ r) = some (d, r) := by
  rw [takeData, encodeData, List.append_assoc, takeU16_leBytes h]
  exact takeBytes_append d r

theorem takeHeader_toBytes (h : Header) (r : List Byte) : takeHeader (h.toBytes ++ r) = some (h, r) := rfl

theorem takeValues_flatMap (v : List Word64) (r : List Byte) :
    takeValues v.length ((v.flatMap fun x => leBytes 8 x.toNat) ++ r) = some (v, r) := by
  induction v with
  | nil => rfl
  | cons x v ih =>
    rw [List.flatMap_cons, List.append_assoc, List.length_cons, takeValues, takeU64_leBytes]
    simp [ih]

theorem takeItem_encodeItem (i : PackItem) (r : List Byte) : takeItem (encodeItem i ++ r) = some (i, r) := by
  rw [encodeItem, List.append_assoc, takeItem, takeU64_leBytes]
  rfl

theorem takeItems_flatMap (is : List PackItem) (r : List Byte) :
    takeItems is.length (is.flatMap encodeItem ++ r) = some (is, r) := by
  induction is with
  | nil => rfl
  | cons i is ih =>
    rw [List.flatMap_cons, List.append_assoc, List.length_cons, takeItems, takeItem_encodeItem]
    simp [ih]

/-! ## What was read -/

theorem takeByte_eq_some {bs r : List Byte} {b : Byte} : takeByte bs = some (b, r) ↔ bs = b :: r := by
  cases bs <;> simp [takeByte]

theorem takeBytes_eq_some {n : Nat} {bs d r : List Byte} :
    takeBytes n bs = some (d, r) ↔ d.length = n ∧ bs = d ++ r := by
  constructor
  · intro h
    unfold takeBytes at h
    split at h
    · cases h
      exact ⟨by simpa using ‹n ≤ bs.length›, (List.take_append_drop n bs).symm⟩
    · cases h
  · rintro ⟨rfl, rfl⟩
    exact takeBytes_append d r

theorem takeBytes_eq_none {n : Nat} {bs : List Byte} : takeBytes n bs = none ↔ bs.length < n := by
  unfold takeBytes
  split <;> simp_all

theorem takeU16_eq_some {bs r : List Byte} {n : Nat} :
    takeU16 bs = some (n, r) ↔ n < 65536 ∧ bs = leBytes 2 n ++ r := by
  constructor
  · intro h
    obtain ⟨p, hp, he⟩ := Option.map_eq_some_iff.1 h
    obtain ⟨hl, rfl⟩ := takeBytes_eq_some.1 hp
    cases he
    refine ⟨?_, ?_⟩
    · have := le_lt p.1
      rw [hl] at this
      exact this
    · rw [← leBytes_le p.1, hl, le_leBytes (by have := le_lt p.1; rwa [hl] at this)]
  · rintro ⟨h, rfl⟩
    exact takeU16_leBytes h r

theorem takeU64_eq_some {bs r : List Byte} {v : Word64} :
    takeU64 bs = some (v, r) ↔ bs = leBytes 8 v.toNat ++ r := by
  constructor
  · intro h
    obtain ⟨p, hp, he⟩ := Option.map_eq_some_iff.1 h
    obtain ⟨hl, rfl⟩ := takeBytes_eq_some.1 hp
    cases he
    have hlt := le_lt p.1
    rw [hl] at hlt
    rw [BitVec.toNat_ofNat, Nat.mod_eq_of_lt (show le p.1 < 2 ^ 64 from hlt), ← hl, leBytes_le]
  · rintro rfl
    exact takeU64_leBytes v r

theorem takeData_eq_some {bs d r : List Byte} :
    takeData bs = some (d, r) ↔ d.length < 65536 ∧ bs = encodeData d ++ r := by
  constructor
  · intro h
    obtain ⟨p, hp, hd⟩ := Option.bind_eq_some_iff.1 h
    obtain ⟨hn, rfl⟩ := takeU16_eq_some.1 hp
    obtain ⟨hl, hr⟩ := takeBytes_eq_some.1 hd
    exact ⟨hl ▸ hn, by rw [encodeData, hr, hl, List.append_assoc]⟩
  · rintro ⟨h, rfl⟩
    exact takeData_encodeData h r

theorem takeHeader_eq_some {bs r : List Byte} {h : Header} :
    takeHeader bs = some (h, r) ↔ bs = h.toBytes ++ r := by
  constructor
  · intro he
    unfold takeHeader at he
    split at he
    · cases he; rfl
    · cases he
  · rintro rfl
    rfl

theorem takeValues_eq_some {m : Nat} {bs r : List Byte} {v : List Word64} :
    takeValues m bs = some (v, r) ↔ v.length = m ∧ bs = (v.flatMap fun x => leBytes 8 x.toNat) ++ r := by
  constructor
  · intro h
    induction m generalizing bs r v with
    | zero => cases h; exact ⟨rfl, rfl⟩
    | succ m ih =>
      obtain ⟨p, hp, hm⟩ := Option.bind_eq_some_iff.1 h
      obtain ⟨q, hq, he⟩ := Option.map_eq_some_iff.1 hm
      obtain ⟨hl, hr⟩ := ih hq
      cases he
      rw [takeU64_eq_some.1 hp]
      exact ⟨by simp [hl], by rw [hr, List.flatMap_cons, List.append_assoc]⟩
  · rintro ⟨rfl, rfl⟩
    exact takeValues_flatMap v r

theorem takeItem_eq_some {bs r : List Byte} {i : PackItem} : takeItem bs = some (i, r) ↔ bs = encodeItem i ++ r := by
  constructor
  · intro h
    obtain ⟨p, hp, h⟩ := Option.bind_eq_some_iff.1 h
    obtain ⟨q, hq, h⟩ := Option.bind_eq_some_iff.1 h
    obtain ⟨u, hu, he⟩ := Option.map_eq_some_iff.1 h
    cases he
    rw [takeU64_eq_some.1 hp, takeByte_eq_some.1 hq, takeByte_eq_some.1 hu, encodeItem, List.append_assoc]
    rfl
  · rintro rfl
    exact takeItem_encodeItem i r

theorem takeItems_eq_some {m : Nat} {bs r : List Byte} {is : List PackItem} :
    takeItems m bs = some (is, r) ↔ is.length = m ∧ bs = is.flatMap encodeItem ++ r := by
  constructor
  · intro h
    induction m generalizing bs r is with
    | zero => cases h; exact ⟨rfl, rfl⟩
    | succ m ih =>
      obtain ⟨p, hp, hm⟩ := Option.bind_eq_some_iff.1 h
      obtain ⟨q, hq, he⟩ := Option.map_eq_some_iff.1 hm
      obtain ⟨hl, hr⟩ := ih hq
      cases he
      rw [takeItem_eq_some.1 hp]
      exact ⟨by simp [hl], by rw [hr, List.flatMap_cons, List.append_assoc]⟩
  · rintro ⟨rfl, rfl⟩
    exact takeItems_flatMap is r

/-! ## When bytes are missing -/

theorem takeByte_eq_none {bs : List Byte} : takeByte bs = none ↔ bs.length < 1 := by
  cases bs <;> simp [takeByte]

theorem takeU16_eq_none {bs : List Byte} : takeU16 bs = none ↔ bs.length < 2 := by
  rw [takeU16, Option.map_eq_none_iff, takeBytes_eq_none]

theorem takeU64_eq_none {bs : List Byte} : takeU64 bs = none ↔ bs.length < 8 := by
  rw [takeU64, Option.map_eq_none_iff, takeBytes_eq_none]

theorem takeHeader_eq_none {bs : List Byte} : takeHeader bs = none ↔ bs.length < 5 := by
  match bs with
  | [] | [_] | [_, _] | [_, _, _] | [_, _, _, _] => simp [takeHeader]
  | _ :: _ :: _ :: _ :: _ :: _ => simp [takeHeader]

/-- The `u16` field that the reader reads is the one R72's length function looks at. -/
theorem takeU16_of_length {bs : List Byte} (h : 2 ≤ bs.length) : takeU16 bs = some (u16At bs 0, bs.drop 2) := by
  match bs, h with
  | a :: b :: r, _ => simp [takeU16, takeBytes, u16At, byteAt]

theorem takeData_eq_none {bs : List Byte} : takeData bs = none ↔ bs.length < 2 + u16At bs 0 := by
  by_cases h : 2 ≤ bs.length
  · rw [takeData, takeU16_of_length h, Option.bind_some, takeBytes_eq_none, List.length_drop]
    omega
  · rw [takeData, takeU16_eq_none.2 (by omega)]
    simp only [Option.bind_none, true_iff]
    omega

theorem takeValues_eq_none {m : Nat} {bs : List Byte} : takeValues m bs = none ↔ bs.length < 8 * m := by
  induction m generalizing bs with
  | zero => simp [takeValues]
  | succ m ih =>
    rw [takeValues, Option.bind_eq_none_iff]
    constructor
    · intro h
      by_contra hc
      cases hq : takeU64 bs with
      | none => have := takeU64_eq_none.1 hq; omega
      | some p =>
        have hn := h p hq
        rw [Option.map_eq_none_iff, ih] at hn
        have := congrArg List.length (takeU64_eq_some.1 hq)
        simp only [List.length_append, leBytes_length] at this
        omega
    · intro h p hp
      have := congrArg List.length (takeU64_eq_some.1 hp)
      simp only [List.length_append, leBytes_length] at this
      rw [Option.map_eq_none_iff, ih]
      omega

theorem takeItem_eq_none {bs : List Byte} : takeItem bs = none ↔ bs.length < 10 := by
  constructor
  · intro h
    by_contra hc
    obtain ⟨⟨v, r⟩, hp⟩ := Option.ne_none_iff_exists'.1 (mt takeU64_eq_none.1 (by omega : ¬ bs.length < 8))
    have hl := congrArg List.length (takeU64_eq_some.1 hp)
    simp only [List.length_append, leBytes_length] at hl
    match r, hl with
    | [], hl | [_], hl => simp only [List.length_cons, List.length_nil] at hl; omega
    | _ :: _ :: _, _ => simp [takeItem, hp, takeByte] at h
  · intro h
    by_contra hc
    obtain ⟨p, hp⟩ := Option.ne_none_iff_exists'.1 hc
    have := congrArg List.length (takeItem_eq_some.1 hp)
    simp only [List.length_append, encodeItem, leBytes_length, List.length_cons, List.length_nil] at this
    omega

theorem takeItems_eq_none {m : Nat} {bs : List Byte} : takeItems m bs = none ↔ bs.length < 10 * m := by
  induction m generalizing bs with
  | zero => simp [takeItems]
  | succ m ih =>
    have hlen : ∀ {p : PackItem × List Byte}, takeItem bs = some p → bs.length = 10 + p.2.length := by
      intro p hp
      have := congrArg List.length (takeItem_eq_some.1 hp)
      simpa only [List.length_append, encodeItem, leBytes_length, List.length_cons, List.length_nil] using this
    rw [takeItems, Option.bind_eq_none_iff]
    constructor
    · intro h
      by_contra hc
      cases hq : takeItem bs with
      | none => have := takeItem_eq_none.1 hq; omega
      | some p =>
        have hn := h p hq
        rw [Option.map_eq_none_iff, ih] at hn
        have := hlen hq
        omega
    · intro h p hp
      rw [Option.map_eq_none_iff, ih]
      have := hlen hp
      omega

/-! ## Opcodes -/

/-- The opcodes that select a format are those that have operands (R70). -/
theorem formatOf_eq_none_iff (op : Byte) : formatOf op = none ↔ operandsOf op = none := by
  unfold formatOf operandsOf
  split <;> simp

/-- What the decoder answers, by cases. -/
theorem decode_cons_of_none {op : Byte} (h : operandsOf op = none) (r : List Byte) :
    decode (op :: r) = .illegal op r := by
  simp [decode, h]

theorem decode_cons_of_some {op : Byte} {read : List Byte → Option (Instr × List Byte)}
    (h : operandsOf op = some read) (r : List Byte) :
    decode (op :: r) = match read r with
      | none => .incomplete
      | some p => .command p.1 p.2 := by
  cases hr : read r <;> simp [decode, h, hr]

/-- A command is incomplete exactly when its operand reader misses bytes. -/
theorem decode_cons_incomplete {op : Byte} {read : List Byte → Option (Instr × List Byte)}
    (h : operandsOf op = some read) (r : List Byte) : decode (op :: r) = .incomplete ↔ read r = none := by
  rw [decode_cons_of_some h]
  cases read r <;> simp

/-- A decoded command was read by the operand reader of its opcode. -/
theorem decode_eq_command {bs rest : List Byte} {i : Instr} (h : decode bs = .command i rest) :
    ∃ op r read, bs = op :: r ∧ operandsOf op = some read ∧ read r = some (i, rest) := by
  unfold decode at h
  split at h
  · cases h
  · rename_i op r
    split at h
    · cases h
    · rename_i read hread
      split at h
      · cases h
      · cases h
        exact ⟨op, r, read, rfl, hread, by assumption⟩

/-! ## Lengths -/

@[simp] theorem encodeData_length (d : List Byte) : (encodeData d).length = 2 + d.length := by simp [encodeData]

@[simp] theorem Header.toBytes_length (h : Header) : h.toBytes.length = 5 := rfl

@[simp] theorem encodeItem_length (i : PackItem) : (encodeItem i).length = 10 := by simp [encodeItem]

theorem values_length (v : List Word64) : (v.flatMap fun x => leBytes 8 x.toNat).length = 8 * v.length := by
  induction v with
  | nil => rfl
  | cons x v ih => simp only [List.flatMap_cons, List.length_append, leBytes_length, ih, List.length_cons]; omega

theorem items_length (is : List PackItem) : (is.flatMap encodeItem).length = 10 * is.length := by
  induction is with
  | nil => rfl
  | cons i is ih => simp only [List.flatMap_cons, List.length_append, encodeItem_length, ih, List.length_cons]; omega

end Sys2Proof
end

