-- ==== Sys2Proof/Laws/Decoder.lean ====
section
/-! SUPPORT. What ADD_DATA's and DECODE's operations do. -/

namespace Sys2Proof.Machine

/-! ## The candidate header -/

theorem headerOf_eq_some {bs : List Byte} {h : Header} : headerOf bs = some h ↔ bs = h.toBytes := by
  constructor
  · intro he
    unfold headerOf at he
    split at he
    · cases he; rfl
    · cases he
  · rintro rfl
    rfl

/-- A candidate is the five bytes at the cursor (R152). -/
theorem candidate_eq_some {buf : List Byte} {cur : Nat} {h : Header} :
    candidate buf cur = some h ↔ cur + 5 ≤ buf.length ∧ (buf.drop cur).take 5 = h.toBytes := by
  rw [candidate, Option.bind_eq_some_iff]
  constructor
  · rintro ⟨bs, hm, hh⟩
    obtain ⟨hl, rfl⟩ := memRead_eq_some.1 hm
    exact ⟨hl, headerOf_eq_some.1 hh⟩
  · rintro ⟨hl, hh⟩
    exact ⟨h.toBytes, memRead_eq_some.2 ⟨hl, hh.symm⟩, rfl⟩

/-- There is no candidate exactly when fewer than five bytes remain (R151). -/
theorem candidate_eq_none {buf : List Byte} {cur : Nat} : candidate buf cur = none ↔ buf.length < cur + 5 := by
  constructor
  · intro h
    by_contra hc
    have hl : ((buf.drop cur).take 5).length = 5 := by simp; omega
    match hb : (buf.drop cur).take 5, hl with
    | [a, b, c, d, e], _ =>
      have := candidate_eq_some (buf := buf) (cur := cur) (h := ⟨a, b, c, d, e⟩) |>.2 ⟨by omega, hb⟩
      rw [h] at this
      cases this
  · intro h
    cases hc : candidate buf cur with
    | none => rfl
    | some x => have := (candidate_eq_some.1 hc).1; omega

/-! ## The scanning loop, case by case (R151 to R156) -/

variable {P : Config} {buf : List Byte} {rem cur e : Nat} {h : Header}

theorem scanLoop_zero : scanLoop P buf 0 cur e = ⟨cur, e, .starved⟩ := rfl

/-- Step 1: fewer than five bytes remain. -/
theorem scanLoop_short (hl : buf.length < cur + 5) : scanLoop P buf rem cur e = ⟨cur, e, .starved⟩ := by
  cases rem with
  | zero => rfl
  | succ rem => rw [scanLoop, candidate_eq_none.2 hl]

/-- Step 3: the candidate fails its LRC. -/
theorem scanLoop_noise (hc : candidate buf cur = some h) (hl : headerLrc h ≠ h.lrc) :
    scanLoop P buf (rem + 1) cur e = scanLoop P buf rem (cur + 1) e := by
  simp [scanLoop, hc, hl]

/-- Step 4: the payload is not all there. -/
theorem scanLoop_wait (hc : candidate buf cur = some h) (hl : headerLrc h = h.lrc)
    (hp : buf.length < cur + 5 + h.length.toNat) :
    scanLoop P buf (rem + 1) cur e = ⟨cur, e, .starved⟩ := by
  simp [scanLoop, hc, hl, memRead_eq_none.2 hp]

/-- Step 5, the CRC fails. -/
theorem scanLoop_mismatch {p : List Byte} (hc : candidate buf cur = some h) (hl : headerLrc h = h.lrc)
    (hp : memRead buf (cur + 5) h.length.toNat = some p) (hcrc : crc16 p ≠ headerCrc h) :
    scanLoop P buf (rem + 1) cur e = scanLoop P buf rem (cur + 1) (truncCounter P (e + 1)) := by
  simp [scanLoop, hc, hl, hp, hcrc]

/-- Step 5, the CRC is right. -/
theorem scanLoop_accept {p : List Byte} (hc : candidate buf cur = some h) (hl : headerLrc h = h.lrc)
    (hp : memRead buf (cur + 5) h.length.toNat = some p) (hcrc : crc16 p = headerCrc h) :
    scanLoop P buf (rem + 1) cur e = ⟨cur + 5 + h.length.toNat, e, .frameReady ⟨h, p⟩⟩ := by
  simp [scanLoop, hc, hl, hp, hcrc]

/-- What one iteration can do: starve, go on one byte later, or accept. -/
theorem scanLoop_cases (P : Config) (buf : List Byte) (rem cur e : Nat) :
    scanLoop P buf (rem + 1) cur e = ⟨cur, e, .starved⟩ ∨
      cur + 5 ≤ buf.length ∧ scanLoop P buf (rem + 1) cur e = scanLoop P buf rem (cur + 1) e ∨
      cur + 5 ≤ buf.length ∧
        scanLoop P buf (rem + 1) cur e = scanLoop P buf rem (cur + 1) (truncCounter P (e + 1)) ∨
      ∃ h p, candidate buf cur = some h ∧ headerLrc h = h.lrc ∧
        memRead buf (cur + 5) h.length.toNat = some p ∧ crc16 p = headerCrc h ∧
        scanLoop P buf (rem + 1) cur e = ⟨cur + 5 + h.length.toNat, e, .frameReady ⟨h, p⟩⟩ := by
  cases hc : candidate buf cur with
  | none => exact .inl (scanLoop_short (candidate_eq_none.1 hc))
  | some h =>
    have hb := (candidate_eq_some.1 hc).1
    by_cases hl : headerLrc h = h.lrc
    · cases hp : memRead buf (cur + 5) h.length.toNat with
      | none => exact .inl (scanLoop_wait hc hl (memRead_eq_none.1 hp))
      | some p =>
        by_cases hcrc : crc16 p = headerCrc h
        · exact .inr (.inr (.inr ⟨h, p, rfl, hl, hp, hcrc, scanLoop_accept hc hl hp hcrc⟩))
        · exact .inr (.inr (.inl ⟨hb, scanLoop_mismatch hc hl hp hcrc⟩))
    · exact .inr (.inl ⟨hb, scanLoop_noise hc hl⟩)

/-- A frame the loop returns passed both checks on the bytes that stand in the buffer, and the cursor stands behind
it (R156). -/
structure Accepted (buf : List Byte) (start : Nat) (r : ScanResult) (f : Frame) : Prop where
  wf : frameWf f = true
  bytes : ∃ at' : Nat, start ≤ at' ∧ r.cur = at' + (frameBytes f).length ∧
    memRead buf at' (frameBytes f).length = some (frameBytes f)

theorem candidate_frame {p : List Byte} (hc : candidate buf cur = some h)
    (hp : memRead buf (cur + 5) h.length.toNat = some p) :
    memRead buf cur (5 + h.length.toNat) = some (frameBytes ⟨h, p⟩) := by
  obtain ⟨hl, rfl⟩ := memRead_eq_some.1 hp
  refine memRead_eq_some.2 ⟨by omega, ?_⟩
  rw [List.take_add, List.drop_drop, (candidate_eq_some.1 hc).2]
  rfl

/-- What the scanning loop can do: it moves the cursor forward inside the buffer, and a frame it returns is
well-formed and lies in the buffer. -/
theorem scanLoop_result (P : Config) (buf : List Byte) (rem cur e : Nat) (hb : cur ≤ buf.length) :
    cur ≤ (scanLoop P buf rem cur e).cur ∧ (scanLoop P buf rem cur e).cur ≤ buf.length ∧
      ∀ f, (scanLoop P buf rem cur e).outcome = .frameReady f →
        Accepted buf cur (scanLoop P buf rem cur e) f := by
  induction rem generalizing cur e with
  | zero => exact ⟨le_refl _, hb, fun f hf => by cases hf⟩
  | succ rem ih =>
    have goOn : ∀ e', cur + 5 ≤ buf.length →
        cur ≤ (scanLoop P buf rem (cur + 1) e').cur ∧ (scanLoop P buf rem (cur + 1) e').cur ≤ buf.length ∧
          ∀ f, (scanLoop P buf rem (cur + 1) e').outcome = .frameReady f →
            Accepted buf cur (scanLoop P buf rem (cur + 1) e') f := by
      intro e' hl
      obtain ⟨h1, h2, h3⟩ := ih (cur + 1) e' (by omega)
      refine ⟨by omega, h2, fun f hf => ?_⟩
      obtain ⟨wf, at', ha, hrest⟩ := h3 f hf
      exact ⟨wf, at', by omega, hrest⟩
    rcases scanLoop_cases P buf rem cur e with hs | ⟨hl, hs⟩ | ⟨hl, hs⟩ | ⟨h, p, hc, hl, hp, hcrc, hs⟩
    · rw [hs]
      exact ⟨le_refl _, hb, fun f hf => by cases hf⟩
    · rw [hs]
      exact goOn e hl
    · rw [hs]
      exact goOn _ hl
    · rw [hs]
      have hlen := memRead_length hp
      have hle := (memRead_eq_some.1 hp).1
      refine ⟨by simp only; omega, hle, fun f hf => ?_⟩
      cases hf
      refine ⟨by simp [frameWf, hlen, hl, hcrc], cur, le_refl _, by simp [hlen]; omega, ?_⟩
      rw [frameBytes_length]
      simp only [hlen]
      exact candidate_frame hc hp

/-- The counter the loop leaves: as it was, or truncated to its width. -/
theorem scanLoop_counter (P : Config) (buf : List Byte) (rem cur e : Nat) :
    (scanLoop P buf rem cur e).crcErrors = e ∨ (scanLoop P buf rem cur e).crcErrors < 2 ^ P.cntW := by
  induction rem generalizing cur e with
  | zero => exact .inl rfl
  | succ rem ih =>
    rcases scanLoop_cases P buf rem cur e with hs | ⟨_, hs⟩ | ⟨_, hs⟩ | ⟨h, p, _, _, _, _, hs⟩
    · rw [hs]; exact .inl rfl
    · rw [hs]; exact ih _ _
    · rw [hs]
      right
      rcases ih (cur + 1) (truncCounter P (e + 1)) with hi | hi
      · rw [hi]; exact Nat.mod_lt _ (Nat.two_pow_pos _)
      · exact hi
    · rw [hs]; exact .inl rfl

/-! ## DECODE's registers and response -/

/-- What DECODE's compaction can do (R163 a, c). -/
theorem decodeRegs_cases (s : State) (r : ScanResult) :
    decodeRegs s r = (s.scanned r).compact ∨ decodeRegs s r = s.scanned r := by
  unfold decodeRegs
  split
  · exact .inl rfl
  · exact .inr rfl

@[simp] theorem decodeRegs_cfg (s : State) (r : ScanResult) : (decodeRegs s r).cfg = s.cfg := by
  rcases decodeRegs_cases s r with h | h <;> simp [h]

@[simp] theorem decodeRegs_crcErrors (s : State) (r : ScanResult) : (decodeRegs s r).crcErrors = r.crcErrors := by
  rcases decodeRegs_cases s r with h | h <;> simp [h]

@[simp] theorem decodeRegs_phase (s : State) (r : ScanResult) : (decodeRegs s r).phase = r.outcome.phase := by
  rcases decodeRegs_cases s r with h | h <;> simp [h]

@[simp] theorem decodeRegs_fault (s : State) (r : ScanResult) : (decodeRegs s r).fault = s.fault := by
  rcases decodeRegs_cases s r with h | h <;> simp [h]

@[simp] theorem decodeRegs_cmd (s : State) (r : ScanResult) : (decodeRegs s r).cmd = s.cmd := by
  rcases decodeRegs_cases s r with h | h <;> simp [h]

@[simp] theorem decodeRegs_rsp (s : State) (r : ScanResult) : (decodeRegs s r).rsp = s.rsp := by
  rcases decodeRegs_cases s r with h | h <;> simp [h]

/-- Compaction or not, the pending bytes are those from the loop's cursor on (R165). -/
@[simp] theorem decodeRegs_pend (s : State) (r : ScanResult) : (decodeRegs s r).pend = s.buf.drop r.cur := by
  rcases decodeRegs_cases s r with h | h <;> simp [h, State.pend]

/-- DECODE's response, by outcome. -/
@[simp] theorem decodeRespond_starved (s : State) : decodeRespond s .starved = s.respond .none [] := rfl

@[simp] theorem decodeRespond_frameReady (s : State) (f : Frame) :
    decodeRespond s (.frameReady f) = s.respond .frame (frameBytes f) := rfl

/-! ## ADD_DATA -/

@[simp] theorem makeRoom_pend (s : State) (n : Nat) : (makeRoom s n).pend = s.pend := by
  unfold makeRoom
  split <;> simp

@[simp] theorem streamCompact_pend (s : State) : (streamCompact s).pend = s.pend := by
  unfold streamCompact
  split <;> simp

theorem makeRoom_cursor {s : State} (n : Nat) (h : s.cur ≤ s.buf.length) :
    (makeRoom s n).cur ≤ (makeRoom s n).buf.length := by
  unfold makeRoom
  split <;> simp [h]

theorem streamCompact_cursor {s : State} (h : s.cur ≤ s.buf.length) :
    (streamCompact s).cur ≤ (streamCompact s).buf.length := by
  unfold streamCompact
  split <;> simp [h]

/-- Making room and compacting change the buffer and the cursor only. -/
theorem makeRoom_eq (s : State) (n : Nat) :
    makeRoom s n = { s with buf := (makeRoom s n).buf, cur := (makeRoom s n).cur } := by
  unfold makeRoom
  split <;> rfl

theorem streamCompact_eq (s : State) :
    streamCompact s = { s with buf := (streamCompact s).buf, cur := (streamCompact s).cur } := by
  unfold streamCompact
  split <;> rfl

/-! ## The two commands -/

/-- What ADD_DATA does when the data fits: the pending bytes grow by it, and no other register changes (R141). -/
theorem execAddData_fits {s : State} (d : List Byte) (hc : s.cur ≤ s.buf.length)
    (hcap : ∀ c, s.cfg.bufCap = some c → s.pend.length + d.length ≤ c) :
    ∃ t, execAddData d s = .next t ∧ t.pend = s.pend ++ d ∧ t.cur ≤ t.buf.length ∧ t.crcErrors = s.crcErrors ∧
      t.phase = s.phase ∧ t.fault = s.fault ∧ t.cfg = s.cfg ∧ t.cmd = s.cmd ∧ t.rsp = s.rsp ++ [⟨.ok, []⟩] := by
  have ho : overflows s d.length = false := by
    unfold overflows
    cases h : s.cfg.bufCap with
    | none => rfl
    | some c =>
      have := hcap c h
      rw [pend_length] at this
      simp only [decide_eq_false_iff_not]
      omega
  refine ⟨_, by simp [execAddData, ho, commit]; rfl, ?_, ?_, ?_, ?_, ?_, ?_, ?_, ?_⟩
  · simp [append_pend d (makeRoom_cursor d.length hc)]
  · apply streamCompact_cursor
    have := makeRoom_cursor d.length hc
    simp
    omega
  all_goals
    rw [streamCompact_eq, makeRoom_eq]
    rfl

/-- What ADD_DATA does when the pending bytes and the data exceed the capacity (R141). -/
theorem execAddData_overflow {s : State} {d : List Byte} {c : Nat} (hb : s.cfg.bufCap = some c)
    (h : c < s.buf.length - s.cur + d.length) : execAddData d s = .next (faultAfter s .overflow) := by
  have : overflows s d.length = true := by simp [overflows, hb, h]
  simp [execAddData, this, commit, raise_eq_faultAfter]

/-- The response to a scan's outcome (R80). -/
def outcomeResponse : ScanOutcome → Response
  | .starved => ⟨.none, []⟩
  | .frameReady f => ⟨.frame, frameBytes f⟩

/-- What DECODE does: the registers of the scanning loop, its response, and nothing else (R150, R158). -/
theorem execDecode_scan {s : State} (hc : s.cur ≤ s.buf.length) :
    ∃ t, execDecode s = .next t ∧ t.pend = s.buf.drop (scanState s).cur ∧ t.cur ≤ t.buf.length ∧
      t.crcErrors = (scanState s).crcErrors ∧ t.phase = (scanState s).outcome.phase ∧ t.fault = s.fault ∧
      t.cfg = s.cfg ∧ t.cmd = s.cmd ∧ t.rsp = s.rsp ++ [outcomeResponse (scanState s).outcome] := by
  have hr := scanLoop_result s.cfg s.buf (s.buf.length - s.cur) s.cur s.crcErrors hc
  have hcu : (decodeRegs s (scanState s)).cur ≤ (decodeRegs s (scanState s)).buf.length := by
    rcases decodeRegs_cases s (scanState s) with h | h <;> rw [h]
    · simp
    · exact hr.2.1
  refine ⟨_, rfl, ?_, ?_, ?_, ?_, ?_, ?_, ?_, ?_⟩ <;> cases ho : (scanState s).outcome <;>
    simp [hcu, outcomeResponse] <;> rw [← ho]

end Sys2Proof.Machine
end

