-- ==== Sys2Proof/Laws/Layout.lean ====
section
/-! SUPPORT. Layouts: which lengths a variant accepts, why one variant at most accepts a length (43_codec.md R201,
R202), and what a name refers to. -/

namespace Sys2Proof

/-! ## Accepted lengths -/

theorem Variant.accepts_none {V : Variant} (h : V.tail.variable = false) (n : Nat) :
    V.accepts n = true ↔ n = V.head := by
  simp [Variant.accepts, h]

theorem Variant.accepts_tail {V : Variant} (h : V.tail.variable = true) (n : Nat) :
    V.accepts n = true ↔ V.head ≤ n ∧ (n - V.head) % V.tail.size = 0 := by
  simp [Variant.accepts, h]

theorem Variant.head_le {V : Variant} {n : Nat} (h : V.accepts n = true) : V.head ≤ n := by
  cases ht : V.tail.variable with
  | false => exact le_of_eq ((Variant.accepts_none ht n).1 h).symm
  | true => exact ((Variant.accepts_tail ht n).1 h).1

/-- Every variant accepts its own head. -/
theorem Variant.accepts_head (V : Variant) : V.accepts V.head = true := by
  cases ht : V.tail.variable with
  | false => exact (Variant.accepts_none ht _).2 rfl
  | true => exact (Variant.accepts_tail ht _).2 ⟨le_refl _, by simp⟩

theorem Tail.size_pos {fs : List Field} {t : Tail} (h : t.wf fs = true) (hv : t.variable = true) : 1 ≤ t.size := by
  cases t with
  | none => cases hv
  | len size fields => simp only [Tail.wf, Bool.and_eq_true, decide_eq_true_eq] at h; exact h.1
  | cnt name size fields => simp only [Tail.wf, Bool.and_eq_true, decide_eq_true_eq] at h; exact h.1.1

/-- The test of `Variant.apart` says that no length is accepted by both variants (R201, log entry 14). -/
theorem Variant.apart_iff {V W : Variant} (hV : V.tail.variable = true → 1 ≤ V.tail.size)
    (hW : W.tail.variable = true → 1 ≤ W.tail.size) :
    V.apart W = true ↔ ∀ n, ¬ (V.accepts n = true ∧ W.accepts n = true) := by
  unfold Variant.apart
  cases hv : V.tail.variable <;> cases hw : W.tail.variable <;> simp only
  · simp only [Variant.accepts_none hv, Variant.accepts_none hw, bne_iff_ne]
    exact ⟨fun h n hn => h (hn.1.symm.trans hn.2), fun h e => h V.head ⟨rfl, e⟩⟩
  · rw [Bool.not_eq_true', Bool.eq_false_iff]
    exact ⟨fun h n hn => h ((Variant.accepts_none hv n).1 hn.1 ▸ hn.2),
      fun h e => h V.head ⟨Variant.accepts_head V, e⟩⟩
  · rw [Bool.not_eq_true', Bool.eq_false_iff]
    exact ⟨fun h n hn => h ((Variant.accepts_none hw n).1 hn.2 ▸ hn.1),
      fun h e => h W.head ⟨e, Variant.accepts_head W⟩⟩
  · have hV := hV hv
    have hW := hW hw
    simp only [Variant.accepts_tail hv, Variant.accepts_tail hw, bne_iff_ne]
    constructor
    · rintro h n ⟨⟨h1, h2⟩, h3, h4⟩
      apply h
      have e1 : V.head ≡ n [MOD Nat.gcd V.tail.size W.tail.size] :=
        ((Nat.modEq_iff_dvd' h1).2 (Nat.dvd_of_mod_eq_zero h2)).of_dvd (Nat.gcd_dvd_left _ _)
      have e2 : W.head ≡ n [MOD Nat.gcd V.tail.size W.tail.size] :=
        ((Nat.modEq_iff_dvd' h3).2 (Nat.dvd_of_mod_eq_zero h4)).of_dvd (Nat.gcd_dvd_right _ _)
      exact e1.trans e2.symm
    · intro h e
      obtain ⟨k, hk1, hk2⟩ := Nat.chineseRemainder' (show V.head ≡ W.head [MOD _] from e)
      have hd1 : V.tail.size ∣ Nat.lcm V.tail.size W.tail.size := Nat.dvd_lcm_left _ _
      have hd2 : W.tail.size ∣ Nat.lcm V.tail.size W.tail.size := Nat.dvd_lcm_right _ _
      have hpos : 1 ≤ Nat.lcm V.tail.size W.tail.size := Nat.lcm_pos hV hW
      have hbig : V.head + W.head ≤ k + (V.head + W.head) * Nat.lcm V.tail.size W.tail.size :=
        le_trans (Nat.le_mul_of_pos_right _ hpos) (Nat.le_add_left _ _)
      have key : ∀ E, E ∣ Nat.lcm V.tail.size W.tail.size →
          k + (V.head + W.head) * Nat.lcm V.tail.size W.tail.size ≡ k [MOD E] := by
        intro E hE
        exact (Nat.modEq_iff_dvd' (Nat.le_add_right _ _)).2 (by simpa using Dvd.dvd.mul_left hE _) |>.symm
      refine h (k + (V.head + W.head) * Nat.lcm V.tail.size W.tail.size) ⟨⟨by omega, ?_⟩, by omega, ?_⟩
      · exact Nat.mod_eq_zero_of_dvd ((Nat.modEq_iff_dvd' (by omega)).1 (hk1.symm.trans (key _ hd1).symm))
      · exact Nat.mod_eq_zero_of_dvd ((Nat.modEq_iff_dvd' (by omega)).1 (hk2.symm.trans (key _ hd2).symm))

/-! ## Pairs and lists -/

theorem allPairs_iff {α : Type} {r : α → α → Bool} {l : List α} :
    allPairs r l = true ↔ l.Pairwise fun a b => r a b = true := by
  induction l with
  | nil => simp [allPairs]
  | cons a l ih => simp [allPairs, ih]

/-! ## Variant selection (R202) -/

theorem Machine.selectFrom_eq_none {n : Nat} {Vs : List Variant} {i : Nat} :
    Machine.selectFrom n Vs i = none ↔ ∀ V ∈ Vs, V.accepts n = false := by
  induction Vs generalizing i with
  | nil => simp [Machine.selectFrom]
  | cons V Vs ih =>
    cases h : V.accepts n <;> simp [Machine.selectFrom, h, ih]

/-- The only variant that accepts the length is the one selected, with its index. -/
theorem Machine.selectFrom_of_unique {n : Nat} {Vs : List Variant} {V : Variant} {j : Nat}
    (hp : Vs.Pairwise fun a b => ¬ (a.accepts n = true ∧ b.accepts n = true)) (hj : Vs[j]? = some V)
    (ha : V.accepts n = true) (i : Nat) : Machine.selectFrom n Vs i = some (i + j, V) := by
  induction Vs generalizing i j with
  | nil => simp at hj
  | cons W Vs ih =>
    obtain ⟨h1, h2⟩ := List.pairwise_cons.1 hp
    cases j with
    | zero =>
      simp only [List.getElem?_cons_zero, Option.some.injEq] at hj
      subst hj
      simp [Machine.selectFrom, ha]
    | succ j =>
      rw [List.getElem?_cons_succ] at hj
      have hW : W.accepts n = false := by
        rw [Bool.eq_false_iff]
        exact fun hW => h1 V (List.mem_of_getElem? hj) ⟨hW, ha⟩
      rw [Machine.selectFrom, if_neg (by simp [hW]), ih h2 hj]
      simp only [Option.some.injEq, Prod.mk.injEq, and_true]
      omega

/-- What a well-formed layout promises of its variants (R201). -/
theorem Layout.variants_apart {L : Layout} (h : L.wf = true) :
    L.variants.Pairwise fun a b => ∀ n, ¬ (a.accepts n = true ∧ b.accepts n = true) := by
  simp only [Layout.wf, Bool.and_eq_true, List.all_eq_true] at h
  have size : ∀ V ∈ L.variants, V.tail.variable = true → 1 ≤ V.tail.size := by
    intro V hV ht
    have := h.1.2 V hV
    simp only [Variant.wf, Bool.and_eq_true] at this
    exact Tail.size_pos this.2 ht
  refine (allPairs_iff.1 h.2).imp_of_mem ?_
  intro a b ha hb hab
  exact (Variant.apart_iff (size a ha) (size b hb)).1 hab

theorem Layout.variant_wf {L : Layout} (h : L.wf = true) {V : Variant} (hV : V ∈ L.variants) : V.wf = true := by
  simp only [Layout.wf, Bool.and_eq_true, List.all_eq_true] at h
  exact h.1.2 V hV

/-- A well-formed layout has at most 256 variants: no two have one head, and a head is at most 255. -/
theorem Layout.variants_length {L : Layout} (h : L.wf = true) : L.variants.length ≤ 256 := by
  have hn : (L.variants.map (·.head)).Nodup := by
    rw [List.Nodup, List.pairwise_map]
    exact (Layout.variants_apart h).imp fun {a b} hab (e : a.head = b.head) =>
      hab a.head ⟨Variant.accepts_head a, by rw [e]; exact Variant.accepts_head b⟩
  have hb : ∀ x ∈ L.variants.map (·.head), x < 256 := by
    intro x hx
    obtain ⟨V, hV, rfl⟩ := List.mem_map.1 hx
    have := Layout.variant_wf h hV
    simp only [Variant.wf, Bool.and_eq_true, decide_eq_true_eq] at this
    omega
  have := (List.subperm_of_subset hn (fun x hx => List.mem_range.2 (hb x hx))).length_le
  simpa using this

theorem Config.layout_wf {P : Config} (h : P.wf = true) {k : Byte} {L : Layout} (hk : P.layout k = some L) :
    L.wf = true := by
  simp only [Config.wf, Bool.and_eq_true, List.all_eq_true] at h
  unfold Config.layout at hk
  rw [List.getD_eq_getElem?_getD] at hk
  cases he : P.layouts[k.toNat]? with
  | none => rw [he] at hk; cases hk
  | some e =>
    rw [he] at hk
    simp only [Option.getD_some] at hk
    subst hk
    exact h.2 _ (List.mem_of_getElem? he)

/-! ## Field references (log entry 13) -/

/-- Fields before the named one are skipped with their values. -/
theorem fieldValue_append {α : Type} {pre : List Field} {f : Field} {post : List Field} (vals : List α)
    (h : ∀ g ∈ pre, g.name ≠ f.name) :
    fieldValue (pre ++ f :: post) vals f.name = (vals.drop (fieldValues pre)).head? := by
  induction pre generalizing vals with
  | nil => simp [fieldValue, fieldValues]
  | cons g pre ih =>
    have hg : (g.name == f.name) = false := by simpa using h g (by simp)
    rw [List.cons_append, fieldValue, hg, if_neg (by simp), ih _ fun a ha => h a (by simp [ha]), List.drop_drop]
    simp [fieldValues]

theorem findField_append {pre : List Field} {f : Field} {post : List Field} (h : ∀ g ∈ pre, g.name ≠ f.name) :
    findField (pre ++ f :: post) f.name = some f := by
  rw [findField, List.find?_append]
  have : pre.find? (fun g => g.name == f.name) = none := by
    rw [List.find?_eq_none]
    intro g hg
    simpa using h g hg
  simp [this]

/-- The field a name refers to stands in the list, behind fields of other names. -/
theorem findField_eq_some {fs : List Field} {name : String} {f : Field} (h : findField fs name = some f) :
    ∃ pre post, fs = pre ++ f :: post ∧ f.name = name ∧ ∀ g ∈ pre, g.name ≠ f.name := by
  rw [findField, List.find?_eq_some_iff_append] at h
  obtain ⟨hn, pre, post, rfl, hpre⟩ := h
  have hn : f.name = name := by simpa using hn
  exact ⟨pre, post, rfl, hn, fun g hg => by simpa [hn] using hpre g hg⟩

theorem refersToUnsigned_iff {fs : List Field} {name : String} :
    refersToUnsigned fs name = true ↔ ∃ f, findField fs name = some f ∧ f.count = 1 ∧ f.ty.unsignedInt = true := by
  unfold refersToUnsigned
  cases findField fs name <;> simp

theorem fieldsFit_iff {limit : Nat} {fs : List Field} :
    fieldsFit limit fs = true ↔
      (∀ f ∈ fs, 1 ≤ f.count ∧ f.off + f.size ≤ limit) ∧ fs.Pairwise fun f g => f.apart g = true := by
  simp [fieldsFit, allPairs_iff]

end Sys2Proof
end

