-- ==== Sys2Proof/Laws/Fields.lean ====
section
/-! SUPPORT. What reading and writing the fields of a layout does (43_codec.md R210, R215 to R217). -/

namespace Sys2Proof.Machine

/-! ## Reading (R184, R210) -/

/-- The values of one field whose offset is relative to `base`. -/
def fieldScalars (p : List Byte) (base : Nat) (f : Field) : List Int :=
  (List.range f.count).map fun j =>
    scalarValue f.ty (le ((p.drop (base + f.off + j * f.ty.width)).take f.ty.width))

@[simp] theorem fieldScalars_length (p : List Byte) (base : Nat) (f : Field) :
    (fieldScalars p base f).length = f.count := by simp [fieldScalars]

/-- Inside the data an array is read whole, its elements in index order (R184). -/
theorem readArray_eq {p : List Byte} {ty : ScalarType} {c off : Nat} (h : off + c * ty.width ≤ p.length) :
    readArray p ty c off
      = some ((List.range c).map fun j => scalarValue ty (le ((p.drop (off + j * ty.width)).take ty.width))) := by
  induction c generalizing off with
  | zero => rfl
  | succ c ih =>
    rw [Nat.succ_mul] at h
    rw [readArray, readScalar_eq_some.2 ⟨by omega, rfl⟩, Option.bind_some, ih (by omega), List.range_succ_eq_map]
    simp only [Option.map_some, List.map_cons, List.map_map, Nat.zero_mul, Nat.add_zero, Option.some.injEq,
      List.cons.injEq, true_and]
    refine List.map_congr_left fun j _ => ?_
    simp only [Function.comp_apply, Nat.succ_eq_add_one, Nat.succ_mul]
    rw [show off + ty.width + j * ty.width = off + (j * ty.width + ty.width) by omega]

/-- Fields that lie inside the data are read whole, in descriptor order (R210, R212). -/
theorem readFields_eq {p : List Byte} {base : Nat} {fs : List Field}
    (h : ∀ f ∈ fs, base + f.off + f.size ≤ p.length) :
    readFields p base fs = some (fs.flatMap (fieldScalars p base)) := by
  induction fs with
  | nil => rfl
  | cons f fs ih =>
    rw [readFields, readArray_eq (h f (by simp)), Option.bind_some, ih fun g hg => h g (by simp [hg])]
    rfl

theorem fieldScalars_flatMap_length (p : List Byte) (base : Nat) (fs : List Field) :
    (fs.flatMap (fieldScalars p base)).length = fieldValues fs := by
  simp [List.length_flatMap, fieldValues]

/-- The value a name refers to, among the values read (R210, R215). -/
theorem fieldValue_read {p : List Byte} {base : Nat} {fs : List Field} {name : String} {f : Field}
    (h : findField fs name = some f) (hc : 1 ≤ f.count) :
    fieldValue fs (fs.flatMap (fieldScalars p base)) name
      = some (scalarValue f.ty (le ((p.drop (base + f.off)).take f.ty.width))) := by
  obtain ⟨pre, post, rfl, rfl, hpre⟩ := findField_eq_some h
  rw [fieldValue_append _ hpre, List.flatMap_append, ← fieldScalars_flatMap_length p base pre, List.drop_left,
    List.flatMap_cons]
  obtain ⟨c, hc⟩ : ∃ c, f.count = c + 1 := ⟨f.count - 1, by omega⟩
  simp [fieldScalars, hc, List.range_succ_eq_map]

/-- The values of the bit-fields, given those of their hosts (R210). -/
theorem readBitFields_eq {fs : List Field} {vals : List Int} {bs : List BitField} (host : BitField → Int)
    (h : ∀ b ∈ bs, fieldValue fs vals b.host = some (host b)) :
    readBitFields fs vals bs = some (bs.map fun b => (extract (host b).toNat b.shift b.width : Int)) := by
  induction bs with
  | nil => rfl
  | cons b bs ih =>
    rw [readBitFields, h b (by simp), Option.bind_some, ih fun a ha => h a (by simp [ha])]
    rfl

/-- Tail elements that lie inside the payload are read whole (R210). -/
theorem readElements_ok {p : List Byte} {size : Nat} {ef : List Field} {cnt base : Nat}
    (hf : ∀ f ∈ ef, f.off + f.size ≤ size) (h : base + cnt * size ≤ p.length) :
    readElements p size ef cnt base
      = .ok ((List.range cnt).flatMap fun e => ef.flatMap (fieldScalars p (base + e * size))) := by
  induction cnt generalizing base with
  | zero => rfl
  | succ cnt ih =>
    rw [Nat.succ_mul] at h
    rw [readElements, if_neg (by omega), readFields_eq fun f hm => by have := hf f hm; omega, ih (by omega),
      List.range_succ_eq_map, List.flatMap_cons, List.flatMap_map, Nat.zero_mul, Nat.add_zero]
    simp only [Except.ok.injEq, List.append_cancel_left_eq, Nat.succ_eq_add_one, Nat.succ_mul]
    congr 1
    funext e
    rw [show base + size + e * size = base + (e * size + size) by omega]

/-- A count that reaches past the payload is refused, at the element that does (R210, R211). -/
theorem readElements_overrun {p : List Byte} {size : Nat} {ef : List Field} {cnt base : Nat}
    (hf : ∀ f ∈ ef, f.off + f.size ≤ size) (hb : base ≤ p.length) (h : p.length < base + cnt * size) :
    readElements p size ef cnt base = .error (.refuse .countOverrun) := by
  induction cnt generalizing base with
  | zero => omega
  | succ cnt ih =>
    rw [Nat.succ_mul] at h
    rw [readElements]
    by_cases hc : p.length < base + size
    · rw [if_pos hc]
    · rw [if_neg hc, readFields_eq fun f hm => by have := hf f hm; omega, ih (by omega) (by omega)]

/-! ## Writing (R215) -/

theorem overlay_length {p : List Byte} {pos : Nat} {bs : List Byte} (h : pos + bs.length ≤ p.length) :
    (overlay p pos bs).length = p.length := by
  simp only [overlay, List.length_append, List.length_take, List.length_drop]
  omega

/-- An overlay has the new bytes at their place and the old ones elsewhere. -/
theorem overlay_getElem? {p : List Byte} {pos : Nat} {bs : List Byte} (h : pos + bs.length ≤ p.length) (a : Nat) :
    (overlay p pos bs)[a]? = if pos ≤ a ∧ a < pos + bs.length then bs[a - pos]? else p[a]? := by
  have ht : (p.take pos).length = pos := by rw [List.length_take]; omega
  unfold overlay
  split
  · rename_i hin
    rw [List.append_assoc, List.getElem?_append_right (by omega), ht, List.getElem?_append_left (by omega)]
  · rename_i hout
    by_cases ha : a < pos
    · rw [List.append_assoc, List.getElem?_append_left (by omega), List.getElem?_take, if_pos ha]
    · rw [List.getElem?_append_right (by rw [List.length_append]; omega), List.length_append, ht,
        List.getElem?_drop]
      congr 1
      omega

/-- `q'` is `q` with the bytes of `p` at the places `S`. -/
structure Copied (p q q' : List Byte) (S : Nat → Prop) : Prop where
  length : q'.length = q.length
  inside : ∀ a, S a → q'[a]? = p[a]?
  outside : ∀ a, ¬ S a → q'[a]? = q[a]?

theorem Copied.refl (p q : List Byte) : Copied p q q fun _ => False :=
  ⟨rfl, fun _ h => h.elim, fun _ _ => rfl⟩

theorem Copied.trans {p q q' q'' : List Byte} {S T U : Nat → Prop} (h : Copied p q q' S) (h' : Copied p q' q'' T)
    (hU : ∀ a, U a ↔ S a ∨ T a) : Copied p q q'' U := by
  refine ⟨h'.length.trans h.length, fun a ha => ?_, fun a ha => ?_⟩
  · by_cases hT : T a
    · exact h'.inside a hT
    · rw [h'.outside a hT]
      exact h.inside a (((hU a).1 ha).resolve_right hT)
  · rw [h'.outside a fun hT => ha ((hU a).2 (.inr hT)), h.outside a fun hS => ha ((hU a).2 (.inl hS))]

theorem Copied.congr {p q q' : List Byte} {S T : Nat → Prop} (h : Copied p q q' S) (hT : ∀ a, T a ↔ S a) :
    Copied p q q' T :=
  ⟨h.length, fun a ha => h.inside a ((hT a).1 ha), fun a ha => h.outside a fun hS => ha ((hT a).2 hS)⟩

/-- Writing the bytes that stand at a place of `p` to the same place of `q`. -/
theorem copied_overlay {p q : List Byte} {pos n : Nat} (hq : q.length = p.length) (h : pos + n ≤ p.length) :
    Copied p q (overlay q pos ((p.drop pos).take n)) fun a => pos ≤ a ∧ a < pos + n := by
  have hl : ((p.drop pos).take n).length = n := by rw [List.length_take, List.length_drop]; omega
  refine ⟨overlay_length (by omega), fun a ha => ?_, fun a ha => ?_⟩
  · rw [overlay_getElem? (by omega), hl, if_pos ha, List.getElem?_take, if_pos (by omega), List.getElem?_drop]
    congr 1
    omega
  · rw [overlay_getElem? (by omega), hl, if_neg ha]

/-- The words in which values travel (R212). -/
def words (xs : List Int) : List Word64 := xs.map (BitVec.ofInt 64)

@[simp] theorem words_length (xs : List Int) : (words xs).length = xs.length := by simp [words]

@[simp] theorem words_append (xs ys : List Int) : words (xs ++ ys) = words xs ++ words ys := by simp [words]

/-- A scalar that was read is written back as the bytes it was read from (R181, R182, R183). -/
theorem writeScalar_read {p : List Byte} {ty : ScalarType} {off : Nat} (h : off + ty.width ≤ p.length) :
    writeScalar (slotValue ty (BitVec.ofInt 64 (scalarValue ty (le ((p.drop off).take ty.width))))) ty
      = .ok ((p.drop off).take ty.width) := by
  have hlt := le_take_lt p off ty.width
  have hlen : ((p.drop off).take ty.width).length = ty.width := by rw [List.length_take, List.length_drop]; omega
  rw [slotValue_ofInt ty (scalarFits_scalarValue ty hlt), writeScalar_scalarValue ty hlt]
  have := leBytes_le ((p.drop off).take ty.width)
  rw [hlen] at this
  rw [this]

theorem writeArray_read {p q : List Byte} {ty : ScalarType} {c off : Nat} (hq : q.length = p.length)
    (h : off + c * ty.width ≤ p.length) :
    ∃ q', writeArray ty
        (words ((List.range c).map fun j => scalarValue ty (le ((p.drop (off + j * ty.width)).take ty.width))))
        off q = .ok q' ∧ Copied p q q' fun a => off ≤ a ∧ a < off + c * ty.width := by
  induction c generalizing off q with
  | zero => exact ⟨q, rfl, (Copied.refl p q).congr fun a => by simp⟩
  | succ c ih =>
    rw [Nat.succ_mul] at h
    have h1 := copied_overlay hq (show off + ty.width ≤ p.length by omega)
    obtain ⟨q', hw, h2⟩ := ih (q := overlay q off ((p.drop off).take ty.width)) (off := off + ty.width)
      (h1.length.trans hq) (by omega)
    refine ⟨q', ?_, h1.trans h2 fun a => by rw [Nat.succ_mul]; omega⟩
    rw [List.range_succ_eq_map, List.map_cons, List.map_map]
    simp only [words, List.map_cons, Nat.zero_mul, Nat.add_zero] at hw ⊢
    rw [writeArray, writeScalar_read (by omega)]
    simp only
    rw [← hw]
    congr 1
    simp only [List.map_map]
    refine List.map_congr_left fun j _ => ?_
    simp only [Function.comp_apply, Nat.succ_eq_add_one, Nat.succ_mul]
    rw [show off + ty.width + j * ty.width = off + (j * ty.width + ty.width) by omega]

/-- Writing the values read from fields puts the bytes of those fields back (R217). -/
theorem writeFields_read {p q : List Byte} {base : Nat} {fs : List Field} (more : List Word64)
    (hq : q.length = p.length) (h : ∀ f ∈ fs, base + f.off + f.size ≤ p.length) :
    ∃ q', writeFields base fs (words (fs.flatMap (fieldScalars p base)) ++ more) q = .ok q' ∧
      Copied p q q' fun a => ∃ f ∈ fs, base + f.off ≤ a ∧ a < base + f.off + f.size := by
  induction fs generalizing q with
  | nil => exact ⟨q, rfl, (Copied.refl p q).congr fun a => by simp⟩
  | cons f fs ih =>
    obtain ⟨q1, hw1, hc1⟩ := writeArray_read (ty := f.ty) (c := f.count) (off := base + f.off) hq (h f (by simp))
    obtain ⟨q2, hw2, hc2⟩ := ih (q := q1) (hc1.length.trans hq) fun g hg => h g (by simp [hg])
    refine ⟨q2, ?_, hc1.trans hc2 fun a => by simp [Field.size]⟩
    have hl : (words (fieldScalars p base f)).length = f.count := by simp
    rw [List.flatMap_cons, words_append, List.append_assoc, writeFields, List.take_left' hl, List.drop_left' hl]
    unfold fieldScalars at hw2 ⊢
    rw [hw1]
    exact hw2

/-- Writing the values read from tail elements puts the bytes of their fields back (R217). -/
theorem writeElements_read {p q : List Byte} {size : Nat} {ef : List Field} {cnt base : Nat}
    (hq : q.length = p.length) (hf : ∀ f ∈ ef, f.off + f.size ≤ size) (h : base + cnt * size ≤ p.length) :
    ∃ q', writeElements size ef cnt base
        (words ((List.range cnt).flatMap fun e => ef.flatMap (fieldScalars p (base + e * size)))) q = .ok q' ∧
      Copied p q q' fun a => ∃ e < cnt, ∃ f ∈ ef,
        base + e * size + f.off ≤ a ∧ a < base + e * size + f.off + f.size := by
  induction cnt generalizing base q with
  | zero => exact ⟨q, rfl, (Copied.refl p q).congr fun a => by simp⟩
  | succ cnt ih =>
    rw [Nat.succ_mul] at h
    obtain ⟨q1, hw1, hc1⟩ := writeFields_read (p := p) (q := q) (base := base) (fs := ef)
      (words ((List.range cnt).flatMap fun e => ef.flatMap (fieldScalars p (base + size + e * size)))) hq
      fun f hm => by have := hf f hm; omega
    obtain ⟨q2, hw2, hc2⟩ := ih (q := q1) (base := base + size) (hc1.length.trans hq) (by omega)
    have shift : ∀ e, base + (e + 1) * size = base + size + e * size := fun e => by rw [Nat.succ_mul]; omega
    refine ⟨q2, ?_, hc1.trans hc2 fun a => ?_⟩
    · rw [List.range_succ_eq_map, List.flatMap_cons, List.flatMap_map, Nat.zero_mul, Nat.add_zero, words_append,
        writeElements]
      simp only [Nat.succ_eq_add_one, shift, Nat.add_zero]
      rw [hw1]
      simp only
      rw [List.drop_left' (by rw [words_length, fieldScalars_flatMap_length])]
      exact hw2
    · constructor
      · rintro ⟨e, he, f, hm, ha⟩
        cases e with
        | zero => exact .inl ⟨f, hm, by simpa using ha⟩
        | succ e => exact .inr ⟨e, by omega, f, hm, by rwa [shift] at ha⟩
      · rintro (⟨f, hm, ha⟩ | ⟨e, he, f, hm, ha⟩)
        · exact ⟨0, by omega, f, hm, by simpa using ha⟩
        · exact ⟨e + 1, by omega, f, hm, by rwa [shift]⟩

/-! ## Hosts and their bit-fields (R215, R216) -/

/-- The items of a host are its bit-fields, with their values. -/
theorem hostItems_eq (host : String) (bfs : List BitField) (g : BitField → Word64) (more : List Word64) :
    hostItems host bfs (bfs.map g ++ more)
      = (bfs.filter fun b => b.host == host).map fun b => ⟨(g b).toNat, b.shift, b.width⟩ := by
  induction bfs with
  | nil => cases more <;> rfl
  | cons b bfs ih =>
    rw [List.map_cons, List.cons_append, hostItems, ih]
    cases h : b.host == host <;> simp [h]

/-- A bit-field that is legal for its host, with the value it has in the host's word (R190, R201 c). -/
def HostedIn (p : List Byte) (f : Field) (b : BitField) (v : Word64) : Prop :=
  f.count = 1 ∧ f.ty.unsignedInt = true ∧ 1 ≤ b.width ∧ b.shift + b.width ≤ 8 * f.ty.width ∧
    v.toNat = extract (le ((p.drop f.off).take f.ty.width)) b.shift b.width

theorem scalarValue_unsigned {ty : ScalarType} (h : ty.unsignedInt = true) (u : Nat) : scalarValue ty u = u := by
  cases ty <;> first | rfl | cases h

theorem ofInt_toNat {u : Nat} (h : u < 2 ^ 64) : (BitVec.ofInt 64 (u : Int)).toNat = u := by
  rw [BitVec.toNat_ofInt]
  omega

theorem le_slice_lt_64 (p : List Byte) (off : Nat) (ty : ScalarType) :
    le ((p.drop off).take ty.width) < 2 ^ 64 :=
  lt_of_lt_of_le (le_take_lt p off ty.width)
    (Nat.pow_le_pow_right (by norm_num) (by have := ScalarType.width_le ty; omega))

/-- A field without bit-fields is passed over (R216). -/
theorem writeHosts_skip {bfs : List BitField} {bvals : List Word64} {f : Field}
    (h : hostItems f.name bfs bvals = []) (fs : List Field) (vals : List Word64) (p : List Byte) :
    writeHosts bfs bvals (f :: fs) vals p = writeHosts bfs bvals fs (vals.drop f.count) p := by
  conv_lhs => unfold writeHosts
  simp only [h]

/-- A host is written with its word (R216). -/
theorem writeHosts_host {bfs : List BitField} {bvals : List Word64} {f : Field} (h : hostItems f.name bfs bvals ≠ [])
    {v : Word64} {hv : Nat} {bs : List Byte}
    (hw : hostWord (8 * f.ty.width) v.toNat (hostItems f.name bfs bvals) = .ok hv)
    (hs : writeScalar hv f.ty = .ok bs) (fs : List Field) (vs : List Word64) (p : List Byte) :
    writeHosts bfs bvals (f :: fs) (v :: vs) p
      = writeHosts bfs bvals fs ((v :: vs).drop f.count) (overlay p f.off bs) := by
  conv_lhs => unfold writeHosts
  cases hi : hostItems f.name bfs bvals with
  | nil => exact absurd hi h
  | cons i is =>
    rw [hi] at hw
    simp only [hw, hs]

/-- Writing the hosts of a payload that was read puts their bytes back (R195, R216, R217). -/
theorem writeHosts_read {p q : List Byte} {fs : List Field} {bfs : List BitField} (g : BitField → Word64)
    (more more' : List Word64) (hq : q.length = p.length) (hf : ∀ f ∈ fs, f.off + f.size ≤ p.length)
    (hb : ∀ f ∈ fs, ∀ b ∈ bfs, b.host = f.name → HostedIn p f b (g b))
    (hp : bfs.Pairwise fun b c => b.apart c = true) :
    ∃ q', writeHosts bfs (bfs.map g ++ more) fs (words (fs.flatMap (fieldScalars p 0)) ++ more') q = .ok q' ∧
      Copied p q q' fun a => ∃ f ∈ fs, (∃ b ∈ bfs, b.host = f.name) ∧ f.off ≤ a ∧ a < f.off + f.size := by
  induction fs generalizing q with
  | nil => exact ⟨q, rfl, (Copied.refl p q).congr fun a => by simp⟩
  | cons f fs ih =>
    have ih := fun {q} (hq : q.length = p.length) => ih (q := q) hq (fun h hh => hf h (by simp [hh]))
      fun h hh => hb h (by simp [hh])
    have hl : (words (fieldScalars p 0 f)).length = f.count := by simp
    rw [List.flatMap_cons, words_append, List.append_assoc]
    by_cases hex : ∃ b ∈ bfs, b.host = f.name
    · obtain ⟨b, hbm, hbn⟩ := hex
      obtain ⟨h1, h2, -⟩ := hb f (by simp) b hbm hbn
      have hfit := hf f (by simp)
      rw [Field.size, h1, Nat.one_mul] at hfit
      have hlt := le_take_lt p f.off f.ty.width
      have hc1 := copied_overlay hq hfit
      obtain ⟨q', hw, hc2⟩ := ih (hc1.length.trans hq)
      refine ⟨q', ?_, hc1.trans hc2 fun a => ?_⟩
      · have hs : words (fieldScalars p 0 f) = [BitVec.ofInt 64 (le ((p.drop f.off).take f.ty.width) : Int)] := by
          simp [fieldScalars, h1, words, scalarValue_unsigned h2]
        have hw8 : writeScalar (le ((p.drop f.off).take f.ty.width) : Int) f.ty
            = .ok ((p.drop f.off).take f.ty.width) := by
          have := writeScalar_read hfit
          rwa [slotValue_ofInt _ (scalarFits_scalarValue _ hlt), scalarValue_unsigned h2] at this
        have hne : hostItems f.name bfs (bfs.map g ++ more) ≠ [] := by
          rw [hostItems_eq, ne_eq, List.map_eq_nil_iff, List.filter_eq_nil_iff]
          exact fun h => h b hbm (by simpa using hbn)
        have hok : hostWord (8 * f.ty.width)
            (BitVec.ofInt 64 (le ((p.drop f.off).take f.ty.width) : Int)).toNat
            (hostItems f.name bfs (bfs.map g ++ more)) = .ok (le ((p.drop f.off).take f.ty.width)) := by
          rw [ofInt_toNat (le_slice_lt_64 p f.off f.ty), hostItems_eq]
          have mem : ∀ x ∈ (bfs.filter fun b => b.host == f.name).map
              (fun b => (⟨(g b).toNat, b.shift, b.width⟩ : BitItem)), ∃ b ∈ bfs, b.host = f.name ∧
              x = ⟨(g b).toNat, b.shift, b.width⟩ := by
            intro x hx
            obtain ⟨c, hc, rfl⟩ := List.mem_map.1 hx
            obtain ⟨hc1, hc2⟩ := List.mem_filter.1 hc
            exact ⟨c, hc1, by simpa using hc2, rfl⟩
          refine hostWord_extract hlt ?_ ?_ ?_
          · intro x hx
            obtain ⟨c, hc, hcn, rfl⟩ := mem x hx
            obtain ⟨-, -, k1, k2, k3⟩ := hb f (by simp) c hc hcn
            exact ⟨k1, k2, by simp only [k3]; exact extract_lt _ _ _⟩
          · rw [List.pairwise_map, List.pairwise_filter]
            refine hp.imp ?_
            intro a b hab hha hhb
            simp only [beq_iff_eq] at hha hhb
            simp only [BitField.apart, hha, hhb, bne_self_eq_false, Bool.false_or, Bool.or_eq_true,
              decide_eq_true_eq] at hab
            exact hab
          · intro x hx
            obtain ⟨c, hc, hcn, rfl⟩ := mem x hx
            exact (hb f (by simp) c hc hcn).2.2.2.2
        rw [hs, List.singleton_append, writeHosts_host hne hok hw8, h1]
        exact hw
      · have hsz : f.size = f.ty.width := by rw [Field.size, h1, Nat.one_mul]
        constructor
        · rintro ⟨h, hh, hx, ha⟩
          rcases List.mem_cons.1 hh with rfl | hh
          · left; rw [hsz] at ha; exact ha
          · exact .inr ⟨h, hh, hx, ha⟩
        · rintro (ha | ⟨h, hh, hx, ha⟩)
          · exact ⟨f, by simp, ⟨b, hbm, hbn⟩, by rw [hsz]; exact ha⟩
          · exact ⟨h, by simp [hh], hx, ha⟩
    · obtain ⟨q', hw, hc⟩ := ih hq
      refine ⟨q', ?_, hc.congr fun a => ?_⟩
      · have hni : hostItems f.name bfs (bfs.map g ++ more) = [] := by
          rw [hostItems_eq, List.map_eq_nil_iff, List.filter_eq_nil_iff]
          intro b hbm hbn
          exact hex ⟨b, hbm, by simpa using hbn⟩
        rw [writeHosts_skip hni, List.drop_left' hl]
        exact hw
      · constructor
        · rintro ⟨h, hh, hx, ha⟩
          rcases List.mem_cons.1 hh with rfl | hh
          · exact absurd hx hex
          · exact ⟨h, hh, hx, ha⟩
        · rintro ⟨h, hh, hx, ha⟩
          exact ⟨h, by simp [hh], hx, ha⟩

/-! ## A whole variant (R210, R212) -/

/-- The word of a bit-field's host in the payload. -/
def hostNat (fs : List Field) (p : List Byte) (b : BitField) : Nat :=
  match findField fs b.host with
  | none => 0
  | some f => le ((p.drop f.off).take f.ty.width)

/-- The values of a packet after the variant index, in the order of R212. -/
def decodedValues (V : Variant) (p : List Byte) (cnt : Nat) : List Int :=
  V.fields.flatMap (fieldScalars p 0) ++
    (V.bitfields.map fun b => (extract (hostNat V.fields p b) b.shift b.width : Int)) ++ [(cnt : Int)] ++
    (List.range cnt).flatMap fun e => V.tail.fields.flatMap (fieldScalars p (V.head + e * V.tail.size))

/-- What R201 promises of one variant. -/
structure SoundVariant (V : Variant) : Prop where
  head : V.head ≤ 255
  fields : ∀ f ∈ V.fields, 1 ≤ f.count ∧ f.off + f.size ≤ V.head
  apart : V.fields.Pairwise fun f g => f.apart g = true
  names : V.fields.Pairwise fun f g => f.name ≠ g.name
  hosts : ∀ b ∈ V.bitfields, ∃ f, findField V.fields b.host = some f ∧ f.count = 1 ∧ f.ty.unsignedInt = true ∧
    1 ≤ b.width ∧ b.shift + b.width ≤ 8 * f.ty.width
  masks : V.bitfields.Pairwise fun b c => b.apart c = true
  tail : V.tail.variable = true → 1 ≤ V.tail.size
  elements : ∀ f ∈ V.tail.fields, 1 ≤ f.count ∧ f.off + f.size ≤ V.tail.size
  elementsApart : V.tail.fields.Pairwise fun f g => f.apart g = true
  counter : ∀ name size ef, V.tail = .cnt name size ef →
    ∃ f, findField V.fields name = some f ∧ f.count = 1 ∧ f.ty.unsignedInt = true

theorem soundVariant_of_wf {V : Variant} (h : V.wf = true) : SoundVariant V := by
  simp only [Variant.wf, Bool.and_eq_true, decide_eq_true_eq, fieldsFit_iff, allPairs_iff, bne_iff_ne,
    List.all_eq_true] at h
  obtain ⟨⟨⟨⟨⟨h1, h2, h3⟩, h4⟩, h5⟩, h6⟩, h7⟩ := h
  refine ⟨h1, h2, h3, h4, ?_, h6, Tail.size_pos h7, ?_, ?_, ?_⟩
  · intro b hb
    have := h5 b hb
    unfold BitField.legal at this
    cases hf : findField V.fields b.host with
    | none => rw [hf] at this; cases this
    | some f =>
      rw [hf] at this
      simp only [Bool.and_eq_true, decide_eq_true_eq, refersToUnsigned_iff, hf, Option.some.injEq,
        exists_eq_left'] at this
      exact ⟨f, rfl, this.1.1.1, this.1.1.2, this.1.2, this.2⟩
  · cases ht : V.tail with
    | none => simp [Tail.fields]
    | len size ef =>
      rw [ht] at h7
      simp only [Tail.wf, Bool.and_eq_true, fieldsFit_iff] at h7
      exact h7.2.1
    | cnt name size ef =>
      rw [ht] at h7
      simp only [Tail.wf, Bool.and_eq_true, fieldsFit_iff] at h7
      exact h7.1.2.1
  · cases ht : V.tail with
    | none => simp [Tail.fields]
    | len size ef =>
      rw [ht] at h7
      simp only [Tail.wf, Bool.and_eq_true, fieldsFit_iff] at h7
      exact h7.2.2
    | cnt name size ef =>
      rw [ht] at h7
      simp only [Tail.wf, Bool.and_eq_true, fieldsFit_iff] at h7
      exact h7.1.2.2
  · intro name size ef ht
    rw [ht] at h7
    simp only [Tail.wf, Bool.and_eq_true, refersToUnsigned_iff] at h7
    exact h7.2

/-- The fixed fields are read whole where the variant accepts the payload. -/
theorem readFields_variant {V : Variant} {p : List Byte} (hV : SoundVariant V) (hp : V.head ≤ p.length) :
    readFields p 0 V.fields = some (V.fields.flatMap (fieldScalars p 0)) :=
  readFields_eq fun f hf => by have := (hV.fields f hf).2; omega

theorem readBitFields_variant {V : Variant} {p : List Byte} (hV : SoundVariant V) :
    readBitFields V.fields (V.fields.flatMap (fieldScalars p 0)) V.bitfields
      = some (V.bitfields.map fun b => (extract (hostNat V.fields p b) b.shift b.width : Int)) := by
  rw [readBitFields_eq (fun b => (hostNat V.fields p b : Int))]
  · rfl
  · intro b hb
    obtain ⟨f, hf, hc, hu, -⟩ := hV.hosts b hb
    rw [fieldValue_read hf (by omega), scalarValue_unsigned hu, hostNat, hf, Nat.zero_add]

/-- The tail count that CODEC_DECODE computes (R210). -/
theorem tailCount_variant {V : Variant} {p : List Byte} {cnt : Nat} (hV : SoundVariant V)
    (h : match V.tail with
      | .none => cnt = 0
      | .len size _ => cnt = (p.length - V.head) / size
      | .cnt name _ _ => ∃ f, findField V.fields name = some f ∧ cnt = le ((p.drop f.off).take f.ty.width)) :
    tailCount V p.length (V.fields.flatMap (fieldScalars p 0)) = some cnt := by
  unfold tailCount
  cases ht : V.tail with
  | none => rw [ht] at h; rw [h]
  | len size ef => rw [ht] at h; rw [h]
  | cnt name size ef =>
    rw [ht] at h
    obtain ⟨f, hf, rfl⟩ := h
    obtain ⟨f', hf', hc, hu⟩ := hV.counter name size ef ht
    rw [hf] at hf'
    cases hf'
    simp [fieldValue_read hf (by omega : 1 ≤ f.count), scalarValue_unsigned hu]

/-- A payload that the variant accepts and whose count fits is decoded to its values (R210, R212). -/
theorem decodeVariant_ok {V : Variant} {p : List Byte} {cnt : Nat} (hV : SoundVariant V)
    (ha : V.accepts p.length = true) (hc : TailCount V p cnt) :
    decodeVariant V p = .ok (decodedValues V p cnt) ∧ V.head + cnt * V.tail.size ≤ p.length := by
  have hh := Variant.head_le ha
  have hfit : V.head + cnt * V.tail.size ≤ p.length := by
    unfold TailCount at hc
    cases ht : V.tail with
    | none => simp [Tail.size, hh]
    | len size ef =>
      rw [ht] at hc
      have := Nat.div_mul_le_self (p.length - V.head) size
      simp only [Tail.size, hc]
      omega
    | cnt name size ef => rw [ht] at hc; exact hc.2
  have htc : tailCount V p.length (V.fields.flatMap (fieldScalars p 0)) = some cnt := by
    refine tailCount_variant hV ?_
    unfold TailCount at hc
    cases ht : V.tail with
    | none => rw [ht] at hc; exact hc
    | len size ef => rw [ht] at hc; exact hc
    | cnt name size ef => rw [ht] at hc; exact hc.1
  refine ⟨?_, hfit⟩
  rw [decodeVariant, readFields_variant hV hh]
  simp only [readBitFields_variant hV, htc]
  rw [readElements_ok (fun f hf => (hV.elements f hf).2) hfit]
  rfl

/-- A `CNT` count that reaches past the payload is refused (R210, R211). -/
theorem decodeVariant_overrun {V : Variant} {p : List Byte} {name : String} {size : Nat} {ef : List Field}
    {f : Field} (hV : SoundVariant V) (ha : V.accepts p.length = true) (ht : V.tail = .cnt name size ef)
    (hf : findField V.fields name = some f)
    (hc : p.length < V.head + le ((p.drop f.off).take f.ty.width) * size) :
    decodeVariant V p = .error (.refuse .countOverrun) := by
  have hh := Variant.head_le ha
  have htc : tailCount V p.length (V.fields.flatMap (fieldScalars p 0))
      = some (le ((p.drop f.off).take f.ty.width)) := by
    refine tailCount_variant hV ?_
    rw [ht]
    exact ⟨f, hf, rfl⟩
  rw [decodeVariant, readFields_variant hV hh]
  simp only [readBitFields_variant hV, htc]
  rw [readElements_overrun (fun g hg => (hV.elements g hg).2) hh (by rw [ht]; exact hc)]

/-- The variant that accepts the payload is the one selected, whatever table of well-formed layouts (R202). -/
theorem selectFrom_variant {P : Config} {k : Byte} {L : Layout} {V : Variant} {n len : Nat} (hw : P.wf = true)
    (hk : P.layout k = some L) (hn : L.variants[n]? = some V) (ha : V.accepts len = true) :
    selectFrom len L.variants 0 = some (n, V) ∧ SoundVariant V := by
  have hL := Config.layout_wf hw hk
  refine ⟨?_, soundVariant_of_wf (Layout.variant_wf hL (List.mem_of_getElem? hn))⟩
  simpa using selectFrom_of_unique ((Layout.variants_apart hL).imp fun {a b} h => h len) hn ha 0

/-- What CODEC_DECODE answers for a payload that a variant accepts and whose count fits (R210). -/
theorem execCodecDecode_ok {s : State} {k : Byte} {L : Layout} {V : Variant} {n : Nat} {h : Header}
    {p : List Byte} {cnt : Nat} (hw : s.cfg.wf = true) (hk : s.cfg.layout k = some L)
    (hn : L.variants[n]? = some V) (hid : h.id = L.pid) (ha : V.accepts p.length = true)
    (hc : TailCount V p cnt) :
    execCodecDecode k h p s = .next
      (okAfter s (valuesData ((n : Int) :: decodedValues V p cnt) (Config.freeValueCount L p))) := by
  obtain ⟨hs, hV⟩ := selectFrom_variant hw hk hn ha
  simp only [execCodecDecode, hk, decodeLayout, hid, ne_eq, not_true, if_false, hs, (decodeVariant_ok hV ha hc).1]
  rfl

theorem decodedValues_length (V : Variant) (p : List Byte) (cnt : Nat) :
    (decodedValues V p cnt).length
      = fieldValues V.fields + V.bitfields.length + 1 + cnt * fieldValues V.tail.fields := by
  simp [decodedValues, fieldValues, List.length_flatMap]
  omega

end Sys2Proof.Machine
end

