-- ==== Sys2Proof/Laws/PerInstr.lean ====
section
/-! SUPPORT. Facts about each command as syntax, one lemma per constructor. -/

namespace Sys2Proof.Laws.EncodedLength

open Sys2Proof.Machine

/-- The length that R72 reads from a command's opcode and count field is the number of bytes the command has. -/
def Statement (i : Instr) : Prop := i.wf = true → commandLength (encode i) = (encode i).length

/-- The count field of `n` bytes or values. -/
theorem count_field {n : Nat} (h : n < 65536) : n % 256 + 256 * (n / 256 % 256) = n := by omega

theorem leBytes_two (n : Nat) : leBytes 2 n = [BitVec.ofNat 8 n, BitVec.ofNat 8 (n / 256)] := rfl

theorem addData (d : List Byte) : Statement (.addData d) := by
  intro h
  have hn : d.length < 65536 := by simpa [Instr.wf, fitsU16] using h
  simp [encode, encodeData, leBytes_two, commandLength, formatOf, u16At, byteAt]
  omega

theorem decode : Statement .decode := fun _ => rfl

theorem readCrcErrors : Statement .readCrcErrors := fun _ => rfl

theorem readStatus : Statement .readStatus := fun _ => rfl

theorem reset : Statement .reset := fun _ => rfl

theorem encode (id length : Byte) (p : List Byte) : Statement (.encode id length p) := by
  intro h
  have hn : p.length < 65536 := by simpa [Instr.wf, fitsU16] using h
  simp [Sys2Proof.encode, encodeData, leBytes_two, commandLength, formatOf, u16At, byteAt]
  omega

theorem toBytes (hd : Header) (p : List Byte) : Statement (.toBytes hd p) := by
  intro h
  have hn : p.length < 65536 := by simpa [Instr.wf, fitsU16] using h
  simp [Sys2Proof.encode, encodeData, Header.toBytes, leBytes_two, commandLength, formatOf, u16At, byteAt]
  omega

theorem lrc (b0 b1 b2 b3 : Byte) : Statement (.lrc b0 b1 b2 b3) := fun _ => rfl

theorem crc16 (d : List Byte) : Statement (.crc16 d) := by
  intro h
  have hn : d.length < 65536 := by simpa [Instr.wf, fitsU16] using h
  simp [Sys2Proof.encode, encodeData, leBytes_two, commandLength, formatOf, u16At, byteAt]
  omega

theorem codecDecode (k : Byte) (hd : Header) (p : List Byte) : Statement (.codecDecode k hd p) := by
  intro h
  have hn : p.length < 65536 := by simpa [Instr.wf, fitsU16] using h
  simp [Sys2Proof.encode, encodeData, Header.toBytes, leBytes_two, commandLength, formatOf, u16At, byteAt]
  omega

theorem codecEncode (k : Byte) (v : List Word64) : Statement (.codecEncode k v) := by
  intro h
  have hn : v.length < 65536 := by simpa [Instr.wf, fitsU16] using h
  have hl : (v.flatMap fun x => leBytes 8 x.toNat).length = 8 * v.length := by
    induction v with
    | nil => rfl
    | cons x v _ =>
      simp [List.length_flatMap]
      omega
  simp only [Sys2Proof.encode, leBytes_two, commandLength, formatOf, u16At, byteAt, List.length_cons,
    List.length_append, List.length_nil, hl]
  simp
  omega

theorem rdScalar (ty : Byte) (off : Word16) (d : List Byte) : Statement (.rdScalar ty off d) := by
  intro h
  have hn : d.length < 65536 := by simpa [Instr.wf, fitsU16] using h
  simp [Sys2Proof.encode, encodeData, leBytes_two, commandLength, formatOf, u16At, byteAt]
  omega

theorem bfExtract (w : Byte) (word : List Byte) (shift nbits : Byte) :
    Statement (.bfExtract w word shift nbits) := by
  intro h
  have hn : word.length = w.toNat := by simpa [Instr.wf] using h
  simp [Sys2Proof.encode, commandLength, formatOf, byteAt, hn]
  omega

theorem bfPack (w : Byte) (items : List PackItem) : Statement (.bfPack w items) := by
  intro h
  have hn : items.length < 256 := by simpa [Instr.wf] using h
  have hl : (items.flatMap encodeItem).length = 10 * items.length := by
    simp [List.length_flatMap, encodeItem]
    omega
  simp only [Sys2Proof.encode, commandLength, formatOf, byteAt, List.length_cons, hl]
  simp
  omega

end Sys2Proof.Laws.EncodedLength
end

