-- ==== Sys2Proof/Laws/Write.lean ====
section
/-! SUPPORT. What CODEC_ENCODE's writing operations do with any values (43_codec.md R182, R184, R215, R216). -/

namespace Sys2Proof.Machine

/-! ## Slices -/

/-- Two byte sequences that agree on a range have the same slice there. -/
theorem slice_congr {p q : List Byte} {off n : Nat} (h : ∀ a, off ≤ a → a < off + n → p[a]? = q[a]?) :
    (p.drop off).take n = (q.drop off).take n := by
  apply List.ext_getElem?
  intro i
  rw [List.getElem?_take, List.getElem?_take]
  split
  · rw [List.getElem?_drop, List.getElem?_drop]
    exact h _ (by omega) (by omega)
  · rfl

theorem slice_overlay {p : List Byte} {pos : Nat} {bs : List Byte} (h : pos + bs.length ≤ p.length) :
    ((overlay p pos bs).drop pos).take bs.length = bs := by
  apply List.ext_getElem?
  intro i
  rw [List.getElem?_take]
  split
  · rw [List.getElem?_drop, overlay_getElem? h, if_pos (by omega)]
    congr 1
    omega
  · rw [List.getElem?_eq_none (by omega)]

/-- `q'` is `q` but for the bytes at the places `S`. -/
structure Written (q q' : List Byte) (S : Nat → Prop) : Prop where
  length : q'.length = q.length
  outside : ∀ a, ¬ S a → q'[a]? = q[a]?

theorem Written.refl (q : List Byte) (S : Nat → Prop) : Written q q S := ⟨rfl, fun _ _ => rfl⟩

theorem Written.trans {q q' q'' : List Byte} {S T U : Nat → Prop} (h : Written q q' S) (h' : Written q' q'' T)
    (hU : ∀ a, S a ∨ T a → U a) : Written q q'' U :=
  ⟨h'.length.trans h.length, fun a ha =>
    (h'.outside a fun hT => ha (hU a (.inr hT))).trans (h.outside a fun hS => ha (hU a (.inl hS)))⟩

theorem written_overlay {p : List Byte} {pos : Nat} {bs : List Byte} (h : pos + bs.length ≤ p.length) :
    Written p (overlay p pos bs) fun a => pos ≤ a ∧ a < pos + bs.length :=
  ⟨overlay_length h, fun a ha => by rw [overlay_getElem? h, if_neg ha]⟩

/-- A slice that the write does not touch is as before. -/
theorem Written.slice {q q' : List Byte} {S : Nat → Prop} (h : Written q q' S) {off n : Nat}
    (ha : ∀ a, off ≤ a → a < off + n → ¬ S a) : (q'.drop off).take n = (q.drop off).take n :=
  slice_congr fun a h1 h2 => h.outside a (ha a h1 h2)

/-! ## Scalars and arrays -/

/-- The bytes written for a word are its low bytes (R75, R182, R215). -/
theorem writeScalar_slot {ty : ScalarType} {v : Word64} {bs : List Byte}
    (h : writeScalar (slotValue ty v) ty = .ok bs) : bs = (leBytes 8 v.toNat).take ty.width := by
  have hw := ScalarType.width_le ty
  have htake : (leBytes 8 v.toNat).take ty.width = leBytes ty.width v.toNat := by
    conv_lhs => rw [show 8 = ty.width + (8 - ty.width) by omega, leBytes_append]
    exact List.take_left' (leBytes_length _ _)
  have hmod : slotValue ty v % 2 ^ (8 * ty.width) = ((v.toNat % 2 ^ (8 * ty.width) : Nat) : Int) := by
    have hd : (2 : Int) ^ (8 * ty.width) ∣ 2 ^ 64 := pow_dvd_pow 2 (by omega)
    unfold slotValue
    split
    · rw [Int.natCast_emod, BitVec.toInt_eq_toNat_bmod, Int.bmod_def]
      simp only [Nat.cast_pow, Nat.cast_ofNat]
      split
      · rw [Int.emod_emod_of_dvd _ hd]
      · rw [Int.sub_emod, Int.emod_emod_of_dvd _ hd, Int.emod_eq_zero_of_dvd hd, sub_zero, Int.emod_emod_of_dvd _ (dvd_refl _)]
    · simp
  unfold writeScalar at h
  split at h
  · injection h with h
    rw [← h, htake, hmod, Int.toNat_natCast, show (2 : Nat) ^ (8 * ty.width) = 256 ^ ty.width by
      rw [pow_mul]; norm_num, leBytes_mod]
  · cases h

/-- Writing an array: it fails only with VALUE_RANGE, and otherwise each element's bytes are the low bytes of its
value, and no other byte changes. -/
theorem writeArray_spec {ty : ScalarType} {vs : List Word64} {off : Nat} {q : List Byte}
    (h : off + vs.length * ty.width ≤ q.length) :
    writeArray ty vs off q = .error .valueRange ∨
      ∃ q', writeArray ty vs off q = .ok q' ∧
        Written q q' (fun a => off ≤ a ∧ a < off + vs.length * ty.width) ∧
        ∀ j x, vs[j]? = some x →
          (q'.drop (off + j * ty.width)).take ty.width = (leBytes 8 x.toNat).take ty.width := by
  induction vs generalizing off q with
  | nil => exact .inr ⟨q, rfl, Written.refl _ _, by simp⟩
  | cons v vs ih =>
    rw [List.length_cons, Nat.succ_mul] at h
    rw [writeArray]
    cases hs : writeScalar (slotValue ty v) ty with
    | error c => exact .inl (by rw [(writeScalar_eq_error hs).2])
    | ok bs =>
      have hl := (writeScalar_eq_ok hs).2
      have hfit : off + bs.length ≤ q.length := by omega
      simp only
      rcases ih (off := off + ty.width) (q := overlay q off bs) (by rw [overlay_length hfit]; omega) with he | he
      · exact .inl he
      · obtain ⟨q', hq', hw, hv⟩ := he
        refine .inr ⟨q', hq', (written_overlay hfit).trans hw fun a => ?_, fun j x hj => ?_⟩
        · rw [hl, List.length_cons, Nat.succ_mul]
          omega
        · cases j with
          | zero =>
            simp only [List.getElem?_cons_zero, Option.some.injEq] at hj
            subst hj
            rw [Nat.zero_mul, Nat.add_zero, hw.slice (by omega), ← writeScalar_slot hs]
            conv_lhs => rw [← hl]
            exact slice_overlay hfit
          | succ j =>
            rw [List.getElem?_cons_succ] at hj
            have := hv j x hj
            rwa [show off + (j + 1) * ty.width = off + ty.width + j * ty.width by rw [Nat.succ_mul]; omega]

/-- The bytes of one element of a field. -/
def elementAt (q : List Byte) (base : Nat) (f : Field) (j : Nat) : List Byte :=
  (q.drop (base + f.off + j * f.ty.width)).take f.ty.width

/-- Writing fields: it fails only with VALUE_RANGE, and otherwise each element of each field holds the low bytes of
its value, and no byte outside the fields changes. -/
theorem writeFields_spec {base : Nat} {fs : List Field} {vals : List Word64} {q : List Byte}
    (hf : ∀ f ∈ fs, base + f.off + f.size ≤ q.length) (ha : fs.Pairwise fun f g => f.apart g = true) :
    writeFields base fs vals q = .error .valueRange ∨
      ∃ q', writeFields base fs vals q = .ok q' ∧
        Written q q' (fun a => ∃ f ∈ fs, base + f.off ≤ a ∧ a < base + f.off + f.size) ∧
        ∀ pre f post j x, fs = pre ++ f :: post → j < f.count → vals[fieldValues pre + j]? = some x →
          elementAt q' base f j = (leBytes 8 x.toNat).take f.ty.width := by
  induction fs generalizing vals q with
  | nil => exact .inr ⟨q, rfl, Written.refl _ _, by simp⟩
  | cons f fs ih =>
    obtain ⟨ha1, ha2⟩ := List.pairwise_cons.1 ha
    have hlen : (vals.take f.count).length ≤ f.count := by simp
    have hsz : (vals.take f.count).length * f.ty.width ≤ f.size := Nat.mul_le_mul_right _ hlen
    have hfit := hf f (by simp)
    rw [writeFields]
    rcases writeArray_spec (ty := f.ty) (vs := vals.take f.count) (off := base + f.off) (q := q) (by omega)
      with he | ⟨q1, hq1, hw1, hv1⟩
    · exact .inl (by rw [he])
    · rw [hq1]
      simp only
      rcases ih (vals := vals.drop f.count) (q := q1) (fun g hg => by rw [hw1.length]; exact hf g (by simp [hg])) ha2
        with he | ⟨q2, hq2, hw2, hv2⟩
      · exact .inl he
      · refine .inr ⟨q2, hq2, hw1.trans hw2 ?_, ?_⟩
        · rintro a (⟨h1, h2⟩ | ⟨g, hg, hga⟩)
          · exact ⟨f, by simp, h1, by omega⟩
          · exact ⟨g, by simp [hg], hga⟩
        · intro pre g post j x hsplit hj hx
          cases pre with
          | nil =>
            rw [List.nil_append] at hsplit
            injection hsplit with hfg hrest
            subst hfg
            rw [show fieldValues [] + j = j by simp [fieldValues]] at hx
            have hin : (vals.take f.count)[j]? = some x := by rw [List.getElem?_take, if_pos hj, hx]
            have hjw : j * f.ty.width + f.ty.width ≤ f.size := by
              rw [← Nat.succ_mul]
              exact Nat.mul_le_mul_right _ hj
            rw [elementAt, hw2.slice, hv1 j x hin]
            rintro a h1 h2 ⟨g, hg, h3, h4⟩
            have := ha1 g hg
            simp only [Field.apart, Bool.or_eq_true, decide_eq_true_eq] at this
            omega
          | cons f' pre =>
            rw [List.cons_append] at hsplit
            injection hsplit with hfg hrest
            subst hfg
            refine hv2 pre g post j x hrest hj ?_
            rw [List.getElem?_drop, ← hx]
            congr 1
            simp [fieldValues]
            omega

/-! ## Hosts -/

/-- Items of legal geometry that do not overlap fail only by a value (R192). -/
theorem packFrom_error {W : Nat} {items : List BitItem} (x : Nat) (seen : List BitItem) (hs : ∀ i ∈ seen, 1 ≤ i.k)
    (hg : ∀ i ∈ items, 1 ≤ i.k ∧ i.s + i.k ≤ W) (ha : ∀ i ∈ seen, ∀ j ∈ items, i.Apart j)
    (hp : items.Pairwise BitItem.Apart) :
    packFrom W items x (unionMask seen) = .error .valueRange ∨ ∀ i ∈ items, i.v < 2 ^ i.k := by
  induction items generalizing x seen with
  | nil => exact .inr (by simp)
  | cons i items ih =>
    obtain ⟨h1, h2⟩ := hg i (by simp)
    obtain ⟨hp1, hp2⟩ := List.pairwise_cons.1 hp
    have hm : unionMask seen &&& bitMask i.s i.k = 0 :=
      (and_unionMask_eq_zero h1 hs).2 fun j hj => ha j hj i (by simp)
    rw [packFrom, if_neg (by simp [bitFieldLegal, h1, h2]), if_neg (by simp [hm])]
    by_cases hv : 2 ^ i.k ≤ i.v
    · exact .inl (if_pos hv)
    · rw [if_neg hv, Nat.or_comm (unionMask seen)]
      rcases ih (x ||| i.v <<< i.s) (i :: seen) (by simpa [h1] using hs) (fun j hj => hg j (by simp [hj]))
        (by
          intro a haa j hj
          rcases List.mem_cons.1 haa with rfl | haa
          · exact hp1 j hj
          · exact ha a haa j (by simp [hj]))
        hp2 with he | he
      · exact .inl he
      · exact .inr (by simpa [Nat.not_le.1 hv] using he)

/-- The word of a host whose bit-fields are legal: it fails only with VALUE_RANGE (R215, R216). -/
theorem hostWord_spec {W value : Nat} {items : List BitItem} (hg : ∀ i ∈ items, 1 ≤ i.k ∧ i.s + i.k ≤ W)
    (hp : items.Pairwise BitItem.Apart) :
    hostWord W value items = .error .valueRange ∨
      (∀ i ∈ items, i.Ok W) ∧
        hostWord W value items = .ok ((value &&& ((2 ^ W - 1) ^^^ unionMask items)) ||| packWord items) := by
  rcases packFrom_error (W := W) 0 [] (by simp) hg (by simp) hp with he | he
  · left
    rw [hostWord, pack, show (0 : Nat) = unionMask [] from rfl]
    rw [show unionMask [] = 0 from rfl] at he ⊢
    rw [he]
  · right
    have hok : ∀ i ∈ items, i.Ok W := fun i hi => ⟨(hg i hi).1, (hg i hi).2, he i hi⟩
    exact ⟨hok, hostWord_ok hok hp⟩

/-- The bits of a host's word: an item's value at its place, the host's own bits elsewhere (R216). -/
theorem hostWord_bits {W value : Nat} {items : List BitItem} (hg : ∀ i ∈ items, i.Ok W)
    (hp : items.Pairwise BitItem.Apart) :
    (∀ i ∈ items, extract ((value &&& ((2 ^ W - 1) ^^^ unionMask items)) ||| packWord items) i.s i.k = i.v) ∧
      ∀ j, j < W → (∀ i ∈ items, j < i.s ∨ i.s + i.k ≤ j) →
        ((value &&& ((2 ^ W - 1) ^^^ unionMask items)) ||| packWord items).testBit j = value.testBit j := by
  constructor
  · intro i hi
    rw [← extract_packWord hg hp hi]
    apply Nat.eq_of_testBit_eq
    intro j
    rw [extract_testBit, extract_testBit, Nat.testBit_or, Nat.testBit_and, Nat.testBit_xor,
      Nat.testBit_two_pow_sub_one, unionMask_testBit]
    by_cases hj : j < i.k
    · have hin : (items.any fun x => decide (x.s ≤ i.s + j) && decide (i.s + j < x.s + x.k)) = true := by
        rw [List.any_eq_true]
        exact ⟨i, hi, by simp [hj]⟩
      have hW : i.s + j < W := by have := (hg i hi).2.1; omega
      rw [hin]
      simp [hW]
    · simp [hj]
  · intro j hj hout
    rw [Nat.testBit_or, Nat.testBit_and, Nat.testBit_xor, Nat.testBit_two_pow_sub_one, unionMask_testBit,
      packWord_testBit]
    have h1 : (items.any fun i => decide (i.s ≤ j) && decide (j < i.s + i.k)) = false := by
      rw [Bool.eq_false_iff, ne_eq, List.any_eq_true]
      rintro ⟨i, hi, hb⟩
      simp only [Bool.and_eq_true, decide_eq_true_eq] at hb
      have := hout i hi
      omega
    have h2 : (items.any fun i => (i.v <<< i.s).testBit j) = false := by
      rw [Bool.eq_false_iff, ne_eq, List.any_eq_true]
      rintro ⟨i, hi, hb⟩
      rw [shiftLeft_testBit_of_lt (hg i hi).2.2] at hb
      simp only [Bool.and_eq_true, decide_eq_true_eq] at hb
      have := hout i hi
      omega
    rw [h1, h2]
    simp [hj]

/-- Writing the hosts: it fails only with VALUE_RANGE; otherwise each host holds its word, and no byte outside the
hosts changes (R215, R216). -/
theorem writeHosts_spec {fs : List Field} {bfs : List BitField} {bvals vals : List Word64} {q : List Byte}
    (hf : ∀ f ∈ fs, f.off + f.size ≤ q.length) (ha : fs.Pairwise fun f g => f.apart g = true)
    (hc : ∀ f ∈ fs, hostItems f.name bfs bvals ≠ [] → f.count = 1 ∧ f.ty.unsignedInt = true)
    (hg : ∀ f ∈ fs, ∀ i ∈ hostItems f.name bfs bvals, 1 ≤ i.k ∧ i.s + i.k ≤ 8 * f.ty.width)
    (hp : ∀ f ∈ fs, (hostItems f.name bfs bvals).Pairwise BitItem.Apart) :
    writeHosts bfs bvals fs vals q = .error .valueRange ∨
      ∃ q', writeHosts bfs bvals fs vals q = .ok q' ∧
        Written q q' (fun a => ∃ f ∈ fs, hostItems f.name bfs bvals ≠ [] ∧ f.off ≤ a ∧ a < f.off + f.size) ∧
        ∀ pre f post x, fs = pre ++ f :: post → hostItems f.name bfs bvals ≠ [] → vals[fieldValues pre]? = some x →
          (∀ i ∈ hostItems f.name bfs bvals, i.Ok (8 * f.ty.width)) ∧
          le (elementAt q' 0 f 0)
            = (x.toNat &&& ((2 ^ (8 * f.ty.width) - 1) ^^^ unionMask (hostItems f.name bfs bvals)))
                ||| packWord (hostItems f.name bfs bvals) := by
  induction fs generalizing vals q with
  | nil => exact .inr ⟨q, rfl, Written.refl _ _, by simp⟩
  | cons f fs ih =>
    obtain ⟨ha1, ha2⟩ := List.pairwise_cons.1 ha
    have ih := fun {q} (vals : List Word64) (hl : ∀ f ∈ fs, f.off + f.size ≤ q.length) =>
      ih (vals := vals) (q := q) hl ha2 (fun h hh => hc h (by simp [hh])) (fun h hh => hg h (by simp [hh]))
        fun h hh => hp h (by simp [hh])
    have shift : ∀ (pre : List Field) (x : Word64), vals[fieldValues (f :: pre)]? = some x →
        (vals.drop f.count)[fieldValues pre]? = some x := by
      intro pre x hx
      rw [List.getElem?_drop, ← hx]
      congr 1
    by_cases hne : hostItems f.name bfs bvals = []
    · rw [writeHosts_skip hne]
      rcases ih (q := q) (vals.drop f.count) (fun g hg => hf g (by simp [hg])) with he | ⟨q', hq', hw, hv⟩
      · exact .inl he
      · refine .inr ⟨q', hq', ⟨hw.length, fun a hna => hw.outside a ?_⟩, ?_⟩
        · rintro ⟨g, hg, h1, h2⟩
          exact hna ⟨g, by simp [hg], h1, h2⟩
        · intro pre g post x hsplit hgi hx
          cases pre with
          | nil =>
            rw [List.nil_append] at hsplit
            injection hsplit with hfg hrest
            subst hfg
            exact absurd hne hgi
          | cons f' pre =>
            rw [List.cons_append] at hsplit
            injection hsplit with hfg hrest
            subst hfg
            exact hv pre g post x hrest hgi (shift pre x hx)
    · obtain ⟨h1, hu⟩ := hc f (by simp) hne
      have hsz : f.size = f.ty.width := by rw [Field.size, h1, Nat.one_mul]
      have hfit := hf f (by simp)
      cases vals with
      | nil =>
        -- no value for the host: the list of values is too short
        have hstep : writeHosts bfs bvals (f :: fs) [] q = writeHosts bfs bvals fs [] q := by
          conv_lhs => unfold writeHosts
          cases hostItems f.name bfs bvals <;> simp
        rw [hstep]
        rcases ih (q := q) [] (fun g hg => hf g (by simp [hg])) with he | ⟨q', hq', hw, hv⟩
        · exact .inl he
        · refine .inr ⟨q', hq', ⟨hw.length, fun a hna => hw.outside a ?_⟩, by simp⟩
          rintro ⟨g, hg, h1, h2⟩
          exact hna ⟨g, by simp [hg], h1, h2⟩
      | cons v vs =>
        rcases hostWord_spec (W := 8 * f.ty.width) (value := v.toNat) (hg f (by simp)) (hp f (by simp))
          with he | ⟨hok, hword⟩
        · left
          conv_lhs => unfold writeHosts
          cases hi : hostItems f.name bfs bvals with
          | nil => exact absurd hi hne
          | cons i is =>
            rw [hi] at he
            simp only [he]
        · generalize hx0 : (v.toNat &&& ((2 ^ (8 * f.ty.width) - 1) ^^^ unionMask (hostItems f.name bfs bvals)))
            ||| packWord (hostItems f.name bfs bvals) = x0 at hword
          cases hs : writeScalar (x0 : Int) f.ty with
          | error c =>
            left
            conv_lhs => unfold writeHosts
            cases hi : hostItems f.name bfs bvals with
            | nil => exact absurd hi hne
            | cons i is =>
              rw [hi] at hword
              simp only [hword, hs]
              rw [(writeScalar_eq_error hs).2]
          | ok bs =>
            obtain ⟨hfits, hl⟩ := writeScalar_eq_ok hs
            have hbfit : f.off + bs.length ≤ q.length := by omega
            rw [writeHosts_host hne hword hs]
            rcases ih (q := overlay q f.off bs) ((v :: vs).drop f.count)
              (fun g hg => by rw [overlay_length hbfit]; exact hf g (by simp [hg])) with he | ⟨q', hq', hw, hv⟩
            · exact .inl he
            · refine .inr ⟨q', hq', (written_overlay hbfit).trans hw ?_, ?_⟩
              · rintro a (h | ⟨g, hg, h2, h3⟩)
                · exact ⟨f, by simp, hne, by omega⟩
                · exact ⟨g, by simp [hg], h2, h3⟩
              · intro pre g post x hsplit hgi hx
                cases pre with
                | nil =>
                  rw [List.nil_append] at hsplit
                  injection hsplit with hfg hrest
                  subst hfg
                  simp only [fieldValues, List.map_nil, List.sum_nil, List.getElem?_cons_zero,
                    Option.some.injEq] at hx
                  subst hx
                  refine ⟨hok, ?_⟩
                  rw [hx0, elementAt, Nat.zero_mul, Nat.add_zero, Nat.zero_add, hw.slice]
                  · have hbs := slice_overlay hbfit
                    rw [hl] at hbs
                    rw [hbs]
                    rw [scalarFits_iff] at hfits
                    have hns : f.ty.signed = false := by
                      revert hu
                      cases f.ty <;> simp [ScalarType.signed, ScalarType.unsignedInt]
                    rw [hns] at hfits
                    simp only [Bool.false_eq_true, if_false] at hfits
                    have hlt : x0 < 256 ^ f.ty.width := by
                      rw [show (256 : Nat) ^ f.ty.width = 2 ^ (8 * f.ty.width) by rw [pow_mul]; norm_num]
                      exact_mod_cast hfits.2
                    unfold writeScalar at hs
                    split at hs
                    · injection hs with hs
                      rw [← hs, Int.emod_eq_of_lt hfits.1 hfits.2, Int.toNat_natCast, le_leBytes hlt]
                    · cases hs
                  · rintro a h2 h3 ⟨g, hg, -, h4, h5⟩
                    have := ha1 g hg
                    simp only [Field.apart, Bool.or_eq_true, decide_eq_true_eq] at this
                    omega
                | cons f' pre =>
                  rw [List.cons_append] at hsplit
                  injection hsplit with hfg hrest
                  subst hfg
                  exact hv pre g post x hrest hgi (shift pre x hx)

/-! ## Tail elements -/

/-- Writing tail elements: it fails only with VALUE_RANGE; otherwise each element holds its values, and no byte
outside their fields changes (R215). -/
theorem writeElements_spec {size : Nat} {ef : List Field} {cnt base : Nat} {vals : List Word64} {q : List Byte}
    (hf : ∀ f ∈ ef, f.off + f.size ≤ size) (ha : ef.Pairwise fun f g => f.apart g = true)
    (h : base + cnt * size ≤ q.length) :
    writeElements size ef cnt base vals q = .error .valueRange ∨
      ∃ q', writeElements size ef cnt base vals q = .ok q' ∧
        Written q q' (fun a => ∃ e < cnt, ∃ f ∈ ef,
          base + e * size + f.off ≤ a ∧ a < base + e * size + f.off + f.size) ∧
        ∀ e pre f post j x, e < cnt → ef = pre ++ f :: post → j < f.count →
          vals[e * fieldValues ef + fieldValues pre + j]? = some x →
          elementAt q' (base + e * size) f j = (leBytes 8 x.toNat).take f.ty.width := by
  induction cnt generalizing base vals q with
  | zero => exact .inr ⟨q, rfl, Written.refl _ _, fun e _ _ _ _ _ he => absurd he (by omega)⟩
  | succ cnt ih =>
    rw [Nat.succ_mul] at h
    have shift : ∀ e, base + (e + 1) * size = base + size + e * size := fun e => by rw [Nat.succ_mul]; omega
    rw [writeElements]
    rcases writeFields_spec (base := base) (fs := ef) (vals := vals) (q := q)
      (fun f hm => by have := hf f hm; omega) ha with he | ⟨q1, hq1, hw1, hv1⟩
    · exact .inl (by rw [he])
    · rw [hq1]
      simp only
      rcases ih (base := base + size) (vals := vals.drop (fieldValues ef)) (q := q1)
        (by rw [hw1.length]; omega) with he | ⟨q2, hq2, hw2, hv2⟩
      · exact .inl he
      · refine .inr ⟨q2, hq2, hw1.trans hw2 ?_, ?_⟩
        · rintro a (⟨f, hm, h1⟩ | ⟨e, he, f, hm, h1⟩)
          · exact ⟨0, by omega, f, hm, by simpa using h1⟩
          · exact ⟨e + 1, by omega, f, hm, by rwa [shift]⟩
        · intro e pre f post j x he hsplit hj hx
          cases e with
          | zero =>
            have := hf f (by simp [hsplit])
            have hjw : j * f.ty.width + f.ty.width ≤ f.size := by
              rw [← Nat.succ_mul]
              exact Nat.mul_le_mul_right _ hj
            have := hv1 pre f post j x hsplit hj (by simpa using hx)
            rw [← this]
            simp only [Nat.zero_mul, Nat.add_zero]
            refine hw2.slice ?_
            rintro a h1 h2 ⟨e, -, g, hg, h3, -⟩
            omega
          | succ e =>
            rw [shift]
            refine hv2 e pre f post j x (by omega) hsplit hj ?_
            rw [List.getElem?_drop, ← hx]
            congr 1
            rw [Nat.succ_mul]
            omega

/-! ## A whole payload (R215) -/

/-- The host a bit-field names is the field of that name, with a legal geometry (R200, R201). -/
theorem host_of_name {V : Variant} (hV : SoundVariant V) {f : Field} (hf : f ∈ V.fields) {b : BitField}
    (hb : b ∈ V.bitfields) (hn : b.host = f.name) :
    findField V.fields b.host = some f ∧ f.count = 1 ∧ f.ty.unsignedInt = true ∧ 1 ≤ b.width ∧
      b.shift + b.width ≤ 8 * f.ty.width := by
  obtain ⟨g, h1, h2⟩ := hV.hosts b hb
  have : g = f := by
    obtain ⟨pre, post, hs, hgn, -⟩ := findField_eq_some h1
    by_contra hne
    have hgm : g ∈ V.fields := by rw [hs]; simp
    have : Std.Symm (fun f g : Field => f.name ≠ g.name) := ⟨fun _ _ h => h.symm⟩
    exact hV.names.forall hgm hf hne (hgn.trans hn)
  subst this
  exact ⟨h1, h2⟩

/-- Each item of a host is one of its bit-fields. -/
theorem hostItems_mem {host : String} {bfs : List BitField} {bvals : List Word64} {i : BitItem}
    (hi : i ∈ hostItems host bfs bvals) : ∃ b ∈ bfs, b.host = host ∧ i.s = b.shift ∧ i.k = b.width := by
  induction bfs generalizing bvals with
  | nil => cases bvals <;> simp [hostItems] at hi
  | cons b bfs ih =>
    cases bvals with
    | nil => simp [hostItems] at hi
    | cons v vs =>
      rw [hostItems] at hi
      split at hi
      · rename_i hb
        rcases List.mem_cons.1 hi with rfl | hi
        · exact ⟨b, by simp, by simpa using hb, rfl, rfl⟩
        · obtain ⟨c, hc, h⟩ := ih hi
          exact ⟨c, by simp [hc], h⟩
      · obtain ⟨c, hc, h⟩ := ih hi
        exact ⟨c, by simp [hc], h⟩

theorem hostItems_apart {host : String} {bfs : List BitField} (bvals : List Word64)
    (hp : bfs.Pairwise fun b c => b.apart c = true) : (hostItems host bfs bvals).Pairwise BitItem.Apart := by
  induction bfs generalizing bvals with
  | nil => cases bvals <;> simp [hostItems]
  | cons b bfs ih =>
    obtain ⟨h1, h2⟩ := List.pairwise_cons.1 hp
    cases bvals with
    | nil => simp [hostItems]
    | cons v vs =>
      rw [hostItems]
      split
      · rename_i hb
        refine List.pairwise_cons.2 ⟨?_, ih vs h2⟩
        intro i hi
        obtain ⟨c, hc, hn, hs, hk⟩ := hostItems_mem hi
        have := h1 c hc
        simp only [beq_iff_eq] at hb
        simp only [BitField.apart, hb, hn, bne_self_eq_false, Bool.false_or, Bool.or_eq_true,
          decide_eq_true_eq] at this
        unfold BitItem.Apart
        simp only [hs, hk]
        exact this
      · exact ih vs h2

theorem hostItems_hosted {V : Variant} (hV : SoundVariant V) (bvals : List Word64) :
    (∀ f ∈ V.fields, hostItems f.name V.bitfields bvals ≠ [] → f.count = 1 ∧ f.ty.unsignedInt = true) ∧
      ∀ f ∈ V.fields, ∀ i ∈ hostItems f.name V.bitfields bvals, 1 ≤ i.k ∧ i.s + i.k ≤ 8 * f.ty.width := by
  constructor
  · intro f hf hne
    obtain ⟨i, hi⟩ := List.exists_mem_of_ne_nil _ hne
    obtain ⟨b, hb, hn, -⟩ := hostItems_mem hi
    have := host_of_name hV hf hb hn
    exact ⟨this.2.1, this.2.2.1⟩
  · intro f hf i hi
    obtain ⟨b, hb, hn, hs, hk⟩ := hostItems_mem hi
    have := host_of_name hV hf hb hn
    rw [hs, hk]
    exact this.2.2.2

/-- Building the payload of a well-formed variant: it fails only with VALUE_RANGE, and otherwise it is the zero
bytes with the fields, then the hosts, then the elements written. -/
theorem encodePayload_spec {V : Variant} (hV : SoundVariant V) (cnt : Nat) (vals : List Word64) :
    encodePayload V cnt vals = .error .valueRange ∨
      ∃ q1 q2 q3, writeFields 0 V.fields vals (List.replicate (V.head + cnt * V.tail.size) 0#8) = .ok q1 ∧
        writeHosts V.bitfields (vals.drop (fieldValues V.fields)) V.fields vals q1 = .ok q2 ∧
        writeElements V.tail.size V.tail.fields cnt V.head
          (vals.drop (fieldValues V.fields + V.bitfields.length + 1)) q2 = .ok q3 ∧
        encodePayload V cnt vals = .ok q3 ∧ q1.length = V.head + cnt * V.tail.size ∧ q2.length = q1.length ∧
        q3.length = q2.length := by
  have hl : (List.replicate (V.head + cnt * V.tail.size) 0#8).length = V.head + cnt * V.tail.size := by simp
  have hfit : ∀ f ∈ V.fields, f.off + f.size ≤ V.head + cnt * V.tail.size := fun f hf => by
    have := (hV.fields f hf).2
    omega
  obtain ⟨g1, g2⟩ := hostItems_hosted hV (vals.drop (fieldValues V.fields))
  rcases writeFields_spec (base := 0) (vals := vals) (q := List.replicate (V.head + cnt * V.tail.size) 0#8)
    (by rw [hl]; simpa using hfit) hV.apart with h | ⟨q1, h1, w1, -⟩
  · left
    simp [encodePayload, h]
  rcases writeHosts_spec (bfs := V.bitfields) (bvals := vals.drop (fieldValues V.fields)) (vals := vals) (q := q1)
    (by rw [w1.length, hl]; exact hfit) hV.apart g1 g2 (fun f _ => hostItems_apart _ hV.masks)
    with h | ⟨q2, h2, w2, -⟩
  · left
    simp [encodePayload, h1, h]
  · rcases writeElements_spec (cnt := cnt) (base := V.head)
      (vals := vals.drop (fieldValues V.fields + V.bitfields.length + 1)) (q := q2)
      (fun f hf => (hV.elements f hf).2) hV.elementsApart (by rw [w2.length, w1.length, hl])
      with h | ⟨q3, h3, w3, -⟩
    · left
      simp [encodePayload, h1, h2, h]
    · by_cases hc : countAgrees V vals cnt = false
      · left
        simp [encodePayload, h1, h2, hc]
      · right
        exact ⟨q1, q2, q3, h1, h2, h3, by simp [encodePayload, h1, h2, hc, h3], by rw [w1.length, hl], w2.length,
          w3.length⟩

/-! ## When writing succeeds (R182, R192, R215) -/

theorem slotFits_iff {ty : ScalarType} {x : Word64} : SlotFits ty x ↔ scalarFits ty (slotValue ty x) = true := by
  rw [scalarFits_iff, SlotFits, slotValue]
  split
  · exact Iff.rfl
  · exact ⟨fun h => ⟨Int.natCast_nonneg _, by exact_mod_cast h⟩, fun h => by exact_mod_cast h.2⟩

theorem writeScalar_ok_iff {ty : ScalarType} {x : Word64} :
    (∃ bs, writeScalar (slotValue ty x) ty = .ok bs) ↔ SlotFits ty x := by
  rw [slotFits_iff, writeScalar]
  split <;> simp [*]

/-- An array is written exactly when each of its values fits. -/
theorem writeArray_ok_iff {ty : ScalarType} {vs : List Word64} {off : Nat} {q : List Byte} :
    (∃ q', writeArray ty vs off q = .ok q') ↔ ∀ x ∈ vs, SlotFits ty x := by
  induction vs generalizing off q with
  | nil => simp [writeArray]
  | cons v vs ih =>
    rw [writeArray, List.forall_mem_cons, ← writeScalar_ok_iff (x := v)]
    cases writeScalar (slotValue ty v) ty with
    | error c => simp
    | ok bs => simpa using ih

/-- Fields are written exactly when each of their values fits. -/
theorem writeFields_ok_iff {base : Nat} {fs : List Field} {vals : List Word64} {q : List Byte} :
    (∃ q', writeFields base fs vals q = .ok q') ↔
      ∀ pre f post j x, fs = pre ++ f :: post → j < f.count → vals[fieldValues pre + j]? = some x →
        SlotFits f.ty x := by
  induction fs generalizing vals q with
  | nil => simp [writeFields]
  | cons f fs ih =>
    have split : (∀ pre g post j x, f :: fs = pre ++ g :: post → j < g.count →
          vals[fieldValues pre + j]? = some x → SlotFits g.ty x) ↔
        (∀ x ∈ vals.take f.count, SlotFits f.ty x) ∧
          ∀ pre g post j x, fs = pre ++ g :: post → j < g.count →
            (vals.drop f.count)[fieldValues pre + j]? = some x → SlotFits g.ty x := by
      constructor
      · refine fun h => ⟨fun x hx => ?_, fun pre g post j x hs hj hx => ?_⟩
        · obtain ⟨j, hj⟩ := List.mem_iff_getElem?.1 hx
          rw [List.getElem?_take] at hj
          split at hj
          · exact h [] f fs j x rfl (by assumption) (by simpa [fieldValues] using hj)
          · cases hj
        · refine h (f :: pre) g post j x (by rw [hs, List.cons_append]) hj ?_
          rw [List.getElem?_drop, ← Nat.add_assoc] at hx
          simpa [fieldValues] using hx
      · rintro ⟨h1, h2⟩ pre g post j x hs hj hx
        cases pre with
        | nil =>
          rw [List.nil_append] at hs
          injection hs with hf hs
          subst hf
          refine h1 x (List.mem_iff_getElem?.2 ⟨j, ?_⟩)
          rw [List.getElem?_take, if_pos hj]
          simpa [fieldValues] using hx
        | cons f' pre =>
          rw [List.cons_append] at hs
          injection hs with hf hs
          subst hf
          refine h2 pre g post j x hs hj ?_
          rw [List.getElem?_drop, ← Nat.add_assoc]
          simpa [fieldValues] using hx
    rw [split, writeFields, ← writeArray_ok_iff (ty := f.ty) (off := base + f.off) (q := q)]
    cases writeArray f.ty (vals.take f.count) (base + f.off) q with
    | error c => simp
    | ok q1 =>
      rw [← ih (q := q1)]
      simp

/-- Tail elements are written exactly when each of their values fits. -/
theorem writeElements_ok_iff {size : Nat} {ef : List Field} {cnt base : Nat} {vals : List Word64} {q : List Byte} :
    (∃ q', writeElements size ef cnt base vals q = .ok q') ↔
      ∀ e pre f post j x, e < cnt → ef = pre ++ f :: post → j < f.count →
        vals[e * fieldValues ef + fieldValues pre + j]? = some x → SlotFits f.ty x := by
  induction cnt generalizing base vals q with
  | zero => simp [writeElements]
  | succ cnt ih =>
    have split : (∀ e pre f post j x, e < cnt + 1 → ef = pre ++ f :: post → j < f.count →
          vals[e * fieldValues ef + fieldValues pre + j]? = some x → SlotFits f.ty x) ↔
        (∀ pre f post j x, ef = pre ++ f :: post → j < f.count → vals[fieldValues pre + j]? = some x →
          SlotFits f.ty x) ∧
        ∀ e pre f post j x, e < cnt → ef = pre ++ f :: post → j < f.count →
          (vals.drop (fieldValues ef))[e * fieldValues ef + fieldValues pre + j]? = some x → SlotFits f.ty x := by
      have shift : ∀ e n j, fieldValues ef + (e * fieldValues ef + n + j) = (e + 1) * fieldValues ef + n + j :=
        fun e n j => by rw [Nat.succ_mul]; omega
      constructor
      · refine fun h => ⟨fun pre f post j x hs hj hx => h 0 pre f post j x (by omega) hs hj (by simpa using hx), ?_⟩
        intro e pre f post j x he hs hj hx
        rw [List.getElem?_drop, shift] at hx
        exact h (e + 1) pre f post j x (by omega) hs hj hx
      · rintro ⟨h1, h2⟩ e pre f post j x he hs hj hx
        cases e with
        | zero => exact h1 pre f post j x hs hj (by simpa using hx)
        | succ e => exact h2 e pre f post j x (by omega) hs hj (by rw [List.getElem?_drop, shift]; exact hx)
    rw [split, writeElements, ← writeFields_ok_iff (base := base) (q := q)]
    cases writeFields base ef vals q with
    | error c => simp
    | ok q1 =>
      rw [← ih (base := base + size) (q := q1)]
      simp

/-- The word of a host whose bit-fields are legal is made exactly when each of their values fits. -/
theorem hostWord_ok_iff {W value : Nat} {items : List BitItem} (hg : ∀ i ∈ items, 1 ≤ i.k ∧ i.s + i.k ≤ W)
    (hp : items.Pairwise BitItem.Apart) :
    (∃ x, hostWord W value items = .ok x) ↔ ∀ i ∈ items, i.v < 2 ^ i.k := by
  constructor
  · rintro ⟨x, hx⟩
    rcases hostWord_spec (value := value) hg hp with he | ⟨hok, -⟩
    · rw [he] at hx
      cases hx
    · exact fun i hi => (hok i hi).2.2
  · exact fun h => ⟨_, hostWord_ok (fun i hi => ⟨(hg i hi).1, (hg i hi).2, h i hi⟩) hp⟩

/-- Hosts are written exactly when each value of their bit-fields fits, where every host has its value. -/
theorem writeHosts_ok_iff {fs : List Field} {bfs : List BitField} {bvals vals : List Word64} {q : List Byte}
    (hc : ∀ f ∈ fs, hostItems f.name bfs bvals ≠ [] → f.count = 1 ∧ f.ty.unsignedInt = true)
    (hg : ∀ f ∈ fs, ∀ i ∈ hostItems f.name bfs bvals, 1 ≤ i.k ∧ i.s + i.k ≤ 8 * f.ty.width)
    (hp : ∀ f ∈ fs, (hostItems f.name bfs bvals).Pairwise BitItem.Apart) (hl : fieldValues fs ≤ vals.length) :
    (∃ q', writeHosts bfs bvals fs vals q = .ok q') ↔
      ∀ f ∈ fs, ∀ i ∈ hostItems f.name bfs bvals, i.v < 2 ^ i.k := by
  induction fs generalizing vals q with
  | nil => simp [writeHosts]
  | cons f fs ih =>
    have hl' : fieldValues fs ≤ (vals.drop f.count).length := by
      simp only [fieldValues, List.map_cons, List.sum_cons, List.length_drop] at hl ⊢
      omega
    have ih := fun q => ih (q := q) (fun h hh => hc h (by simp [hh])) (fun h hh => hg h (by simp [hh]))
      (fun h hh => hp h (by simp [hh])) hl'
    rw [List.forall_mem_cons]
    by_cases hne : hostItems f.name bfs bvals = []
    · rw [writeHosts_skip hne, ih, hne]
      simp
    · obtain ⟨h1, hu⟩ := hc f (by simp) hne
      cases vals with
      | nil =>
        simp only [fieldValues, List.map_cons, List.sum_cons, List.length_nil] at hl
        omega
      | cons v vs =>
        have hw := hostWord_ok_iff (value := v.toNat) (hg f (by simp)) (hp f (by simp))
        constructor
        · rintro ⟨q', hq'⟩
          cases hi : hostItems f.name bfs bvals with
          | nil => exact absurd hi hne
          | cons i is =>
            unfold writeHosts at hq'
            simp only [hi] at hq'
            split at hq'
            · cases hq'
            · rename_i hv hhv
              split at hq'
              · cases hq'
              · rw [hi] at hw
                exact ⟨hw.1 ⟨hv, hhv⟩, (ih _).1 ⟨q', hq'⟩⟩
        · rintro ⟨h2, h3⟩
          have hok : ∀ i ∈ hostItems f.name bfs bvals, i.Ok (8 * f.ty.width) := fun i hi =>
            ⟨(hg f (by simp) i hi).1, (hg f (by simp) i hi).2, h2 i hi⟩
          have hns : f.ty.signed = false := by
            revert hu
            cases f.ty <;> simp [ScalarType.signed, ScalarType.unsignedInt]
          have hword := hostWord_ok (value := v.toNat) hok (hp f (by simp))
          have hfit := hostWord_lt hok (hp f (by simp)) hword
          rw [writeHosts_host hne hword (if_pos ?_)]
          · exact (ih _).2 h3
          · rw [scalarFits_iff, hns, if_neg (by simp)]
            exact ⟨Int.natCast_nonneg _, by exact_mod_cast hfit⟩

/-- A bit-field with its value is an item of its host. -/
theorem hostItems_at {host : String} {pre post : List BitField} {b : BitField} {bvals : List Word64} {y : Word64}
    (hn : b.host = host) (hy : bvals[pre.length]? = some y) :
    (⟨y.toNat, b.shift, b.width⟩ : BitItem) ∈ hostItems host (pre ++ b :: post) bvals := by
  induction pre generalizing bvals with
  | nil =>
    cases bvals with
    | nil => simp at hy
    | cons v vs =>
      simp only [List.length_nil, List.getElem?_cons_zero, Option.some.injEq] at hy
      subst hy
      simp [hostItems, hn]
  | cons a pre ih =>
    cases bvals with
    | nil => simp at hy
    | cons v vs =>
      rw [List.length_cons, List.getElem?_cons_succ] at hy
      have := ih hy
      rw [List.cons_append, hostItems]
      split
      · exact List.mem_cons_of_mem _ this
      · exact this

/-- An item of a host is a bit-field of that host with its value. -/
theorem hostItems_slot {host : String} {bfs : List BitField} {bvals : List Word64} {i : BitItem}
    (hi : i ∈ hostItems host bfs bvals) :
    ∃ pre b post y, bfs = pre ++ b :: post ∧ bvals[pre.length]? = some y ∧ i = ⟨y.toNat, b.shift, b.width⟩ := by
  induction bfs generalizing bvals with
  | nil => cases bvals <;> simp [hostItems] at hi
  | cons b bfs ih =>
    cases bvals with
    | nil => simp [hostItems] at hi
    | cons v vs =>
      have tail : i ∈ hostItems host bfs vs → ∃ pre c post y, b :: bfs = pre ++ c :: post ∧
          (v :: vs)[pre.length]? = some y ∧ i = ⟨y.toNat, c.shift, c.width⟩ := by
        intro h
        obtain ⟨pre, c, post, y, rfl, h1, h2⟩ := ih h
        exact ⟨b :: pre, c, post, y, rfl, by simpa using h1, h2⟩
      rw [hostItems] at hi
      split at hi
      · rcases List.mem_cons.1 hi with rfl | hi
        · exact ⟨[], b, bfs, v, rfl, rfl, rfl⟩
        · exact tail hi
      · exact tail hi

/-- The values of the bit-fields fit exactly when the items of all hosts do. -/
theorem hostItems_fit {V : Variant} (hV : SoundVariant V) (vals : List Word64) :
    (∀ f ∈ V.fields, ∀ i ∈ hostItems f.name V.bitfields (vals.drop (fieldValues V.fields)), i.v < 2 ^ i.k) ↔
      ∀ pre b post y, V.bitfields = pre ++ b :: post → vals[fieldValues V.fields + pre.length]? = some y →
        y.toNat < 2 ^ b.width := by
  constructor
  · intro h pre b post y hs hy
    obtain ⟨f, hf, -⟩ := hV.hosts b (by simp [hs])
    obtain ⟨fpre, fpost, hfs, hn, -⟩ := findField_eq_some hf
    have := h f (by simp [hfs]) ⟨y.toNat, b.shift, b.width⟩
    rw [hs] at this
    exact this (hostItems_at hn.symm (by rwa [List.getElem?_drop]))
  · intro h f hf i hi
    obtain ⟨pre, b, post, y, hs, hy, rfl⟩ := hostItems_slot hi
    rw [List.getElem?_drop] at hy
    exact h pre b post y hs hy

/-- The count of a `CNT` tail agrees exactly when the slot of its count field is the tail count (R215). -/
theorem countAgrees_iff {V : Variant} (hV : SoundVariant V) {vals : List Word64} {cnt : Nat}
    (hl : fieldValues V.fields ≤ vals.length) :
    countAgrees V vals cnt = true ↔
      ∀ name size ef pre f post x, V.tail = .cnt name size ef → V.fields = pre ++ f :: post → f.name = name →
        vals[fieldValues pre]? = some x → x.toNat = cnt := by
  unfold countAgrees
  cases ht : V.tail with
  | none => simp
  | len size ef => simp
  | cnt name size ef =>
    obtain ⟨f, hf, h1, -⟩ := hV.counter name size ef ht
    obtain ⟨pre, post, hs, hn, hpre⟩ := findField_eq_some hf
    have hslot : fieldValue V.fields vals name = vals[fieldValues pre]? := by
      rw [hs, ← hn, fieldValue_append _ hpre, List.head?_drop]
    have hlt : fieldValues pre < vals.length := by
      rw [hs] at hl
      simp only [fieldValues, List.map_append, List.map_cons, List.sum_append, List.sum_cons] at hl ⊢
      omega
    simp only [hslot, List.getElem?_eq_getElem hlt, beq_iff_eq]
    constructor
    · rintro h name' size' ef' pre' f' post' x he hs' hn' hx
      injection he with he
      subst he
      have hpost : ∀ g ∈ pre', g.name ≠ f'.name := by
        have hnm := hV.names
        rw [hs', List.pairwise_append] at hnm
        exact fun g hg => hnm.2.2 g hg f' (by simp)
      have : fieldValue V.fields vals name = vals[fieldValues pre']? := by
        rw [hs', ← hn', fieldValue_append _ hpost, List.head?_drop]
      rw [hslot, hx, List.getElem?_eq_getElem hlt, Option.some.injEq] at this
      rw [← this, h]
    · exact fun h => h name size ef pre f post _ rfl hs hn (List.getElem?_eq_getElem hlt)

/-- The payload of a well-formed variant is built exactly when the values fit the variant (R182, R192, R215). -/
theorem encodePayload_ok_iff {V : Variant} (hV : SoundVariant V) {cnt : Nat} {vals : List Word64}
    (hl : fieldValues V.fields ≤ vals.length) :
    (∃ p, encodePayload V cnt vals = .ok p) ↔ ValuesFit V cnt vals := by
  obtain ⟨g1, g2⟩ := hostItems_hosted hV (vals.drop (fieldValues V.fields))
  have hF := @writeFields_ok_iff 0 V.fields vals (List.replicate (V.head + cnt * V.tail.size) 0#8)
  have hH := fun q => (writeHosts_ok_iff (q := q) g1 g2 (fun f _ => hostItems_apart _ hV.masks) hl).trans
    (hostItems_fit hV vals)
  have hE := fun q => @writeElements_ok_iff V.tail.size V.tail.fields cnt V.head
    (vals.drop (fieldValues V.fields + V.bitfields.length + 1)) q
  have hC := countAgrees_iff hV hl (cnt := cnt)
  simp only [List.getElem?_drop, ← Nat.add_assoc] at hE
  have hall : ValuesFit V cnt vals ↔ _ ∧ _ ∧ _ ∧ _ :=
    ⟨fun h => ⟨h.fields, h.bitfields, h.count, h.elements⟩, fun h => ⟨h.1, h.2.1, h.2.2.1, h.2.2.2⟩⟩
  rw [hall, ← hF, ← hC, encodePayload]
  cases hf : writeFields 0 V.fields vals (List.replicate (V.head + cnt * V.tail.size) 0#8) with
  | error c => simp
  | ok q1 =>
    rw [← hH q1]
    simp only [Except.ok.injEq, exists_eq', true_and]
    cases hh : writeHosts V.bitfields (vals.drop (fieldValues V.fields)) V.fields vals q1 with
    | error c => simp
    | ok q2 =>
      rw [← hE q2]
      cases hc : countAgrees V vals cnt <;> simp

end Sys2Proof.Machine
end

