-- ==== Sys2Proof/Tests/Slice0.lean ====
section
/-! SUPPORT. The model's own tests: the expected results are the spec's (95_test_vectors.md unless a comment says
otherwise). And for each statement with hypotheses, a concrete state and operands that meet them. -/

namespace Sys2Proof.Tests

open Sys2Proof Sys2Proof.Machine

/-! ## Helpers -/

/-- The test layout LT (95_test_vectors.md 2.8). -/
def layoutLT : Layout :=
  { pid := 0x50#8
    encodable := true
    variants :=
      [{ head := 2
         fields := [⟨"flags", 0, .u8, 1⟩, ⟨"n", 1, .u8, 1⟩]
         bitfields := [⟨"a", "flags", 0, 1⟩, ⟨"mode", "flags", 4, 3⟩]
         tail := .cnt "n" 2 [⟨"v", 0, .i16, 1⟩] }] }

/-- Variant 0 of the test layout LD. -/
def variantLD0 : Variant := { head := 2, fields := [⟨"x", 0, .u16, 1⟩], bitfields := [], tail := .none }

/-- Variant 1 of the test layout LD. -/
def variantLD1 : Variant :=
  { head := 4, fields := [⟨"x", 0, .u16, 1⟩, ⟨"y", 2, .u16, 1⟩], bitfields := [], tail := .none }

/-- The test layout LD. -/
def layoutLD : Layout := { pid := 0x60#8, encodable := true, variants := [variantLD0, variantLD1] }

/-- The parameters of the codec vectors: LT at index 2, LD at index 3. -/
def testConfig : Config :=
  { Config.spec with layouts := [some layoutAcknowledge, some layoutRequest, some layoutLT, some layoutLD] }

/-- A block with the parameters of the codec vectors. -/
def codecState : State := State.powerOn testConfig

/-- A block with a finite capacity of 300 bytes, `n` bytes 0 in its buffer. -/
def cappedState (n cur : Nat) : State :=
  { State.powerOn { Config.spec with bufCap := some 300 } with buf := List.replicate n 0#8, cur := cur }

theorem cappedState_length (n cur : Nat) : (cappedState n cur).buf.length = n := List.length_replicate

/-- The reset state with `bs` in the buffer. -/
def pendState (bs : List Byte) : State := { State.reset with buf := bs }

/-- The state after a command. -/
def after (i : Instr) (s : State) : State :=
  match exec i s with
  | .next t => t
  | .fault _ => s
  | .refused _ => s

/-- The state after a step. -/
def afterStep (s : State) : State :=
  match step s with
  | .next t => t
  | .fault _ => s
  | .refused _ => s

/-- The bytes on the response port after a command (R80). -/
def answer (i : Instr) (s : State) : List Byte := (after i s).rsp.flatMap Response.toBytes

/-- The registers a command leaves: pending bytes, cursor, counter, phase. -/
def regs (s : State) : List Byte × Nat × Nat × Phase := (s.pend, s.cur, s.crcErrors, s.phase)

/-- Eight rows of eight entries of the CRC table. -/
def tableRows (start : Nat) : List (List Word16) :=
  (List.range 8).map fun r => (List.range 8).map fun j => crcTable (BitVec.ofNat 8 (start + 8 * r + j))

/-! ## Well-formed commands: an ill-formed term for each check -/

theorem test_wf_refuses_long_addData : (Instr.addData (List.replicate 65536 0)).wf = false := by
  rw [Instr.wf, List.length_replicate]
  decide

theorem test_wf_refuses_long_encode : (Instr.encode 0 0 (List.replicate 65536 0)).wf = false := by
  rw [Instr.wf, List.length_replicate]
  decide

theorem test_wf_refuses_long_toBytes : (Instr.toBytes ⟨0, 0, 0, 0, 0⟩ (List.replicate 65536 0)).wf = false := by
  rw [Instr.wf, List.length_replicate]
  decide

theorem test_wf_refuses_long_crc16 : (Instr.crc16 (List.replicate 65536 0)).wf = false := by
  rw [Instr.wf, List.length_replicate]
  decide

theorem test_wf_refuses_long_codecDecode :
    (Instr.codecDecode 0 ⟨0, 0, 0, 0, 0⟩ (List.replicate 65536 0)).wf = false := by
  rw [Instr.wf, List.length_replicate]
  decide

theorem test_wf_refuses_long_codecEncode : (Instr.codecEncode 0 (List.replicate 65536 0)).wf = false := by
  rw [Instr.wf, List.length_replicate]
  decide

theorem test_wf_refuses_long_rdScalar : (Instr.rdScalar 1 0 (List.replicate 65536 0)).wf = false := by
  rw [Instr.wf, List.length_replicate]
  decide

theorem test_wf_refuses_short_word : (Instr.bfExtract 2 [0xa5] 0 1).wf = false := by decide

theorem test_wf_refuses_many_items : (Instr.bfPack 1 (List.replicate 256 ⟨0, 0, 1⟩)).wf = false := by
  rw [Instr.wf, List.length_replicate]
  decide

/-! ## Well-formed layouts: an ill-formed one for each clause of R201 -/

/-- The variant of LT with one part replaced. -/
def variantLT (fields : List Field) (bitfields : List BitField) (tail : Tail) : Variant :=
  { head := 2, fields := fields, bitfields := bitfields, tail := tail }

theorem test_layouts_wf : testConfig.wf = true ∧ Config.spec.wf = true := by decide

theorem test_layout_refuses_field_outside_head : (variantLT [⟨"x", 1, .u16, 1⟩] [] .none).wf = false := by decide

theorem test_layout_refuses_shared_byte :
    (variantLT [⟨"x", 0, .u16, 1⟩, ⟨"y", 1, .u8, 1⟩] [] .none).wf = false := by decide

theorem test_layout_refuses_bad_bitfields :
    (variantLT [⟨"x", 0, .u8, 1⟩] [⟨"a", "x", 7, 2⟩] .none).wf = false ∧
      (variantLT [⟨"x", 0, .u8, 1⟩] [⟨"a", "x", 0, 2⟩, ⟨"b", "x", 1, 1⟩] .none).wf = false ∧
      (variantLT [⟨"x", 0, .i8, 1⟩] [⟨"a", "x", 0, 1⟩] .none).wf = false := by decide

theorem test_layout_refuses_bad_tails :
    (variantLT [] [] (.len 1 [⟨"v", 0, .u16, 1⟩])).wf = false ∧
      (variantLT [] [] (.cnt "n" 1 [⟨"v", 0, .u8, 1⟩])).wf = false ∧ (variantLT [] [] (.len 0 [])).wf = false := by
  decide

theorem test_layout_refuses_overlapping_variants :
    ({ layoutLD with variants := [variantLD0, variantLD0] } : Layout).wf = false ∧
      ({ layoutLD with variants := [variantLD1, variantLT [] [] (.len 2 [])] } : Layout).wf = false ∧
      ({ layoutLD with variants := [] } : Layout).wf = false := by decide

theorem test_build_refuses_small_capacity :
    State.build { Config.spec with bufCap := some 259 } = none ∧
      State.build { Config.spec with bufCap := some 260 } = some (State.powerOn { Config.spec with bufCap := some 260 })
      := by decide

/-! ## Decoding: each opcode's bytes, written out from R70 and R71 (the programs of 95_test_vectors.md where they
hold one) -/

/-- P3, step 3. -/
theorem test_decode_addData : decode [0x01, 0x02, 0x00, 0x30, 0x02] = .command (.addData [0x30, 0x02]) [] := by decide

theorem test_decode_decode : decode [0x02, 0x03] = .command .decode [0x03] := by decide

theorem test_decode_readCrcErrors : decode [0x03] = .command .readCrcErrors [] := by decide

theorem test_decode_readStatus : decode [0x04] = .command .readStatus [] := by decide

theorem test_decode_reset : decode [0x0f] = .command .reset [] := by decide

/-- P1, step 2. -/
theorem test_decode_encode : decode [0x10, 0x01, 0x02, 0x01, 0x00, 0x02] = .command (.encode 0x01 0x02 [0x02]) [] := by
  decide

theorem test_decode_toBytes :
    decode [0x11, 0x8b, 0x01, 0x01, 0xb2, 0xc1, 0x01, 0x00, 0x02]
      = .command (.toBytes ⟨0x8b, 0x01, 0x01, 0xb2, 0xc1⟩ [0x02]) [] := by decide

theorem test_decode_lrc : decode [0x20, 1, 2, 3, 4] = .command (.lrc 1 2 3 4) [] := by decide

theorem test_decode_crc16 : decode [0x21, 0x01, 0x00, 0x02] = .command (.crc16 [0x02]) [] := by decide

/-- P8, step 3. -/
theorem test_decode_codecDecode :
    decode [0x30, 0x00, 0x82, 0x00, 0x04, 0x79, 0x01, 0x04, 0x00, 0xb8, 0xc0, 0x84, 0x00]
      = .command (.codecDecode 0x00 ⟨0x82, 0x00, 0x04, 0x79, 0x01⟩ [0xb8, 0xc0, 0x84, 0x00]) [] := by decide

theorem test_decode_codecEncode :
    decode [0x31, 0x01, 0x01, 0x00, 1, 2, 3, 4, 5, 6, 7, 8]
      = .command (.codecEncode 0x01 [0x0807060504030201]) [] := by decide

theorem test_decode_rdScalar :
    decode [0x40, 0x03, 0x01, 0x02, 0x01, 0x00, 0xaa] = .command (.rdScalar 0x03 0x0201 [0xaa]) [] := by decide

theorem test_decode_bfExtract :
    decode [0x41, 0x02, 0x34, 0x12, 0x04, 0x08] = .command (.bfExtract 0x02 [0x34, 0x12] 0x04 0x08) [] := by decide

/-- P7, step 4. -/
theorem test_decode_bfPack :
    decode [0x42, 0x01, 0x01, 2, 0, 0, 0, 0, 0, 0, 0, 0x00, 0x01]
      = .command (.bfPack 0x01 [⟨2, 0x00, 0x01⟩]) [] := by decide

/-- R72, R74: unassigned opcodes are 1-byte commands; R285: a count field larger than the bytes sent. -/
theorem test_decode_illegal_and_incomplete :
    decode [0x55, 0x02] = .illegal 0x55 [0x02] ∧ decode [0x00] = .illegal 0x00 [] ∧
      decode [0x01, 0x02, 0x00, 0x30] = .incomplete ∧ decode [] = .incomplete := by decide

/-- The words of spec/opcode_table.json: an opcode byte alone, every byte the command needs beyond it 0. -/
theorem test_table_words :
    decodeTableWord 8 0x01 = some (.addData []) ∧ decodeTableWord 8 0x0f = some .reset ∧
      decodeTableWord 8 0x20 = some (.lrc 0 0 0 0) ∧ decodeTableWord 8 0x41 = some (.bfExtract 0 [] 0 0) ∧
      decodeTableWord 8 0x55 = none ∧
      afterStep (State.reset.withFetchWord 8 0x20) = okAfter State.reset [0x00] := by decide

/-! ## Codes (R24, R81, R211, R241) -/

theorem test_status_codes :
    [Status.ok, .none, .frame, .decodeError, .fault .illegalCmd, .fault .badOperand, .fault .encodePrecond,
        .fault .overflow, .fault .extractRange, .fault .bfRange, .fault .valueRange].map Status.code
      = [0x00, 0x01, 0x02, 0x03, 0x81, 0x82, 0x83, 0x84, 0x85, 0x86, 0x87] := by decide

/-! ## Checksums -/

/-- 40_checksums.md R104, rows 0x00 to 0x38. -/
theorem test_crc_table_0 :
    tableRows 0 =
      [[0x0000, 0x1021, 0x2042, 0x3063, 0x4084, 0x50a5, 0x60c6, 0x70e7],
       [0x8108, 0x9129, 0xa14a, 0xb16b, 0xc18c, 0xd1ad, 0xe1ce, 0xf1ef],
       [0x1231, 0x0210, 0x3273, 0x2252, 0x52b5, 0x4294, 0x72f7, 0x62d6],
       [0x9339, 0x8318, 0xb37b, 0xa35a, 0xd3bd, 0xc39c, 0xf3ff, 0xe3de],
       [0x2462, 0x3443, 0x0420, 0x1401, 0x64e6, 0x74c7, 0x44a4, 0x5485],
       [0xa56a, 0xb54b, 0x8528, 0x9509, 0xe5ee, 0xf5cf, 0xc5ac, 0xd58d],
       [0x3653, 0x2672, 0x1611, 0x0630, 0x76d7, 0x66f6, 0x5695, 0x46b4],
       [0xb75b, 0xa77a, 0x9719, 0x8738, 0xf7df, 0xe7fe, 0xd79d, 0xc7bc]] := by
  decide

/-- 40_checksums.md R104, rows 0x40 to 0x78. -/
theorem test_crc_table_1 :
    tableRows 64 =
      [[0x48c4, 0x58e5, 0x6886, 0x78a7, 0x0840, 0x1861, 0x2802, 0x3823],
       [0xc9cc, 0xd9ed, 0xe98e, 0xf9af, 0x8948, 0x9969, 0xa90a, 0xb92b],
       [0x5af5, 0x4ad4, 0x7ab7, 0x6a96, 0x1a71, 0x0a50, 0x3a33, 0x2a12],
       [0xdbfd, 0xcbdc, 0xfbbf, 0xeb9e, 0x9b79, 0x8b58, 0xbb3b, 0xab1a],
       [0x6ca6, 0x7c87, 0x4ce4, 0x5cc5, 0x2c22, 0x3c03, 0x0c60, 0x1c41],
       [0xedae, 0xfd8f, 0xcdec, 0xddcd, 0xad2a, 0xbd0b, 0x8d68, 0x9d49],
       [0x7e97, 0x6eb6, 0x5ed5, 0x4ef4, 0x3e13, 0x2e32, 0x1e51, 0x0e70],
       [0xff9f, 0xefbe, 0xdfdd, 0xcffc, 0xbf1b, 0xaf3a, 0x9f59, 0x8f78]] := by
  decide

/-- 40_checksums.md R104, rows 0x80 to 0xb8. -/
theorem test_crc_table_2 :
    tableRows 128 =
      [[0x9188, 0x81a9, 0xb1ca, 0xa1eb, 0xd10c, 0xc12d, 0xf14e, 0xe16f],
       [0x1080, 0x00a1, 0x30c2, 0x20e3, 0x5004, 0x4025, 0x7046, 0x6067],
       [0x83b9, 0x9398, 0xa3fb, 0xb3da, 0xc33d, 0xd31c, 0xe37f, 0xf35e],
       [0x02b1, 0x1290, 0x22f3, 0x32d2, 0x4235, 0x5214, 0x6277, 0x7256],
       [0xb5ea, 0xa5cb, 0x95a8, 0x8589, 0xf56e, 0xe54f, 0xd52c, 0xc50d],
       [0x34e2, 0x24c3, 0x14a0, 0x0481, 0x7466, 0x6447, 0x5424, 0x4405],
       [0xa7db, 0xb7fa, 0x8799, 0x97b8, 0xe75f, 0xf77e, 0xc71d, 0xd73c],
       [0x26d3, 0x36f2, 0x0691, 0x16b0, 0x6657, 0x7676, 0x4615, 0x5634]] := by
  decide

/-- 40_checksums.md R104, rows 0xc0 to 0xf8. -/
theorem test_crc_table_3 :
    tableRows 192 =
      [[0xd94c, 0xc96d, 0xf90e, 0xe92f, 0x99c8, 0x89e9, 0xb98a, 0xa9ab],
       [0x5844, 0x4865, 0x7806, 0x6827, 0x18c0, 0x08e1, 0x3882, 0x28a3],
       [0xcb7d, 0xdb5c, 0xeb3f, 0xfb1e, 0x8bf9, 0x9bd8, 0xabbb, 0xbb9a],
       [0x4a75, 0x5a54, 0x6a37, 0x7a16, 0x0af1, 0x1ad0, 0x2ab3, 0x3a92],
       [0xfd2e, 0xed0f, 0xdd6c, 0xcd4d, 0xbdaa, 0xad8b, 0x9de8, 0x8dc9],
       [0x7c26, 0x6c07, 0x5c64, 0x4c45, 0x3ca2, 0x2c83, 0x1ce0, 0x0cc1],
       [0xef1f, 0xff3e, 0xcf5d, 0xdf7c, 0xaf9b, 0xbfba, 0x8fd9, 0x9ff8],
       [0x6e17, 0x7e36, 0x4e55, 0x5e74, 0x2e93, 0x3eb2, 0x0ed1, 0x1ef0]] := by
  decide

/-- L1, L2, L3, L7, L8. -/
theorem test_lrc :
    answer (.lrc 0 0 0 0) .reset = [0x00, 0x00] ∧ lrc 0xff 0xff 0xff 0xff = 0x04 ∧ lrc 0x01 0x01 0xb2 0xc1 = 0x8b ∧
      lrc 0x80 0 0 0 = 0x80 ∧ lrc 1 0 0 0 = 0xff := by decide

/-- K1, K2, K3, K6, K10. -/
theorem test_crc16 :
    answer (.crc16 []) .reset = [0x00, 0xff, 0xff] ∧ crc16 [0x00] = 0xe1f0 ∧ crc16 [0xff] = 0xff00 ∧
      crc16 [0xb8, 0xc0, 0x84, 0x00] = 0x0179 ∧ crc16 [0x51, 0x02, 0xff, 0xff, 0x02, 0x00] = 0x9d05 := by decide

/-- K9. -/
theorem test_crc16_long :
    answer (.crc16 ((List.range 255).map (BitVec.ofNat 8))) .reset = [0x00, 0xec, 0xe3] := by
  decide +kernel

/-! ## Frame container -/

/-- E2, E3. -/
theorem test_encode :
    answer (.encode 0x02 0x00 []) .reset = [0x00, 0x00, 0x02, 0x00, 0xff, 0xff] ∧
      answer (.encode 0x7f 0x02 [0x12, 0x34]) .reset = [0x00, 0xa8, 0x7f, 0x02, 0xc9, 0x0e, 0x12, 0x34] := by decide

/-- E5, E6: the fault register keeps the first code. -/
theorem test_encode_faults :
    after (.encode 0x01 0x02 [0x02]) .reset = faultAfter .reset .encodePrecond ∧
      (after (.encode 0x01 0x00 [0x02]) .reset).fault = 0x83 ∧
      (after (.encode 0x01 0x00 [0x02]) { State.reset with fault := 0x84 }).fault = 0x84 := by decide

/-- E7, E8. -/
theorem test_toBytes :
    answer (.toBytes ⟨0x8b, 0x01, 0x01, 0xb2, 0xc1⟩ [0x02]) .reset
        = [0x00, 0x06, 0x00, 0x8b, 0x01, 0x01, 0xb2, 0xc1, 0x02] ∧
      answer (.toBytes ⟨0, 0, 0, 0, 0⟩ [0xaa]) .reset = [0x00, 0x06, 0x00, 0, 0, 0, 0, 0, 0xaa] := by decide

/-! ## Decoder -/

/-- D10, D11, D12: overflow, the last byte that fits, compaction first. -/
theorem test_addData_capacity :
    after (.addData (List.replicate 11 0)) (cappedState 290 0) = faultAfter (cappedState 290 0) .overflow ∧
      (after (.addData (List.replicate 10 0)) (cappedState 290 0)).pend.length = 300 ∧
      (after (.addData (List.replicate 50 0)) (cappedState 300 100)).buf.length = 250 ∧
      (after (.addData (List.replicate 50 0)) (cappedState 300 100)).cur = 0 := by
  decide +kernel

/-- P3, steps 1 and 3: the data is appended behind the pending bytes. -/
theorem test_addData_appends :
    regs (after (.addData [0x30, 0x02]) (pendState [0x1a, 0x01, 0x03, 0xb2]))
      = ([0x1a, 0x01, 0x03, 0xb2, 0x30, 0x02], 0, 0, .scanning) := by decide

/-- D5: a CRC mismatch, a rescan of the candidate's own bytes, then the frame. -/
theorem test_decode_rescans :
    answer .decode (pendState [0x8b, 0x01, 0x01, 0xb2, 0xc1, 0x03, 0x8b, 0x01, 0x01, 0xb2, 0xc1, 0x02])
        = [0x02, 0x8b, 0x01, 0x01, 0xb2, 0xc1, 0x02] ∧
      regs (after .decode (pendState [0x8b, 0x01, 0x01, 0xb2, 0xc1, 0x03, 0x8b, 0x01, 0x01, 0xb2, 0xc1, 0x02]))
        = ([], 12, 1, .frameReady) := by decide

/-- D7, D9, S3: a CRC error at every offset; a long candidate waits; the counter wraps. -/
theorem test_decode_starves :
    regs (after .decode (pendState (List.replicate 8 0))) = ([0, 0, 0, 0], 0, 4, .starved) ∧
      regs (after .decode (pendState [0x37, 0x01, 0xc8, 0x00, 0x00]))
        = ([0x37, 0x01, 0xc8, 0x00, 0x00], 0, 0, .starved) ∧
      (after .decode { pendState [0, 0, 0, 0, 0] with crcErrors := 0xffffffff }).crcErrors = 0 := by decide

/-- S1, S2. -/
theorem test_readCrcErrors :
    answer .readCrcErrors .reset = [0x00, 0, 0, 0, 0] ∧
      answer .readCrcErrors { State.reset with crcErrors := 4 } = [0x00, 4, 0, 0, 0] := by decide

/-- S4 to S7. -/
theorem test_readStatus :
    answer .readStatus .reset = [0x00, 0x00, 0x00] ∧
      answer .readStatus { State.reset with phase := .frameReady } = [0x00, 0x01, 0x00] ∧
      answer .readStatus { State.reset with phase := .starved } = [0x00, 0x02, 0x00] ∧
      answer .readStatus { State.reset with fault := 0x83 } = [0x00, 0x00, 0x83] := by decide

/-- S8. -/
theorem test_reset :
    regs (after .reset { pendState [1, 2, 3] with cur := 2, crcErrors := 5, phase := .starved, fault := 0x83 })
        = ([], 0, 0, .scanning) ∧
      (after .reset { State.reset with fault := 0x83 }).fault = 0x00 := by decide

/-! ## Codec -/

/-- C-S1, C-S3, C-S14. -/
theorem test_rdScalar :
    answer (.rdScalar 0x03 1 [0xb8, 0xc0, 0x84, 0x00]) .reset = [0x00, 0xc0, 0x84, 0, 0, 0, 0, 0, 0] ∧
      answer (.rdScalar 0x02 0 [0x80]) .reset = [0x00, 0x80, 0xff, 0xff, 0xff, 0xff, 0xff, 0xff, 0xff] ∧
      answer (.rdScalar 0x0a 0 [0x01, 0, 0, 0, 0, 0, 0xf8, 0x7f]) .reset
        = [0x00, 0x01, 0, 0, 0, 0, 0, 0xf8, 0x7f] := by decide

/-- C-S10, C-S13: past the end; the type is checked first. -/
theorem test_rdScalar_faults :
    answer (.rdScalar 0x03 3 [0xb8, 0xc0, 0x84, 0x00]) .reset = [0x85] ∧
      answer (.rdScalar 0x0b 9 []) .reset = [0x82] := by decide

/-- C-B1, C-B3, C-B4. -/
theorem test_bfExtract :
    answer (.bfExtract 1 [0xa5] 5 3) .reset = [0x00, 0x05, 0, 0, 0, 0, 0, 0, 0] ∧
      answer (.bfExtract 2 [0x34, 0x12] 4 8) .reset = [0x00, 0x23, 0, 0, 0, 0, 0, 0, 0] ∧
      answer (.bfExtract 8 (List.replicate 8 0xff) 63 1) .reset = [0x00, 0x01, 0, 0, 0, 0, 0, 0, 0] := by decide

/-- C-B5, C-B6, C-B7. -/
theorem test_bfExtract_faults :
    answer (.bfExtract 1 [0xa5] 7 2) .reset = [0x86] ∧ answer (.bfExtract 1 [0xa5] 0 0) .reset = [0x86] ∧
      answer (.bfExtract 3 [0, 0, 0] 0 1) .reset = [0x82] := by decide

/-- C-B8, C-B10, C-B13: packing is by OR. -/
theorem test_bfPack :
    answer (.bfPack 1 [⟨1, 0, 1⟩, ⟨1, 3, 1⟩, ⟨5, 5, 3⟩]) .reset = [0x00, 0xa9] ∧
      answer (.bfPack 2 [⟨0xab, 8, 8⟩, ⟨0xcd, 0, 8⟩]) .reset = [0x00, 0xcd, 0xab] ∧
      answer (.bfPack 1 [⟨1, 0, 1⟩, ⟨1, 1, 1⟩]) .reset = [0x00, 0x03] := by decide

/-- C-B11, C-B12, C-B14. -/
theorem test_bfPack_faults :
    answer (.bfPack 1 [⟨2, 0, 1⟩]) .reset = [0x87] ∧ answer (.bfPack 1 [⟨1, 0, 2⟩, ⟨1, 1, 1⟩]) .reset = [0x86] ∧
      answer (.bfPack 1 [⟨1, 7, 2⟩]) .reset = [0x86] := by decide

/-- C-D8 and C-D9, C-D10, C-D11 on LT: values with a negative element; the three length errors. -/
theorem test_codecDecode :
    answer (.codecDecode 2 ⟨0x52, 0x50, 0x06, 0x35, 0x23⟩ [0x91, 0x02, 0xff, 0xff, 0x02, 0x00]) codecState
        = [0x00, 0x08, 0x00] ++ [0, 0x91, 2, 1, 1, 2, -1, 2].flatMap valueBytes ∧
      answer (.codecDecode 2 ⟨0, 0x50, 0, 0, 0⟩ [0x00, 0x03, 0x01, 0x00, 0x02, 0x00]) codecState = [0x03, 0x04] ∧
      answer (.codecDecode 2 ⟨0, 0x50, 0, 0, 0⟩ [0x00, 0x01, 0x01, 0x00, 0x02]) codecState = [0x03, 0x03] ∧
      answer (.codecDecode 2 ⟨0, 0x50, 0, 0, 0⟩ [0x00]) codecState = [0x03, 0x02] := by decide

/-- C-D2, C-D7, C-D14: the wrong id, an absent layout, the second variant. -/
theorem test_codecDecode_selects :
    answer (.codecDecode 1 ⟨0x82, 0x00, 0x04, 0x79, 0x01⟩ [0xb8, 0xc0, 0x84, 0x00]) codecState = [0x03, 0x01] ∧
      answer (.codecDecode 7 ⟨0, 0, 0, 0, 0⟩ []) codecState = [0x82] ∧
      answer (.codecDecode 3 ⟨0, 0x60, 0, 0, 0⟩ [0x34, 0x12, 0x78, 0x56]) codecState
        = [0x00, 0x04, 0x00] ++ [1, 0x1234, 0x5678, 0].flatMap valueBytes := by decide

/-- C-E7, C-E9: the host keeps its bit-fields' values; the second variant. -/
theorem test_codecEncode :
    answer (.codecEncode 2 [0, 0, 2, 1, 5, 2, -1, 2]) codecState
        = [0x00, 0x08, 0x50, 0x06, 0x05, 0x9d, 0x51, 0x02, 0xff, 0xff, 0x02, 0x00] ∧
      answer (.codecEncode 3 [1, 0x1234, 0x5678, 0]) codecState
        = [0x00, 0x90, 0x60, 0x04, 0x18, 0xf4, 0x34, 0x12, 0x78, 0x56] := by decide

/-- C-E3, C-E4, C-E5, C-E8. -/
theorem test_codecEncode_faults :
    answer (.codecEncode 0 [0, 184, 33984, 0, 0]) codecState = [0x82] ∧
      answer (.codecEncode 1 [0, 1, 256]) codecState = [0x87] ∧ answer (.codecEncode 1 [0, 2, 2]) codecState = [0x82] ∧
      answer (.codecEncode 2 [0, 0, 3, 1, 5, 2, -1, 2]) codecState = [0x87] := by decide

/-! ## Steps -/

/-- P7, steps 2 and 6; R72: a partial command waits. -/
theorem test_step :
    (afterStep { State.reset with cmd := [0x10, 0x01, 0x02, 0x01, 0x00, 0x02, 0x04] }).cmd = [0x04] ∧
      (afterStep { State.reset with cmd := [0x10, 0x01, 0x02, 0x01, 0x00, 0x02, 0x04] }).fault = 0x83 ∧
      (afterStep { State.reset with cmd := [0x55], fault := 0x83 }).rsp = [⟨.fault .illegalCmd, []⟩] ∧
      (afterStep { State.reset with cmd := [0x55], fault := 0x83 }).fault = 0x83 ∧
      afterStep { State.reset with cmd := [0x01, 0x02, 0x00, 0x30] }
        = { State.reset with cmd := [0x01, 0x02, 0x00, 0x30] } := by decide

/-! ## Witnesses: states and operands that meet the hypotheses of each statement -/

theorem witness_DecodeOfEncodeIsTheCommand :
    (Instr.addData (List.replicate 65535 0)).wf = true ∧ (Instr.bfPack 1 (List.replicate 255 ⟨0, 0, 1⟩)).wf = true ∧
      (Instr.bfExtract 0 [] 0 0).wf = true ∧ (Instr.codecEncode 1 []).wf = true := by
  refine ⟨?_, ?_, ?_, ?_⟩
  · rw [Instr.wf, List.length_replicate]
    decide
  · rw [Instr.wf, List.length_replicate]
    decide
  · decide
  · decide

theorem witness_DecodedBytesAreTheEncoding : decode [0x03, 0x55] = .command .readCrcErrors [0x55] := by decide

theorem witness_CommandLengthDecidesCompleteness :
    decode [0x0f, 0x55] = .command .reset [0x55] ∧ decode [0x00, 0x01] = .illegal 0x00 [0x01] := by decide

theorem witness_PartialCommandIsHeld :
    (Instr.addData [7]).wf = true ∧ 0 < (encode (.addData [7])).length ∧ 3 < (encode (.addData [7])).length ∧
      { State.reset with cmd := [] }.cmd = (encode (.addData [7])).take 0 ∧
      { State.reset with cmd := [0x01, 0x01, 0x00] }.cmd = (encode (.addData [7])).take 3 := by decide

theorem witness_StepRunsTheDecodedCommand :
    decode { State.reset with cmd := [0x02, 0x03] }.cmd = .command .decode [0x03] := by decide

theorem witness_IllegalEncodingsFault :
    (∀ op ∈ [0x00#8, 0x05#8, 0x0E#8, 0x43#8, 0xFF#8], op ∉ [0x01#8, 0x02#8, 0x03#8, 0x04#8, 0x0F#8, 0x10#8, 0x11#8,
        0x20#8, 0x21#8, 0x30#8, 0x31#8, 0x40#8, 0x41#8, 0x42#8]) ∧
      { State.reset with cmd := [0x55, 0x02] }.cmd = 0x55 :: [0x02] ∧
      ((0x00 : Byte) = 0#8 ∨ 0x0A#8 < (0x00 : Byte)) ∧ ((0x0B : Byte) = 0#8 ∨ 0x0A#8 < (0x0B : Byte)) ∧
      (∀ w ∈ [0#8, 3#8, 9#8, 0xFF#8], w ∉ [1#8, 2#8, 4#8, 8#8]) ∧
      State.reset.cfg.layout 2 = none ∧ State.reset.cfg.layout 0xFF = none := by decide

theorem witness_CrcCommandAnswersPayloadCrc :
    ([] : List Byte).length < 65536 ∧ (List.replicate 65535 (0 : Byte)).length < 65536 := by
  rw [List.length_replicate]
  decide

theorem witness_EncodeBuildsTheFrame :
    (List.replicate 255 (0 : Byte)).length < 65536 ∧ (List.replicate 255 (0 : Byte)).length = (0xFF : Byte).toNat ∧
      (List.replicate 256 (0 : Byte)).length < 65536 ∧
      (List.replicate 256 (0 : Byte)).length ≠ (0x00 : Byte).toNat ∧
      ([] : List Byte).length = (0x00 : Byte).toNat := by
  rw [List.length_replicate, List.length_replicate]
  decide

theorem witness_EmittedFramesAreWellFormed :
    exec .decode (pendState [0xf9, 0x09, 0x00, 0xff, 0xff])
        = .next (after .decode (pendState [0xf9, 0x09, 0x00, 0xff, 0xff])) ∧
      (after .decode (pendState [0xf9, 0x09, 0x00, 0xff, 0xff])).rsp
        = (pendState [0xf9, 0x09, 0x00, 0xff, 0xff]).rsp ++ [⟨.frame, [0xf9, 0x09, 0x00, 0xff, 0xff]⟩] ∧
      exec (.encode 0x09 0x00 []) .reset = .next (after (.encode 0x09 0x00 []) .reset) ∧
      (after (.encode 0x09 0x00 []) .reset).rsp
        = State.reset.rsp ++ [⟨.ok, [0xf9, 0x09, 0x00, 0xff, 0xff]⟩] :=
  ⟨rfl, by decide, rfl, by decide⟩

theorem witness_ToBytesIsAPureProjection :
    5 + (List.replicate 65530 (0 : Byte)).length < 65536 := by
  rw [List.length_replicate]
  decide

theorem witness_EncodeThenDecodeReturnsTheFrame :
    (State.powerOn { Config.spec with bufCap := some 260 }).cur
        = (State.powerOn { Config.spec with bufCap := some 260 }).buf.length ∧
      (∀ c, (State.powerOn { Config.spec with bufCap := some 260 }).cfg.bufCap = some c → 260 ≤ c) ∧
      (List.replicate 255 (7 : Byte)).length = (0xFF : Byte).toNat ∧ ([] : List Byte).length = (0x00 : Byte).toNat := by
  refine ⟨rfl, fun c h => ?_, ?_, rfl⟩
  · cases h
    exact le_refl _
  · rw [List.length_replicate]
    decide

/-- One witness for each of the three cases, at the capacity and at the threshold. -/
theorem witness_AddDataAppendsOrOverflows :
    ((cappedState 290 0).cur ≤ (cappedState 290 0).buf.length ∧
        exceedsCapacity (cappedState 290 0).cfg ((cappedState 290 0).buf.length - (cappedState 290 0).cur + 11)) ∧
      ((cappedState 300 100).cur ≤ (cappedState 300 100).buf.length ∧
        ¬ exceedsCapacity (cappedState 300 100).cfg
          ((cappedState 300 100).buf.length - (cappedState 300 100).cur + 100) ∧
        exceedsCapacity (cappedState 300 100).cfg ((cappedState 300 100).buf.length + 100)) ∧
      (¬ exceedsCapacity (pendState (List.replicate 1000 0)).cfg
          ((pendState (List.replicate 1000 0)).buf.length - (pendState (List.replicate 1000 0)).cur + 1) ∧
        (pendState (List.replicate 1000 0)).cfg.streamThreshold
          < (pendState (List.replicate 1000 0)).buf.length + 1) ∧
      (¬ exceedsCapacity (pendState (List.replicate 999 0)).cfg ((pendState (List.replicate 999 0)).buf.length + 1) ∧
        (pendState (List.replicate 999 0)).buf.length + 1
          ≤ (pendState (List.replicate 999 0)).cfg.streamThreshold) := by
  refine ⟨⟨?_, 300, rfl, ?_⟩, ⟨?_, ?_, 300, rfl, ?_⟩, ⟨?_, ?_⟩, ?_, ?_⟩
  · rw [cappedState_length]
    decide
  · rw [cappedState_length]
    decide
  · rw [cappedState_length]
    decide
  · rintro ⟨c, hc, h⟩
    cases hc
    rw [cappedState_length] at h
    exact absurd h (by decide)
  · rw [cappedState_length]
    decide
  · rintro ⟨c, hc, -⟩
    cases hc
  · simp only [pendState, List.length_replicate]
    decide
  · rintro ⟨c, hc, -⟩
    cases hc
  · simp only [pendState, List.length_replicate]
    decide

theorem witness_SplittingTheDataDoesNotMatter :
    (pendState [1]).cur ≤ (pendState [1]).buf.length ∧ (pendState [1]).cfg.bufCap = none := by decide

/-- The short buffer, and a candidate for each of the four cases. -/
theorem witness_DecodeFollowsItsFiveSteps :
    (pendState [2, 0, 0, 0xff]).buf.length < (pendState [2, 0, 0, 0xff]).cur + 5 ∧
      ((pendState [0xff, 0xff, 0xff, 0xff, 0xff]).buf.drop 0).take 5 = [0xff, 0xff, 0xff, 0xff, 0xff] ∧
      lrc 0xff 0xff 0xff 0xff ≠ 0xff ∧ lrc 0x01 0xc8 0x00 0x00 = 0x37 ∧
      (pendState [0x37, 0x01, 0xc8, 0x00, 0x00]).buf.length < 0 + 5 + (0xc8 : Byte).toNat ∧
      lrc 0 0 0 0 = 0 ∧ (crc16 []).toNat ≠ (0 : Byte).toNat + 256 * (0 : Byte).toNat ∧
      lrc 0x09 0x00 0xff 0xff = 0xf9 ∧ (crc16 []).toNat = (0xff : Byte).toNat + 256 * (0xff : Byte).toNat := by
  decide

theorem witness_cursor_inside :
    { pendState [1, 2, 3] with cur := 3 }.cur ≤ { pendState [1, 2, 3] with cur := 3 }.buf.length := by decide

theorem witness_DecodeReturnsBytesInStreamOrder :
    { pendState [1, 2, 3] with cur := 3 }.cur ≤ { pendState [1, 2, 3] with cur := 3 }.buf.length :=
  witness_cursor_inside

theorem witness_DecodeIsScanOfThePendingBytes :
    { pendState [1, 2, 3] with cur := 3 }.cur ≤ { pendState [1, 2, 3] with cur := 3 }.buf.length :=
  witness_cursor_inside

/-- The frame of V3. -/
theorem witness_validFrame : ValidFrameBytes [0x1a, 0x01, 0x03, 0xb2, 0x30, 0x02, 0x03, 0xb6] :=
  ⟨0x1a, 0x01, 0x03, 0xb2, 0x30, [0x02, 0x03, 0xb6], by decide⟩

/-- E1. -/
theorem witness_validEmptyFrame : ValidFrameBytes [0x02, 0x00, 0x00, 0xff, 0xff] :=
  ⟨0x02, 0x00, 0x00, 0xff, 0xff, [], by decide⟩

theorem witness_StarvingAtAFrameKeepsItPending :
    (pendState [0x02, 0x00, 0x00, 0xff]).cur ≤ (pendState [0x02, 0x00, 0x00, 0xff]).buf.length ∧
      (pendState [0x02, 0x00, 0x00, 0xff]).cfg.bufCap = none ∧ ValidFrameBytes [0x02, 0x00, 0x00, 0xff, 0xff] ∧
      4 < [0x02#8, 0x00#8, 0x00#8, 0xff#8, 0xff#8].length ∧
      (pendState [0x02, 0x00, 0x00, 0xff]).pend = [0x02, 0x00, 0x00, 0xff, 0xff].take 4 ∧
      (pendState []).pend = [0x02, 0x00, 0x00, 0xff, 0xff].take 0 :=
  ⟨by decide, by decide, witness_validEmptyFrame, by decide, by decide, by decide⟩

/-- P4: one offset fails the CRC, the others the LRC. -/
theorem witness_DecodeResynchronizesBehindNoise :
    (pendState [0xfe, 0x01, 0x01, 0x00, 0x00, 0xaa, 0x02, 0x00, 0x00, 0xff, 0xff]).cur
        ≤ (pendState [0xfe, 0x01, 0x01, 0x00, 0x00, 0xaa, 0x02, 0x00, 0x00, 0xff, 0xff]).buf.length ∧
      ValidFrameBytes [0x02, 0x00, 0x00, 0xff, 0xff] ∧
      (pendState [0xfe, 0x01, 0x01, 0x00, 0x00, 0xaa, 0x02, 0x00, 0x00, 0xff, 0xff]).pend
        = [0xfe, 0x01, 0x01, 0x00, 0x00, 0xaa] ++ [0x02, 0x00, 0x00, 0xff, 0xff] ++ [] ∧
      ∀ i, i < 6 → (rejects
        ((pendState [0xfe, 0x01, 0x01, 0x00, 0x00, 0xaa, 0x02, 0x00, 0x00, 0xff, 0xff]).pend.drop i)).1 = true :=
  ⟨by decide, witness_validEmptyFrame, by decide, by decide⟩

theorem witness_TwoFramesAreReturnedOnceEach :
    ValidFrameBytes [0x02, 0x00, 0x00, 0xff, 0xff] ∧
      ValidFrameBytes [0x1a, 0x01, 0x03, 0xb2, 0x30, 0x02, 0x03, 0xb6] ∧
      (pendState ([0x02, 0x00, 0x00, 0xff, 0xff] ++ [0x1a, 0x01, 0x03, 0xb2, 0x30, 0x02, 0x03, 0xb6])).pend
        = [0x02, 0x00, 0x00, 0xff, 0xff] ++ [0x1a, 0x01, 0x03, 0xb2, 0x30, 0x02, 0x03, 0xb6] :=
  ⟨witness_validEmptyFrame, witness_validFrame, by decide⟩

theorem witness_FullBufferAlwaysFreesRoom : 260 ≤ (cappedState 260 0).buf.length - (cappedState 260 0).cur := by
  rw [cappedState_length]
  decide

theorem witness_ReadCrcErrorsAnswersTheCounter :
    State.reset.crcErrors < 2 ^ State.reset.cfg.cntW ∧
      { State.reset with crcErrors := 0xFFFFFFFF }.crcErrors < 2 ^ State.reset.cfg.cntW := by decide

theorem witness_RdScalarExtendsTheBytes :
    ([] : List Byte).length < 65536 ∧ (List.replicate 65535 (0 : Byte)).length < 65536 :=
  witness_CrcCommandAnswersPayloadCrc

theorem witness_BfExtractAnswersTheBits :
    ([] : List Byte).length = (0 : Byte).toNat ∧ (List.replicate 8 (0xff : Byte)).length = (8 : Byte).toNat := by decide

/-- Fields that touch, and the field that is the whole word. -/
theorem witness_packLegal :
    PackLegal 8 [⟨1, 0, 1⟩, ⟨1, 1, 1⟩, ⟨63, 2, 6⟩] ∧ PackLegal 64 [⟨0xFFFFFFFFFFFFFFFF, 0, 64⟩] ∧ PackLegal 8 [] := by
  unfold PackLegal
  decide

theorem witness_BfPackSumsTheFields :
    (1#8 ∈ [1#8, 2#8, 4#8, 8#8] ∧ PackLegal (8 * (1#8).toNat) [⟨1, 0, 1⟩, ⟨1, 1, 1⟩, ⟨63, 2, 6⟩]) ∧
      8#8 ∈ [1#8, 2#8, 4#8, 8#8] ∧ PackLegal (8 * (8#8).toNat) [⟨0xFFFFFFFFFFFFFFFF, 0, 64⟩] :=
  ⟨⟨by decide, witness_packLegal.1⟩, by decide, witness_packLegal.2.1⟩

theorem witness_ExtractInvertsPack :
    (1#8 ∈ [1#8, 2#8, 4#8, 8#8] ∧ PackLegal (8 * (1#8).toNat) [⟨1, 0, 1⟩, ⟨1, 1, 1⟩, ⟨63, 2, 6⟩]) ∧
      (⟨63, 2, 6⟩ : PackItem) ∈ ([⟨1, 0, 1⟩, ⟨1, 1, 1⟩, ⟨63, 2, 6⟩] : List PackItem) :=
  ⟨witness_BfPackSumsTheFields.1, by decide⟩

/-- A bad item for each check: one bit too far, one bit of overlap, a value one too large. -/
theorem witness_FirstBadPackItemDecidesTheFault :
    1#8 ∈ [1#8, 2#8, 4#8, 8#8] ∧ PackLegal (8 * (1#8).toNat) [⟨1, 0, 1⟩, ⟨1, 1, 1⟩, ⟨63, 2, 6⟩] ∧
      8 * (1#8).toNat < (⟨0, 7, 2⟩ : PackItem).shift.toNat + (⟨0, 7, 2⟩ : PackItem).nbits.toNat ∧
      (∃ g ∈ ([⟨1, 0, 2⟩] : List PackItem), g.shift.toNat < (⟨1, 1, 1⟩ : PackItem).shift.toNat + 1 ∧
        (⟨1, 1, 1⟩ : PackItem).shift.toNat < g.shift.toNat + g.nbits.toNat) ∧
      2 ^ (⟨2, 0, 1⟩ : PackItem).nbits.toNat ≤ (⟨2, 0, 1⟩ : PackItem).value.toNat :=
  ⟨by decide, witness_packLegal.1, by decide, by decide, by decide⟩

/-- A case for each sub-code. -/
theorem witness_DecodeErrorsFollowTheOrderOfChecks :
    codecState.cfg.wf = true ∧ codecState.cfg.layout 2 = some layoutLT ∧ codecState.cfg.layout 3 = some layoutLD ∧
      (0x00 : Byte) ≠ layoutLT.pid ∧
      (∀ V ∈ layoutLT.variants, V.accepts 1 = false) ∧ (∀ V ∈ layoutLT.variants, V.accepts 5 = false) ∧
      (∃ V ∈ layoutLT.variants, V.tail ≠ .none ∧ V.head ≤ 5) ∧
      ¬ (∃ V ∈ layoutLT.variants, V.tail ≠ .none ∧ V.head ≤ 1) ∧
      (∀ V ∈ layoutLT.variants, V.accepts 6 = true ∧ V.tail = .cnt "n" 2 [⟨"v", 0, .i16, 1⟩] ∧
        findField V.fields "n" = some ⟨"n", 1, .u8, 1⟩ ∧
        6 < V.head + le (([0x00, 0x03, 0x01, 0x00, 0x02, 0x00].drop 1).take 1) * 2) := by decide

/-- A payload for each form of tail, the count as large as the payload holds. -/
theorem witness_TailCount :
    (variantLD0.accepts 2 = true ∧ TailCount variantLD0 [0x34, 0x12] 0) ∧
      (∀ V ∈ layoutRequest.variants, V.accepts 3 = true ∧ TailCount V [2, 3, 0xb6] 3) ∧
      ∀ V ∈ layoutLT.variants, V.accepts 6 = true ∧ TailCount V [0x91, 0x02, 0xff, 0xff, 0x02, 0x00] 2 := by
  refine ⟨⟨by decide, rfl⟩, ?_, ?_⟩
  · intro V hV
    cases List.mem_singleton.1 hV
    exact ⟨by decide, rfl⟩
  · intro V hV
    cases List.mem_singleton.1 hV
    exact ⟨by decide, ⟨⟨"n", 1, .u8, 1⟩, by decide, by decide⟩, by decide⟩

theorem witness_CodecDecodeAnswersTheValues :
    codecState.cfg.wf = true ∧ codecState.cfg.layout 3 = some layoutLD ∧ layoutLD.variants[0]? = some variantLD0 ∧
      (⟨0, 0x60, 0, 0, 0⟩ : Header).id = layoutLD.pid ∧ variantLD0.accepts [0x34#8, 0x12#8].length = true ∧
      TailCount variantLD0 [0x34, 0x12] 0 :=
  ⟨by decide, by decide, by decide, by decide, by decide, rfl⟩

theorem witness_DecodedValuesStandInDescriptorOrder :
    codecState.cfg.wf = true ∧ codecState.cfg.layout 2 = some layoutLT ∧
      (⟨0, 0x50, 0, 0, 0⟩ : Header).id = layoutLT.pid ∧ (∃ V, layoutLT.variants[0]? = some V ∧
        V.accepts 6 = true ∧ TailCount V [0x91, 0x02, 0xff, 0xff, 0x02, 0x00] 2 ∧
        V.fields = [⟨"flags", 0, .u8, 1⟩] ++ ⟨"n", 1, .u8, 1⟩ :: [] ∧
        V.bitfields = [⟨"a", "flags", 0, 1⟩] ++ ⟨"mode", "flags", 4, 3⟩ :: [] ∧
        findField V.fields "flags" = some ⟨"flags", 0, .u8, 1⟩ ∧
        V.tail.fields = [] ++ ⟨"v", 0, .i16, 1⟩ :: []) :=
  ⟨by decide, by decide, by decide, _, rfl, (witness_TailCount.2.2 _ List.mem_cons_self).1,
    (witness_TailCount.2.2 _ List.mem_cons_self).2, by decide, by decide, by decide, by decide⟩

/-- The lengths N-1 and N+1. -/
theorem witness_FixedLengthLayoutsRejectOtherLengths :
    State.reset.cfg.layout 0 = some layoutAcknowledge ∧
      (∃ V, layoutAcknowledge.variants = [V] ∧ V.tail = .none ∧ [1#8, 2#8, 3#8].length ≠ V.head ∧
        [1#8, 2#8, 3#8, 4#8, 5#8].length ≠ V.head) ∧
      (⟨0, 0x00, 0, 0, 0⟩ : Header).id = layoutAcknowledge.pid :=
  ⟨by decide, ⟨_, rfl, by decide, by decide, by decide⟩, by decide⟩

theorem witness_AcknowledgeIsDecodedNotEncoded :
    State.reset.cfg.layouts = State.reset.cfg.layouts ∧ (⟨0x82, 0x00, 4, 0x79, 1⟩ : Header).id = 0x00#8 := by decide

theorem witness_RequestDecodesToItsIds :
    State.reset.cfg.layouts = State.reset.cfg.layouts ∧ (⟨0x01, 0x01, 0, 0xff, 0xff⟩ : Header).id = 0x01#8 ∧
      ([] : List Byte).length < 65534 ∧ (List.replicate 65533 (0 : Byte)).length < 65534 := by
  rw [List.length_replicate]
  decide

/-- 255 ids, 256 ids, an id of 256, and a count that is one too large. -/
theorem witness_RequestEncodesItsIds :
    (List.replicate 255 (0 : Word64)).length < 2 ^ 64 ∧ ¬ 255 < (List.replicate 255 (0 : Word64)).length ∧
      255 < (List.replicate 256 (0 : Word64)).length ∧ (∃ x ∈ [(256 : Word64)], 255 < x.toNat) ∧
      (¬ ∃ x ∈ [(255 : Word64)], 255 < x.toNat) ∧ (2 : Word64).toNat ≠ [(7 : Word64)].length := by
  rw [List.length_replicate, List.length_replicate]
  refine ⟨by decide, by decide, by decide, ⟨256, by decide, by decide⟩, by simp, by decide⟩

/-- Values that reach each of the checks, on LD's variant 0 and on the request layout. -/
theorem witness_EncodeErrorsFollowTheOrderOfChecks :
    codecState.cfg.wf = true ∧ codecState.cfg.layout 3 = some layoutLD ∧ layoutAcknowledge.encodable = false ∧
      layoutLD.encodable = true ∧ layoutLD.variants.length ≤ (2 : Word64).toNat ∧
      layoutLD.variants[(0 : Word64).toNat]? = some variantLD0 ∧
      [(5 : Word64)].length ≤ fieldValues variantLD0.fields + variantLD0.bitfields.length ∧
      [(5 : Word64), 1][fieldValues variantLD0.fields + variantLD0.bitfields.length]? = some 1 ∧
      [(5 : Word64), 1, 9].length ≠ fieldValues variantLD0.fields + variantLD0.bitfields.length + 1 + 1 * 0 ∧
      variantLD0.tail = .none ∧ (1 : Word64) ≠ 0 ∧ 255 < 0 + (256 : Word64).toNat * 1 := by decide

/-- Variant 0 of LT. -/
def variantLT0 : Variant :=
  variantLT [⟨"flags", 0, .u8, 1⟩, ⟨"n", 1, .u8, 1⟩] [⟨"a", "flags", 0, 1⟩, ⟨"mode", "flags", 4, 3⟩]
    (.cnt "n" 2 [⟨"v", 0, .i16, 1⟩])

theorem variantLT0_slots : layoutLT.variants[(0 : Word64).toNat]? = some variantLT0 ∧
    fieldValues variantLT0.fields + variantLT0.bitfields.length = 4 ∧ fieldValues variantLT0.tail.fields = 1 := by
  decide

/-- The largest and smallest values that fit LT, and for each kind of slot the first value that does not. -/
theorem witness_EncodeErrorsFollowTheOrderOfChecks_values :
    ValuesFit variantLT0 2 [0xFF, 2, 1, 7, 2, -32768, 32767] ∧
      ¬ ValuesFit variantLT0 2 [0x100, 2, 1, 7, 2, -32768, 32767] ∧
      ¬ ValuesFit variantLT0 2 [0xFF, 2, 2, 7, 2, -32768, 32767] ∧
      ¬ ValuesFit variantLT0 2 [0xFF, 2, 1, 8, 2, -32768, 32767] ∧
      ¬ ValuesFit variantLT0 2 [0xFF, 3, 1, 7, 2, -32768, 32767] ∧
      ¬ ValuesFit variantLT0 2 [0xFF, 2, 1, 7, 2, -32769, 32767] ∧
      ¬ ValuesFit variantLT0 2 [0xFF, 2, 1, 7, 2, -32768, 32768] := by
  refine ⟨(encodePayload_ok_iff (soundVariant_of_wf (by decide)) (by decide)).1
      ⟨[0xFF, 0x02, 0x00, 0x80, 0xFF, 0x7F], by decide⟩,
    fun h => ?_, fun h => ?_, fun h => ?_, fun h => ?_, fun h => ?_, fun h => ?_⟩
  · exact absurd (h.fields [] _ _ 0 0x100 rfl (by decide) rfl) (by unfold SlotFits; decide)
  · exact absurd (h.bitfields [] _ _ 2 rfl rfl) (by decide)
  · exact absurd (h.bitfields [_] _ _ 8 rfl rfl) (by decide)
  · exact absurd (h.count _ _ _ [_] _ _ 3 rfl rfl rfl rfl) (by decide)
  · exact absurd (h.elements 0 [] _ _ 0 (-32769) (by decide) rfl (by decide) rfl) (by unfold SlotFits; decide)
  · exact absurd (h.elements 1 [] _ _ 0 32768 (by decide) rfl (by decide) rfl) (by unfold SlotFits; decide)

/-- C-E7. -/
theorem witness_EncodedPayloadHoldsTheValues :
    codecState.cfg.wf = true ∧ codecState.cfg.layout 2 = some layoutLT ∧
      (∃ V, layoutLT.variants[(0 : Word64).toNat]? = some V ∧
        [(0 : Word64), 2, 1, 5, 2, -1, 2][fieldValues V.fields + V.bitfields.length]? = some 2) ∧
      exec (.codecEncode 2 (0 :: [0, 2, 1, 5, 2, -1, 2])) codecState
        = .next (okAfter codecState
            (0x08 :: 0x50 :: 0x06 :: 0x05 :: 0x9d :: [0x51, 0x02, 0xff, 0xff, 0x02, 0x00])) := by
  refine ⟨by decide, by decide, ⟨_, rfl, by decide⟩, ?_⟩
  rw [show exec (.codecEncode 2 (0 :: [0, 2, 1, 5, 2, -1, 2])) codecState
    = .next (after (.codecEncode 2 (0 :: [0, 2, 1, 5, 2, -1, 2])) codecState) from rfl]
  exact congrArg _ (show after _ _ = _ by decide)

/-- C-D8. -/
theorem witness_CodecEncodeInvertsDecode :
    codecState.cfg.wf = true ∧ codecState.cfg.layout 2 = some layoutLT ∧ layoutLT.encodable = true ∧
      (∃ V, V ∈ layoutLT.variants ∧ V.accepts 6 = true ∧
        [(0 : Word64), 0x91, 2, 1, 1, 2, -1, 2][1 + fieldValues V.fields + V.bitfields.length]? = some 2 ∧
        6 = V.head + (2 : Word64).toNat * V.tail.size ∧
        GapsZero V (2 : Word64).toNat [0x91, 0x02, 0xff, 0xff, 0x02, 0x00]) ∧
      after (.codecDecode 2 ⟨0x52, 0x50, 0x06, 0x35, 0x23⟩ [0x91, 0x02, 0xff, 0xff, 0x02, 0x00]) codecState
        = okAfter codecState (leBytes 2 8 ++ [(0 : Word64), 0x91, 2, 1, 1, 2, -1, 2].flatMap fun x => leBytes 8 x.toNat)
      := by
  refine ⟨by decide, by decide, by decide, ⟨_, List.mem_cons_self, by decide, by decide, by decide, ?_⟩, by decide⟩
  unfold GapsZero
  decide

theorem witness_PureCommandsNeverTouchTheDecoder :
    pureCommand (.crc16 []) = true ∧ pureCommand (.codecDecode 0 ⟨0, 0, 0, 0, 0⟩ []) = true ∧
      State.reset.cfg = Config.spec := by decide

theorem witness_ResetClearsEveryRegister :
    Instr.decode ≠ .reset ∧ { State.reset with fault := 0x83 }.fault ≠ 0#8 ∧
      exec .decode { State.reset with fault := 0x83 } = .next (after .decode { State.reset with fault := 0x83 }) :=
  ⟨by decide, by decide, rfl⟩

theorem witness_FaultsArePrecise :
    exec (.encode 1 2 [2]) .reset = .next (after (.encode 1 2 [2]) .reset) ∧
      (after (.encode 1 2 [2]) .reset).rsp = State.reset.rsp ++ [⟨.fault .encodePrecond, []⟩] ∧
      step { State.reset with cmd := [0x55, 0x02] } = .next (afterStep { State.reset with cmd := [0x55, 0x02] }) ∧
      (afterStep { State.reset with cmd := [0x55, 0x02] }).rsp = State.reset.rsp ++ [⟨.fault .illegalCmd, []⟩] :=
  ⟨rfl, by decide, rfl, by decide⟩

theorem witness_FirstFaultStaysAndBlocksNothing :
    step { State.reset with fault := 0x83, cmd := [0x55] }
        = .next (afterStep { State.reset with fault := 0x83, cmd := [0x55] }) ∧
      { State.reset with fault := 0x83, cmd := [0x55] }.fault ≠ 0#8 ∧
      Instr.decode ≠ .readStatus ∧ exec .decode .reset = .next (after .decode .reset) :=
  ⟨rfl, by decide, by decide, rfl⟩

theorem witness_SomeCommandsNeverFault : State.reset.cfg.bufCap = none := by decide

theorem witness_OnlyDecoderCommandsWriteItsRegisters :
    exec .readStatus (pendState [1]) = .next (after .readStatus (pendState [1])) ∧ Instr.readStatus ≠ .decode ∧
      Instr.readStatus ≠ .reset ∧ ∀ d, Instr.readStatus ≠ .addData d :=
  ⟨rfl, by decide, by decide, fun d h => by cases h⟩

theorem witness_EveryStepKeepsTheInvariant :
    { State.reset with cmd := [0x02] }.Inv ∧
      step { State.reset with cmd := [0x02] } = .next (afterStep { State.reset with cmd := [0x02] }) :=
  ⟨⟨by decide, by decide, (fun c h => by cases h), .inl (by decide), by decide⟩, rfl⟩

theorem witness_ResetStateHasTheInvariant :
    State.build { Config.spec with bufCap := some 260 } = some (State.powerOn { Config.spec with bufCap := some 260 })
      := by decide

/-- Two layouts of one pending byte: one block has not compacted, the other has, and has other thresholds. -/
theorem witness_CompactionIsNotObservable :
    Indistinguishable { pendState [9, 8, 7] with cur := 2, cmd := [0x02] }
        { State.powerOn { Config.spec with compactThreshold := 0, streamThreshold := 0 } with
          buf := [7], cmd := [0x02] } ∧
      step { pendState [9, 8, 7] with cur := 2, cmd := [0x02] }
        = .next (afterStep { pendState [9, 8, 7] with cur := 2, cmd := [0x02] }) :=
  ⟨⟨by decide, by decide, rfl, rfl, rfl, rfl, rfl, rfl, rfl, rfl⟩, rfl⟩

end Sys2Proof.Tests
end

section
/-! The frames that the block emits: DECODE's from the scanning loop, ENCODE's from the frame builder, and that both
are well-formed on the wire (R13). -/

namespace Sys2Proof.Machine

/-! ## Well-formed frames and their wire bytes -/

/-- A frame value is well-formed when its length, LRC and CRC are right (R13). -/
theorem frameWf_iff (f : Frame) :
    frameWf f = true ↔ f.payload.length = f.header.length.toNat ∧ f.header.lrc = headerLrc f.header ∧
      crc16 f.payload = headerCrc f.header := by
  simp [frameWf, and_assoc]

/-- The two readings of R13 agree: byte strings as `ValidFrameBytes` describes them are exactly the wire bytes of the
frame values that the machine calls well-formed. -/
theorem validFrameBytes_iff {v : List Byte} :
    ValidFrameBytes v ↔ ∃ f : Frame, frameWf f = true ∧ v = frameBytes f := by
  constructor
  · rintro ⟨b, id, len, lo, hi, p, rfl, hlen, hlrc, hcrc⟩
    exact ⟨⟨⟨b, id, len, lo, hi⟩, p⟩, (frameWf_iff _).2 ⟨hlen, hlrc, (crc_eq_headerCrc_iff _ _).2 hcrc⟩, rfl⟩
  · rintro ⟨⟨⟨b, id, len, lo, hi⟩, p⟩, hwf, rfl⟩
    obtain ⟨hlen, hlrc, hcrc⟩ := (frameWf_iff _).1 hwf
    exact ⟨b, id, len, lo, hi, p, rfl, hlen, hlrc, (crc_eq_headerCrc_iff _ _).1 hcrc⟩

/-! ## DECODE -/

/-- A frame that DECODE's loop returns is well-formed (R156). A cursor behind the buffer, which no run reaches, leaves
the loop no byte to scan, so it returns no frame there. -/
theorem scanState_frame_wf {s : State} {f : Frame} (h : (scanState s).outcome = .frameReady f) :
    frameWf f = true := by
  by_cases hc : s.cur ≤ s.buf.length
  · exact ((scanLoop_result s.cfg s.buf _ s.cur s.crcErrors hc).2.2 f h).wf
  · have hrem : s.buf.length - s.cur = 0 := by omega
    rw [scanState, hrem, scanLoop_zero] at h
    cases h

/-- DECODE answers its scan's outcome, in every state (R80, R150). -/
theorem exec_decode_rsp {s t : State} (h : exec .decode s = .next t) :
    t.rsp = s.rsp ++ [outcomeResponse (scanState s).outcome] := by
  cases h
  cases (scanState s).outcome <;> simp [outcomeResponse]

/-- A FRAME response is the answer to a frame that the scan found. -/
theorem outcomeResponse_eq_frame {o : ScanOutcome} {data : List Byte} (h : outcomeResponse o = ⟨.frame, data⟩) :
    ∃ f, o = .frameReady f ∧ data = frameBytes f := by
  cases o with
  | starved => cases h
  | frameReady f => cases h; exact ⟨f, rfl, rfl⟩

/-! ## ENCODE -/

/-- What ENCODE can do: answer the frame it builds, or fault on a wrong length (R121). -/
theorem exec_encode_eq_next {s t : State} {id length : Byte} {p : List Byte}
    (h : exec (.encode id length p) s = .next t) :
    p.length = length.toNat ∧ t = okAfter s (frameBytes (buildFrame id length p)) ∨
      p.length ≠ length.toNat ∧ t = faultAfter s .encodePrecond := by
  change commitData s (encodeFrame id length p) = .next t at h
  rw [encodeFrame_eq] at h
  split at h
  case isTrue hlen => cases h; exact .inl ⟨hlen, rfl⟩
  case isFalse hlen => cases h; exact .inr ⟨hlen, rfl⟩

/-! ## The statement -/

/-- Settles O18: DECODE's frames passed the loop's checks (R156), ENCODE's are built to pass them (R121). -/
theorem emittedFramesAreWellFormed : Obligations.EmittedFramesAreWellFormed := by
  intro s t data
  constructor
  · intro hexec hrsp
    have hans : outcomeResponse (scanState s).outcome = ⟨.frame, data⟩ := by
      simpa [exec_decode_rsp hexec] using hrsp
    obtain ⟨f, hscan, rfl⟩ := outcomeResponse_eq_frame hans
    exact validFrameBytes_iff.2 ⟨f, scanState_frame_wf hscan, rfl⟩
  · intro id length p hexec hrsp
    rcases exec_encode_eq_next hexec with ⟨hlen, rfl⟩ | ⟨_, rfl⟩
    · obtain rfl : frameBytes (buildFrame id length p) = data := by simpa using hrsp
      exact validFrameBytes_iff.2 ⟨_, buildFrame_wf hlen, rfl⟩
    · simp at hrsp

end Sys2Proof.Machine
end

section
/-! Power-on and RESET: the same register values, whatever the block did before (R36, R271). -/

namespace Sys2Proof.Machine

/-- What RESET does (R270): the block is as after power-on with the same parameters, except that its ports keep what
they held, with RESET's OK answer behind it. -/
theorem exec_reset (s : State) :
    exec .reset s = .next { State.powerOn s.cfg with cmd := s.cmd, rsp := s.rsp ++ [⟨.ok, []⟩] } := rfl

/-- Settles O9: RESET's next state differs from power-on's in the ports only, which are not among the registers. -/
theorem powerOnIsTheResetState : Obligations.PowerOnIsTheResetState := by
  refine ⟨fun P => ?powerOn, fun s => ⟨_, exec_reset s, ?reset⟩⟩
  case powerOn =>
    exact ⟨State.powerOn_buf P, State.powerOn_cur P, State.powerOn_crcErrors P, State.powerOn_phase P,
      State.powerOn_fault P⟩
  case reset => exact ⟨rfl, rfl, rfl, rfl, rfl⟩

end Sys2Proof.Machine
end

section
/-! The checksum commands LRC and CRC16: what the decoder reads, and what they answer (R108, R109). -/

namespace Sys2Proof.Machine

/-! ## LRC -/

/-- Format L has no count field: LRC is its opcode and the next four bytes, whatever follows them (R71). -/
theorem decode_lrc (b0 b1 b2 b3 : Byte) (rest : List Byte) :
    decode (0x20#8 :: b0 :: b1 :: b2 :: b3 :: rest) = .command (.lrc b0 b1 b2 b3) rest := rfl

/-- What LRC does: it answers OK with the header LRC and writes no register (R108). -/
theorem exec_lrc (s : State) (b0 b1 b2 b3 : Byte) :
    exec (.lrc b0 b1 b2 b3) s = .next (okAfter s [lrc b0 b1 b2 b3]) := rfl

/-- Settles O10: the statement's sum over the integers is the machine's `lrc` (R100). -/
theorem lrcCommandAnswersHeaderLrc : Obligations.LrcCommandAnswersHeaderLrc :=
  fun s b0 b1 b2 b3 rest => ⟨decode_lrc b0 b1 b2 b3 rest, exec_lrc s b0 b1 b2 b3⟩

/-! ## CRC16 -/

/-- CRC16 takes as many bytes as its count field announces and leaves the rest on the port (R71, R72). -/
theorem decode_crc16 {d : List Byte} (hd : d.length < 65536) (rest : List Byte) :
    decode (0x21#8 :: (encodeData d ++ rest)) = .command (.crc16 d) rest := by
  have hread : operandsOf 0x21#8 = some fun bs => (takeData bs).map fun p => (.crc16 p.1, p.2) := rfl
  rw [decode_cons_of_some hread, takeData_encodeData hd]
  rfl

/-- What CRC16 does: it answers OK with the two CRC bytes in wire order and writes no register (R109). -/
theorem exec_crc16 (s : State) (d : List Byte) :
    exec (.crc16 d) s = .next (okAfter s [crcLo (crc16 d), crcHi (crc16 d)]) := rfl

/-- Settles O12: the decoder reads the counted data back, and the two bytes in wire order are the little-endian bytes
of the CRC. -/
theorem crcCommandAnswersPayloadCrc : Obligations.CrcCommandAnswersPayloadCrc := by
  intro s d rest hd
  constructor
  · exact decode_crc16 hd rest
  · rw [exec_crc16, leBytes_crc]

end Sys2Proof.Machine
end

section
/-! The frame commands ENCODE and TO_BYTES: what the decoder reads for ENCODE, and what both answer (R121, R126). -/

namespace Sys2Proof.Machine

/-! ## ENCODE -/

/-- ENCODE takes an id, a length and as many payload bytes as its count field announces, whether or not the length
agrees with that count, and leaves the rest on the port (R71, R72). -/
theorem decode_encode {p : List Byte} (hp : p.length < 65536) (id length : Byte) (rest : List Byte) :
    decode (0x10#8 :: id :: length :: (encodeData p ++ rest)) = .command (.encode id length p) rest := by
  have hread : operandsOf 0x10#8 = some fun bs =>
      (takeByte bs).bind fun i => (takeByte i.2).bind fun l =>
        (takeData l.2).map fun d => (.encode i.1 l.1 d.1, d.2) := rfl
  have hid : takeByte (id :: length :: (encodeData p ++ rest)) = some (id, length :: (encodeData p ++ rest)) := rfl
  have hlength : takeByte (length :: (encodeData p ++ rest)) = some (length, encodeData p ++ rest) := rfl
  rw [decode_cons_of_some hread, hid, Option.bind_some, hlength, Option.bind_some, takeData_encodeData hp]
  rfl

/-- With a payload of the announced length, ENCODE answers OK with the frame it builds (R121). -/
theorem exec_encode_of_length_eq {length : Byte} {p : List Byte} (h : p.length = length.toNat) (s : State) (id : Byte) :
    exec (.encode id length p) s = .next (okAfter s (frameBytes (buildFrame id length p))) := by
  change commitData s (encodeFrame id length p) = _
  rw [encodeFrame_eq, if_pos h]
  rfl

/-- With a payload of any other length, ENCODE raises ENCODE_PRECOND (R121). -/
theorem exec_encode_of_length_ne {length : Byte} {p : List Byte} (h : p.length ≠ length.toNat) (s : State) (id : Byte) :
    exec (.encode id length p) s = .next (faultAfter s .encodePrecond) := by
  change commitData s (encodeFrame id length p) = _
  rw [encodeFrame_eq, if_neg h]
  rfl

/-- The two CRC bytes of a header hold the whole CRC (R64). -/
theorem crc_toNat_eq_lo_add_hi (c : Word16) : c.toNat = (crcLo c).toNat + 256 * (crcHi c).toNat := by
  rw [crcLo_toNat, crcHi_toNat, Nat.mod_add_div]

/-- Settles O16: the header's CRC bytes are the low and the high byte of the payload's CRC. -/
theorem encodeBuildsTheFrame : Obligations.EncodeBuildsTheFrame := by
  intro s id length p rest hp
  refine ⟨decode_encode hp id length rest, ?answer⟩
  split
  case isTrue hlen =>
    exact ⟨crcLo (crc16 p), crcHi (crc16 p), crc_toNat_eq_lo_add_hi (crc16 p), exec_encode_of_length_eq hlen s id⟩
  case isFalse hlen => exact exec_encode_of_length_ne hlen s id

/-! ## TO_BYTES -/

/-- What TO_BYTES does: it answers OK with a count and the frame's bytes and writes no register (R125). The count's
free value depends on the operand only (log entry 10). -/
theorem exec_toBytes (s : State) (h : Header) (p : List Byte) :
    exec (.toBytes h p) s = .next
      (okAfter s (countBytes (5 + p.length) (Config.freeToBytesCount h p) ++ frameBytes ⟨h, p⟩)) := rfl

/-- Settles O19: the response of TO_BYTES names no register, so one count serves every state. -/
theorem toBytesIsAPureProjection : Obligations.ToBytesIsAPureProjection := by
  intro h p
  refine ⟨countBytes (5 + p.length) (Config.freeToBytesCount h p), countBytes_length _ _,
    fun hfits => countBytes_of_lt hfits _, fun s => ?answer⟩
  rw [exec_toBytes, frameBytes, Header.toBytes, List.append_assoc]

end Sys2Proof.Machine
end

section
/-! ADD_DATA: what the decoder reads, and its three outcomes by capacity and threshold (R141, R163 b, R164). -/

namespace Sys2Proof.Machine

/-! ## The decoder -/

/-- ADD_DATA takes as many bytes as its count field announces and leaves the rest on the port (R71, R72). -/
theorem decode_addData {d : List Byte} (hd : d.length < 65536) (rest : List Byte) :
    decode (0x01#8 :: (encodeData d ++ rest)) = .command (.addData d) rest := by
  have hread : operandsOf 0x01#8 = some fun bs => (takeData bs).map fun p => (.addData p.1, p.2) := rfl
  rw [decode_cons_of_some hread, takeData_encodeData hd]
  rfl

/-! ## The capacity checks -/

theorem exceedsCapacity_mono {P : Config} {m n : Nat} (hmn : m ≤ n) (h : exceedsCapacity P m) :
    exceedsCapacity P n := by
  obtain ⟨c, hc, hlt⟩ := h
  exact ⟨c, hc, by omega⟩

/-- The first check of ADD_DATA compares the pending bytes and the data with the capacity (R141). -/
theorem overflows_iff {s : State} {n : Nat} :
    overflows s n = true ↔ exceedsCapacity s.cfg (s.buf.length - s.cur + n) := by
  unfold overflows exceedsCapacity
  cases s.cfg.bufCap <;> simp

/-- The second check of ADD_DATA compares the whole buffer and the data with the capacity (R141). -/
theorem needsRoom_iff {s : State} {n : Nat} :
    needsRoom s n = true ↔ exceedsCapacity s.cfg (s.buf.length + n) := by
  unfold needsRoom exceedsCapacity
  cases s.cfg.bufCap <;> simp

theorem makeRoom_of_exceeds {s : State} {n : Nat} (h : exceedsCapacity s.cfg (s.buf.length + n)) :
    makeRoom s n = s.compact := if_pos (needsRoom_iff.2 h)

theorem makeRoom_of_not_exceeds {s : State} {n : Nat} (h : ¬ exceedsCapacity s.cfg (s.buf.length + n)) :
    makeRoom s n = s := if_neg (mt needsRoom_iff.1 h)

/-! ## The compaction at the end -/

/-- With the cursor at 0 nothing is consumed: compaction changes nothing (R164). -/
theorem compact_of_cur_eq_zero {s : State} (h : s.cur = 0) : s.compact = s := by
  obtain ⟨cfg, buf, cur, crcErrors, phase, fault, cmd, rsp⟩ := s
  obtain rfl : cur = 0 := h
  rfl

theorem streamCompact_of_cur_eq_zero {s : State} (h : s.cur = 0) : streamCompact s = s := by
  unfold streamCompact
  rw [compact_of_cur_eq_zero h, ite_self]

theorem streamCompact_of_lt {s : State} (h : s.cfg.streamThreshold < s.buf.length) : streamCompact s = s.compact :=
  if_pos h

theorem streamCompact_of_le {s : State} (h : s.buf.length ≤ s.cfg.streamThreshold) : streamCompact s = s :=
  if_neg (by omega)

/-- Dropping the consumed bytes before or after the append gives the same state, where the cursor is inside the
buffer (R27, R165). -/
theorem append_compact {s : State} (d : List Byte) (hc : s.cur ≤ s.buf.length) :
    (s.append d).compact = s.compact.append d := by
  have hdrop : (s.buf ++ d).drop s.cur = s.buf.drop s.cur ++ d := List.drop_append_of_le_length hc
  simp [State.compact, State.append, hdrop]

/-! ## The command -/

/-- The capacity check comes before everything else: ADD_DATA then raises OVERFLOW (R141). -/
theorem exec_addData_of_exceeds {s : State} {d : List Byte}
    (h : exceedsCapacity s.cfg (s.buf.length - s.cur + d.length)) :
    exec (.addData d) s = .next (faultAfter s .overflow) := by
  obtain ⟨c, hcap, hlt⟩ := h
  exact execAddData_overflow hcap hlt

/-- Where the pending bytes and the data fit, ADD_DATA makes room, appends, compacts and answers OK (R141). -/
theorem exec_addData_of_fits {s : State} {d : List Byte}
    (h : ¬ exceedsCapacity s.cfg (s.buf.length - s.cur + d.length)) :
    exec (.addData d) s = .next (okAfter (streamCompact ((makeRoom s d.length).append d)) []) := by
  change execAddData d s = _
  rw [execAddData, if_neg (mt overflows_iff.1 h), respond_ok]
  rfl

/-- Either check past its bound drops the consumed bytes, once (R141, R163 b). -/
theorem append_of_compacts {s : State} {d : List Byte} (hc : s.cur ≤ s.buf.length)
    (h : exceedsCapacity s.cfg (s.buf.length + d.length) ∨ s.cfg.streamThreshold < s.buf.length + d.length) :
    streamCompact ((makeRoom s d.length).append d) = s.compact.append d := by
  by_cases hroom : exceedsCapacity s.cfg (s.buf.length + d.length)
  · rw [makeRoom_of_exceeds hroom]
    exact streamCompact_of_cur_eq_zero (by simp)
  · have hlt : s.cfg.streamThreshold < (s.append d).buf.length := by
      simpa using h.resolve_left hroom
    rw [makeRoom_of_not_exceeds hroom, streamCompact_of_lt hlt, append_compact d hc]

/-- Within both bounds the data is appended and nothing else happens (R141). -/
theorem append_of_not_compacts {s : State} {d : List Byte}
    (hroom : ¬ exceedsCapacity s.cfg (s.buf.length + d.length))
    (hle : s.buf.length + d.length ≤ s.cfg.streamThreshold) :
    streamCompact ((makeRoom s d.length).append d) = s.append d := by
  rw [makeRoom_of_not_exceeds hroom]
  exact streamCompact_of_le (by simpa using hle)

/-- Settles O21, by the cases of the two checks: the data overflows, it is appended behind the pending bytes
alone, or appended only. -/
theorem addDataAppendsOrOverflows : Obligations.AddDataAppendsOrOverflows := by
  intro s d rest hc hd
  refine ⟨decode_addData hd rest, exec_addData_of_exceeds, fun hfits hcompacts => ?compacts, fun hroom hle => ?appends⟩
  case compacts =>
    rw [exec_addData_of_fits hfits, append_of_compacts hc hcompacts]
    rfl
  case appends =>
    have hfits : ¬ exceedsCapacity s.cfg (s.buf.length - s.cur + d.length) :=
      mt (exceedsCapacity_mono (by omega)) hroom
    rw [exec_addData_of_fits hfits, append_of_not_compacts hroom hle]
    rfl

end Sys2Proof.Machine
end

section
/-! DECODE: its next state as a function of the scan, the scan's first pass case by case, and what holds of every
outcome (R150 to R160). -/

namespace Sys2Proof.Machine

/-- Format N has no operands: DECODE is its opcode, whatever follows it (R71). -/
theorem decode_decode (rest : List Byte) : decode (0x02#8 :: rest) = .command .decode rest := rfl

/-! ## The next state, from the scan -/

/-- The state in which DECODE ends is that of its scan's registers, with the answer to the scan's outcome behind the
earlier responses (R80, R150). -/
theorem exec_decode (s : State) :
    exec .decode s = .next
      ((decodeRegs s (scanState s)).respond (outcomeResponse (scanState s).outcome).status
        (outcomeResponse (scanState s).outcome).data) := by
  change Host.Outcome.next (decodeRespond (decodeRegs s (scanState s)) (scanState s).outcome) = _
  cases (scanState s).outcome <;> rfl

/-- Cursor, counter and phase act on DECODE through its scan alone (R150). -/
theorem exec_decode_of_scanState_eq {s : State} {cur e : Nat} {ph : Phase}
    (h : scanState s = scanState { s with cur := cur, crcErrors := e, phase := ph }) :
    exec .decode s = exec .decode { s with cur := cur, crcErrors := e, phase := ph } := by
  rw [exec_decode, exec_decode, h]
  rfl

/-- A scan that starves where the cursor stands (R151, R153, R163 a). -/
theorem exec_decode_of_starved {s : State} (h : scanState s = ⟨s.cur, s.crcErrors, .starved⟩) :
    exec .decode s = .next (starvedAfter s) := by
  rw [exec_decode, h]
  rfl

/-- With a frame found, DECODE compacts exactly when the cursor is past the threshold (R163 c). -/
theorem decodeRegs_of_past {s : State} {cur e : Nat} {f : Frame} (h : s.cfg.compactThreshold < cur) :
    decodeRegs s ⟨cur, e, .frameReady f⟩ = (s.scanned ⟨cur, e, .frameReady f⟩).compact :=
  if_pos (decide_eq_true h)

theorem decodeRegs_of_not_past {s : State} {cur e : Nat} {f : Frame} (h : ¬ s.cfg.compactThreshold < cur) :
    decodeRegs s ⟨cur, e, .frameReady f⟩ = s.scanned ⟨cur, e, .frameReady f⟩ :=
  if_neg (by simpa [decodeCompacts] using h)

/-- A scan that accepts the candidate where the cursor stands (R156, R163 c). -/
theorem exec_decode_of_accepted {s : State} {f : Frame} {n : Nat}
    (h : scanState s = ⟨s.cur + n, s.crcErrors, .frameReady f⟩) (hf : frameBytes f = (s.buf.drop s.cur).take n) :
    exec .decode s = .next (acceptedAfter s n) := by
  rw [exec_decode, h]
  by_cases hlt : s.cfg.compactThreshold < s.cur + n
  · rw [decodeRegs_of_past hlt, acceptedAfter, if_pos hlt, if_pos hlt, ← hf]
    rfl
  · rw [decodeRegs_of_not_past hlt, acceptedAfter, if_neg hlt, if_neg hlt, ← hf]
    rfl

/-! ## The first pass of the scan -/

/-- Fewer than five bytes from the cursor on: the scan starves at once (R151). -/
theorem scanState_short {s : State} (h : s.buf.length < s.cur + 5) :
    scanState s = ⟨s.cur, s.crcErrors, .starved⟩ := scanLoop_short h

/-- Five bytes from the cursor on are a candidate header (R152). -/
theorem candidate_of_take {buf : List Byte} {cur : Nat} {h : Header} (ht : (buf.drop cur).take 5 = h.toBytes) :
    candidate buf cur = some h := by
  have hlen : min 5 (buf.length - cur) = 5 := by simpa using congrArg List.length ht
  exact candidate_eq_some.2 ⟨by omega, ht⟩

section FirstPass

variable {s : State} {h : Header}

/-- With a candidate at the cursor the scan runs its first pass, with one byte fewer behind it (R159). -/
theorem scanState_of_candidate (hc : candidate s.buf s.cur = some h) :
    scanState s = scanLoop s.cfg s.buf (s.buf.length - (s.cur + 1) + 1) s.cur s.crcErrors := by
  have hlen := (candidate_eq_some.1 hc).1
  rw [scanState, show s.buf.length - s.cur = s.buf.length - (s.cur + 1) + 1 by omega]

/-- A wrong LRC: the scan is the one from the next byte (R152). -/
theorem scanState_noise (hc : candidate s.buf s.cur = some h) (hl : headerLrc h ≠ h.lrc) :
    scanState s = scanState { s with cur := s.cur + 1 } := by
  rw [scanState_of_candidate hc, scanLoop_noise hc hl]
  rfl

/-- A payload that has not all arrived: the scan starves at the candidate (R153). -/
theorem scanState_wait (hc : candidate s.buf s.cur = some h) (hl : headerLrc h = h.lrc)
    (hp : s.buf.length < s.cur + 5 + h.length.toNat) :
    scanState s = ⟨s.cur, s.crcErrors, .starved⟩ := by
  rw [scanState_of_candidate hc, scanLoop_wait hc hl hp]

/-- A wrong CRC: the scan is the one from the next byte, with one error more counted (R154). -/
theorem scanState_mismatch {p : List Byte} (hc : candidate s.buf s.cur = some h) (hl : headerLrc h = h.lrc)
    (hp : memRead s.buf (s.cur + 5) h.length.toNat = some p) (hcrc : crc16 p ≠ headerCrc h) :
    scanState s
      = scanState { s with cur := s.cur + 1, crcErrors := (s.crcErrors + 1) % 2 ^ s.cfg.cntW } := by
  rw [scanState_of_candidate hc, scanLoop_mismatch hc hl hp hcrc]
  rfl

/-- Both checks pass: the scan returns the frame at the cursor (R156). -/
theorem scanState_accept {p : List Byte} (hc : candidate s.buf s.cur = some h) (hl : headerLrc h = h.lrc)
    (hp : memRead s.buf (s.cur + 5) h.length.toNat = some p) (hcrc : crc16 p = headerCrc h) :
    scanState s = ⟨s.cur + (5 + h.length.toNat), s.crcErrors, .frameReady ⟨h, p⟩⟩ := by
  rw [scanState_of_candidate hc, scanLoop_accept hc hl hp hcrc, Nat.add_assoc]

/-- The frame at the cursor is the run of buffer bytes that DECODE answers. -/
theorem frameBytes_of_candidate {p : List Byte} (hc : candidate s.buf s.cur = some h)
    (hp : memRead s.buf (s.cur + 5) h.length.toNat = some p) :
    frameBytes ⟨h, p⟩ = (s.buf.drop s.cur).take (5 + h.length.toNat) :=
  (memRead_eq_some.1 (candidate_frame hc hp)).2

end FirstPass

/-- Settles O23: each pass of the scan gives the next state of its case, the passes that go on by the scan from the
next byte. -/
theorem decodeFollowsItsFiveSteps : Obligations.DecodeFollowsItsFiveSteps := by
  intro s rest
  refine ⟨decode_decode rest, fun hshort => exec_decode_of_starved (scanState_short hshort), ?candidate⟩
  intro b id len lo hi htake
  have hc : candidate s.buf s.cur = some ⟨b, id, len, lo, hi⟩ := candidate_of_take htake
  split
  case isTrue hnoise => exact exec_decode_of_scanState_eq (scanState_noise hc hnoise)
  case isFalse hlrc =>
    have hl : lrc id len lo hi = b := not_not.1 hlrc
    split
    case isTrue hwait => exact exec_decode_of_starved (scanState_wait hc hl hwait)
    case isFalse hall =>
      have hp : memRead s.buf (s.cur + 5) len.toNat = some ((s.buf.drop (s.cur + 5)).take len.toNat) :=
        memRead_eq_some.2 ⟨not_lt.1 hall, rfl⟩
      split
      case isTrue hcrc =>
        exact exec_decode_of_scanState_eq (scanState_mismatch hc hl hp (mt (crc_eq_headerCrc_iff _ _).1 hcrc))
      case isFalse hcrc =>
        have hscan := scanState_accept hc hl hp ((crc_eq_headerCrc_iff _ _).2 (not_not.1 hcrc))
        exact exec_decode_of_accepted hscan (frameBytes_of_candidate hc hp)

/-! ## What holds of every outcome -/

/-- An outcome is a frame with phase FRAME_READY and response FRAME, or none with phase STARVED and response NONE
without data (R80, R158). -/
theorem outcome_cases (o : ScanOutcome) :
    o.phase = .frameReady ∧ (outcomeResponse o).status = .frame ∨
      o.phase = .starved ∧ outcomeResponse o = ⟨.none, []⟩ := by
  cases o with
  | starved => exact .inr ⟨rfl, rfl⟩
  | frameReady f => exact .inl ⟨rfl, rfl⟩

/-- Settles O24: neither outcome of the scan is a fault, and the scan's registers are not among those kept. -/
theorem decodeNeverFaults : Obligations.DecodeNeverFaults := by
  intro s
  refine ⟨_, outcomeResponse (scanState s).outcome, exec_decode s, by simp, ?status, by simp, by simp, by simp⟩
  case status => exact (outcome_cases (scanState s).outcome).imp And.right And.right

/-- Settles O25: the scan does not read the phase, and DECODE overwrites it with the outcome's. -/
theorem phaseIsTheOutcomeOfDecode : Obligations.PhaseIsTheOutcomeOfDecode := by
  intro s
  refine ⟨_, outcomeResponse (scanState s).outcome, exec_decode s, by simp, ?phase, fun ph => ?earlier⟩
  case phase => simpa using outcome_cases (scanState s).outcome
  case earlier =>
    have hscan : scanState s = scanState { s with phase := ph } := rfl
    rw [← exec_decode s]
    exact (exec_decode_of_scanState_eq hscan).symm

end Sys2Proof.Machine
end

section
/-! READ_CRC_ERRORS and READ_STATUS: what the decoder reads, and what they answer (R167, R168). -/

namespace Sys2Proof.Machine

/-! ## READ_CRC_ERRORS -/

theorem decode_readCrcErrors (rest : List Byte) : decode (0x03#8 :: rest) = .command .readCrcErrors rest := rfl

/-- What READ_CRC_ERRORS does: it answers OK with the counter's bytes and writes no register (R167). -/
theorem exec_readCrcErrors (s : State) :
    exec .readCrcErrors s = .next (okAfter s (counterBytes s.cfg s.crcErrors)) := rfl

@[simp] theorem counterBytes_length (P : Config) (v : Nat) : (counterBytes P v).length = (P.cntW + 7) / 8 :=
  leBytes_length _ _

/-- A value of CNT_W bits fits the counter's bytes, so it is read back whole (R80). -/
theorem le_counterBytes {P : Config} {v : Nat} (h : v < 2 ^ P.cntW) : le (counterBytes P v) = v := by
  have hfits : v < 256 ^ ((P.cntW + 7) / 8) :=
    calc v < 2 ^ P.cntW := h
      _ ≤ 2 ^ (8 * ((P.cntW + 7) / 8)) := Nat.pow_le_pow_right (by norm_num) (by omega)
      _ = 256 ^ ((P.cntW + 7) / 8) := by rw [pow_mul]; norm_num
  exact le_leBytes hfits

/-- Settles O32: `ceil(CNT_W/8)` is the least number of bytes with CNT_W bits, and they hold the counter. -/
theorem readCrcErrorsAnswersTheCounter : Obligations.ReadCrcErrorsAnswersTheCounter := by
  intro s rest
  refine ⟨decode_readCrcErrors rest, _, exec_readCrcErrors s, ?least, ?enough, le_counterBytes⟩
  all_goals
    rw [counterBytes_length]
    omega

/-! ## READ_STATUS -/

theorem decode_readStatus (rest : List Byte) : decode (0x04#8 :: rest) = .command .readStatus rest := rfl

/-- What READ_STATUS does: it answers OK with the code of the phase and the fault register, and writes neither
(R168). -/
theorem exec_readStatus (s : State) : exec .readStatus s = .next (okAfter s [s.phase.code, s.fault]) := rfl

/-- Settles O33: the codes of R24, phase by phase. -/
theorem readStatusAnswersPhaseAndFault : Obligations.ReadStatusAnswersPhaseAndFault := by
  intro s rest
  refine ⟨decode_readStatus rest, ?answer⟩
  rw [exec_readStatus]
  cases s.phase <;> rfl

end Sys2Proof.Machine
end

section
/-! RD_SCALAR: what the decoder reads, and what it answers (R185). -/

namespace Sys2Proof.Machine

/-! ## The decoder -/

/-- RD_SCALAR takes a type code, an offset and as many bytes as its count field announces, whether or not the type is
known and the offset lies inside the data, and leaves the rest on the port (R71, R72). -/
theorem decode_rdScalar {d : List Byte} (hd : d.length < 65536) (ty : Byte) (off : Word16) (rest : List Byte) :
    decode (0x40#8 :: ty :: (leBytes 2 off.toNat ++ (encodeData d ++ rest))) = .command (.rdScalar ty off d) rest := by
  have hread : operandsOf 0x40#8 = some fun bs =>
      (takeByte bs).bind fun t => (takeU16 t.2).bind fun o =>
        (takeData o.2).map fun x => (.rdScalar t.1 (BitVec.ofNat 16 o.1) x.1, x.2) := rfl
  have hty : takeByte (ty :: (leBytes 2 off.toNat ++ (encodeData d ++ rest)))
      = some (ty, leBytes 2 off.toNat ++ (encodeData d ++ rest)) := rfl
  rw [decode_cons_of_some hread, hty, Option.bind_some, takeU16_leBytes off.isLt, Option.bind_some,
    takeData_encodeData hd]
  simp

/-! ## The command -/

/-- The rows of R73 are the codes, the widths and the signedness of the scalar types. -/
theorem scalarRow_eq_ofCode (ty : Byte) :
    scalarRow ty = (ScalarType.ofCode ty).map fun t => (t.width, t.signed) := by
  unfold ScalarType.ofCode
  split
  case h_11 =>
    refine List.lookup_eq_none_iff.2 ?_
    simp_all
  all_goals rfl

theorem exec_rdScalar (s : State) (ty : Byte) (off : Word16) (d : List Byte) :
    exec (.rdScalar ty off d) s = commitData s (rdScalar ty off d) := rfl

/-- An unknown type is refused, wherever the offset lies (R74, R185). -/
theorem rdScalar_of_unknown {ty : Byte} (hty : ScalarType.ofCode ty = none) (off : Word16) (d : List Byte) :
    rdScalar ty off d = .error .badOperand := by
  rw [rdScalar, hty]

/-- A read past the end of the data is refused (R181). -/
theorem rdScalar_of_past {ty : Byte} {t : ScalarType} {off : Word16} {d : List Byte}
    (hty : ScalarType.ofCode ty = some t) (hpast : d.length < off.toNat + t.width) :
    rdScalar ty off d = .error .extractRange := by
  simp only [rdScalar, hty, readScalar_eq_none.2 hpast]

/-- A read inside the data answers the bytes of the scalar, extended to 8 (R181, R185). -/
theorem rdScalar_of_inside {ty : Byte} {t : ScalarType} {off : Word16} {d : List Byte}
    (hty : ScalarType.ofCode ty = some t) (hin : off.toNat + t.width ≤ d.length) :
    rdScalar ty off d = .ok (extendBytes t.signed ((d.drop off.toNat).take t.width)) := by
  have hlen : ((d.drop off.toNat).take t.width).length = t.width := by
    simp only [List.length_take, List.length_drop]
    omega
  simp only [rdScalar, hty, readScalar_eq_some.2 ⟨hin, rfl⟩, valueBytes_scalarValue t hlen]

/-- Settles O34: the type first, then the range, and then the value's 8 bytes are the scalar's own, extended. -/
theorem rdScalarExtendsTheBytes : Obligations.RdScalarExtendsTheBytes := by
  intro s ty off d rest hd
  refine ⟨?decoded, ?answer⟩
  case decoded => simpa [encodeData] using decode_rdScalar hd ty off rest
  case answer =>
    rw [exec_rdScalar, scalarRow_eq_ofCode]
    cases hty : ScalarType.ofCode ty with
    | none => simp [rdScalar_of_unknown hty]
    | some t =>
      simp only [Option.map_some]
      split
      case isTrue hpast => rw [rdScalar_of_past hty hpast, commitData_error]
      case isFalse hin => rw [rdScalar_of_inside hty (by omega), commitData_ok]

end Sys2Proof.Machine
end

section
/-! BF_EXTRACT: what the decoder reads, and what it answers (R190, R191). -/

namespace Sys2Proof.Machine

/-! ## The decoder -/

/-- BF_EXTRACT takes a word of as many bytes as its width operand says, whether or not that width is legal, then the
shift and the field width, and leaves the rest on the port (R71, R72). -/
theorem decode_bfExtract {w : Byte} {word : List Byte} (hword : word.length = w.toNat) (shift nbits : Byte)
    (rest : List Byte) :
    decode (0x41#8 :: w :: (word ++ shift :: nbits :: rest)) = .command (.bfExtract w word shift nbits) rest := by
  have hread : operandsOf 0x41#8 = some fun bs =>
      (takeByte bs).bind fun b => (takeBytes b.1.toNat b.2).bind fun x =>
        (takeByte x.2).bind fun s => (takeByte s.2).map fun n => (.bfExtract b.1 x.1 s.1 n.1, n.2) := rfl
  have hw : takeByte (w :: (word ++ shift :: nbits :: rest)) = some (w, word ++ shift :: nbits :: rest) := rfl
  rw [decode_cons_of_some hread, hw, Option.bind_some, takeBytes_append_of_length hword, Option.bind_some]
  rfl

/-! ## The command -/

theorem legalWidth_iff (w : Byte) : legalWidth w = true ↔ w ∈ [1#8, 2#8, 4#8, 8#8] := by
  simp [legalWidth, or_assoc]

/-- A legal word has at most 64 bits (R71). -/
theorem wordBits_le {w : Byte} (hw : w ∈ [1#8, 2#8, 4#8, 8#8]) : 8 * w.toNat ≤ 64 := by
  revert w
  decide

theorem bitFieldLegal_iff (W s k : Nat) : bitFieldLegal W s k = true ↔ 1 ≤ k ∧ s + k ≤ W := by
  simp [bitFieldLegal]

theorem exec_bfExtract (s : State) (w : Byte) (word : List Byte) (shift nbits : Byte) :
    exec (.bfExtract w word shift nbits) s = commitData s (bfExtract w word shift nbits) := rfl

/-- An illegal word width is refused, whatever the geometry (R74, R191). -/
theorem bfExtract_of_badWidth {w : Byte} (hw : w ∉ [1#8, 2#8, 4#8, 8#8]) (word : List Byte) (shift nbits : Byte) :
    bfExtract w word shift nbits = .error .badOperand := by
  rw [bfExtract, if_pos (Bool.eq_false_iff.2 (mt (legalWidth_iff w).1 hw))]

/-- An empty field and a field past the word are refused (R190, R191). -/
theorem bfExtract_of_badField {w shift nbits : Byte} (hw : w ∈ [1#8, 2#8, 4#8, 8#8])
    (hfield : nbits.toNat < 1 ∨ 8 * w.toNat < shift.toNat + nbits.toNat) (word : List Byte) :
    bfExtract w word shift nbits = .error .bfRange := by
  have hbad : bitFieldLegal (8 * w.toNat) shift.toNat nbits.toNat = false := by
    rw [Bool.eq_false_iff, ne_eq, bitFieldLegal_iff]
    omega
  rw [bfExtract, (legalWidth_iff w).2 hw, if_neg (by decide), if_pos hbad]

/-- A legal field is answered as 8 bytes (R191). -/
theorem bfExtract_of_legal {w shift nbits : Byte} (hw : w ∈ [1#8, 2#8, 4#8, 8#8]) (hpos : 1 ≤ nbits.toNat)
    (hin : shift.toNat + nbits.toNat ≤ 8 * w.toNat) (word : List Byte) :
    bfExtract w word shift nbits = .ok (leBytes 8 (extract (le word) shift.toNat nbits.toNat)) := by
  rw [bfExtract, (legalWidth_iff w).2 hw, if_neg (by decide), (bitFieldLegal_iff _ _ _).2 ⟨hpos, hin⟩,
    if_neg (by decide)]

/-- Settles O35: the word width first, then the geometry; a legal field is the word shifted and masked, so its bits are
the word's. -/
theorem bfExtractAnswersTheBits : Obligations.BfExtractAnswersTheBits := by
  intro s w shift nbits word rest hword
  refine ⟨?decoded, ?answer⟩
  case decoded => simpa using decode_bfExtract hword shift nbits rest
  case answer =>
    rw [exec_bfExtract]
    split_ifs with hw hfield
    case pos => rw [bfExtract_of_badField hw hfield, commitData_error]
    case neg =>
      have hbits := wordBits_le hw
      refine ⟨extract (le word) shift.toNat nbits.toNat, ?lt, ?exec, extract_testBit _ _ _⟩
      case lt =>
        calc extract (le word) shift.toNat nbits.toNat < 2 ^ nbits.toNat := extract_lt _ _ _
          _ ≤ 2 ^ 64 := Nat.pow_le_pow_right (by norm_num) (by omega)
      case exec => rw [bfExtract_of_legal hw (by omega) (by omega), commitData_ok]
    case neg => rw [bfExtract_of_badWidth hw, commitData_error]

end Sys2Proof.Machine
end

section
/-! CODEC_DECODE: its answer from the packet value, and the order of the checks that refuse a frame (R202, R211). -/

namespace Sys2Proof.Machine

/-! ## The answer, from the packet value -/

/-- An absent layout is an illegal operand (R74, R210). -/
theorem exec_codecDecode_of_absent {s : State} {k : Byte} (hk : s.cfg.layout k = none) (h : Header) (p : List Byte) :
    exec (.codecDecode k h p) s = .next (faultAfter s .badOperand) := by
  change execCodecDecode k h p s = _
  rw [execCodecDecode, hk]
  rfl

section
variable {s : State} {k : Byte} {L : Layout} {h : Header} {p : List Byte}

theorem exec_codecDecode_of_ok {vals : List Int} (hk : s.cfg.layout k = some L) (hv : decodeLayout L h p = .ok vals) :
    exec (.codecDecode k h p) s = .next (okAfter s (valuesData vals (Config.freeValueCount L p))) := by
  change execCodecDecode k h p s = _
  simp only [execCodecDecode, hk, hv]
  rfl

/-- A refused frame is a normal result: DECODE_ERROR with the sub-code, and no register changes (R211, R240). -/
theorem exec_codecDecode_of_refuse {e : DecodeError} (hk : s.cfg.layout k = some L)
    (hv : decodeLayout L h p = .error (.refuse e)) :
    exec (.codecDecode k h p) s = .next { s with rsp := s.rsp ++ [⟨.decodeError, [e.code]⟩] } := by
  change execCodecDecode k h p s = _
  simp only [execCodecDecode, hk, hv]
  rfl

theorem exec_codecDecode_of_fault {c : FaultCode} (hk : s.cfg.layout k = some L)
    (hv : decodeLayout L h p = .error (.fault c)) :
    exec (.codecDecode k h p) s = .next (faultAfter s c) := by
  change execCodecDecode k h p s = _
  simp only [execCodecDecode, hk, hv]
  rfl

end

/-! ## The checks, in order (R211) -/

theorem tail_variable_iff (t : Tail) : t.variable = true ↔ t ≠ .none := by
  cases t <;> simp [Tail.variable]

theorem lengthError_of_tail {L : Layout} {n : Nat} (ht : ∃ V ∈ L.variants, V.tail ≠ .none ∧ V.head ≤ n) :
    lengthError L n = .tailMisaligned :=
  if_pos (by simpa [List.any_eq_true, tail_variable_iff] using ht)

theorem lengthError_of_no_tail {L : Layout} {n : Nat} (ht : ¬ ∃ V ∈ L.variants, V.tail ≠ .none ∧ V.head ≤ n) :
    lengthError L n = .lengthMismatch :=
  if_neg (by simpa [List.any_eq_true, tail_variable_iff] using ht)

section
variable {L : Layout} {h : Header} {p : List Byte}

theorem decodeLayout_of_id_ne (hid : h.id ≠ L.pid) : decodeLayout L h p = .error (.refuse .idMismatch) :=
  if_pos hid

theorem decodeLayout_of_no_variant (hid : h.id = L.pid) (hnone : ∀ V ∈ L.variants, V.accepts p.length = false) :
    decodeLayout L h p = .error (.refuse (lengthError L p.length)) := by
  rw [decodeLayout, if_neg (not_not.2 hid), selectFrom_eq_none.2 hnone]

/-- What the selected variant refuses, the layout refuses (R202, R210). -/
theorem decodeLayout_of_variant_error {i : Nat} {V : Variant} {e : CodecStop} (hid : h.id = L.pid)
    (hsel : selectFrom p.length L.variants 0 = some (i, V)) (he : decodeVariant V p = .error e) :
    decodeLayout L h p = .error e := by
  rw [decodeLayout, if_neg (not_not.2 hid), hsel]
  simp only [he]

end

/-- Settles O39: each failing check stops the computation before the next one is looked at; for the last one, R201
makes the accepting variant the selected one. -/
theorem decodeErrorsFollowTheOrderOfChecks : Obligations.DecodeErrorsFollowTheOrderOfChecks := by
  intro s k L h p hwf hk
  split_ifs with hid hnone htail
  case pos => exact exec_codecDecode_of_refuse hk (decodeLayout_of_id_ne hid)
  case pos =>
    have hv := decodeLayout_of_no_variant (not_not.1 hid) hnone
    rw [lengthError_of_tail htail] at hv
    exact exec_codecDecode_of_refuse hk hv
  case neg =>
    have hv := decodeLayout_of_no_variant (not_not.1 hid) hnone
    rw [lengthError_of_no_tail htail] at hv
    exact exec_codecDecode_of_refuse hk hv
  case neg =>
    intro V name size ef f hV hacc htail hf hover
    obtain ⟨i, hi⟩ := List.mem_iff_getElem?.1 hV
    obtain ⟨hsel, hsound⟩ := selectFrom_variant hwf hk hi hacc
    have he := decodeVariant_overrun hsound hacc htail hf hover
    exact exec_codecDecode_of_refuse hk (decodeLayout_of_variant_error (not_not.1 hid) hsel he)

end Sys2Proof.Machine
end

section
/-! The commands without effect on the decoder's registers: one response for every state (R33, R48, R214). -/

namespace Sys2Proof.Machine

/-- The state after the response `r`: a fault is recorded if it is the first since reset (R244), and no other register
changes. -/
def State.answer (s : State) (r : Response) : State :=
  { s with
    fault := match r.status with
      | .fault c => if s.fault = 0#8 then c.code else s.fault
      | _ => s.fault
    rsp := s.rsp ++ [r] }

theorem answer_ok (s : State) (data : List Byte) : s.answer ⟨.ok, data⟩ = okAfter s data := rfl

theorem answer_fault (s : State) (c : FaultCode) : s.answer ⟨.fault c, []⟩ = faultAfter s c := rfl

theorem answer_decodeError (s : State) (data : List Byte) :
    s.answer ⟨.decodeError, data⟩ = { s with rsp := s.rsp ++ [⟨.decodeError, data⟩] } := rfl

/-- The command has one response for all the states with the parameters `P`, and no effect but that response's. -/
def AnswersAlike (i : Instr) (P : Config) : Prop :=
  ∃ r : Response, ∀ s : State, s.cfg = P → exec i s = .next (s.answer r)

/-- A command whose data depend on its operands and the parameters alone answers alike in all states. -/
theorem answersAlike_of_commitData {i : Instr} {P : Config} (result : Except FaultCode (List Byte))
    (hexec : ∀ s : State, s.cfg = P → exec i s = commitData s result) : AnswersAlike i P := by
  cases result with
  | ok data => exact ⟨⟨.ok, data⟩, fun s hs => by rw [hexec s hs, commitData_ok, answer_ok]⟩
  | error c => exact ⟨⟨.fault c, []⟩, fun s hs => by rw [hexec s hs, commitData_error, answer_fault]⟩

/-- CODEC_DECODE looks up its layout in the parameters; the packet value depends on that layout and the frame
(R210). -/
theorem answersAlike_codecDecode (P : Config) (k : Byte) (h : Header) (p : List Byte) :
    AnswersAlike (.codecDecode k h p) P := by
  cases hk : P.layout k with
  | none => exact ⟨⟨.fault .badOperand, []⟩, fun s hs => exec_codecDecode_of_absent (hs ▸ hk) h p⟩
  | some L =>
    cases hv : decodeLayout L h p with
    | ok vals => exact ⟨⟨.ok, _⟩, fun s hs => exec_codecDecode_of_ok (hs ▸ hk) hv⟩
    | error stop =>
      cases stop with
      | refuse e => exact ⟨⟨.decodeError, [e.code]⟩, fun s hs => exec_codecDecode_of_refuse (hs ▸ hk) hv⟩
      | fault c => exact ⟨⟨.fault c, []⟩, fun s hs => exec_codecDecode_of_fault (hs ▸ hk) hv⟩

/-- Every command of the codec and of the pure functions answers alike in all states with the same parameters. -/
theorem answersAlike_of_pureCommand (i : Instr) (P : Config) (hpure : pureCommand i = true) : AnswersAlike i P := by
  cases i with
  | encode id length p => exact answersAlike_of_commitData (encodeFrame id length p) fun _ _ => rfl
  | toBytes h p => exact answersAlike_of_commitData (.ok _) fun s _ => exec_toBytes s h p
  | lrc b0 b1 b2 b3 => exact answersAlike_of_commitData (.ok _) fun s _ => exec_lrc s b0 b1 b2 b3
  | crc16 d => exact answersAlike_of_commitData (.ok _) fun s _ => exec_crc16 s d
  | codecDecode k h p => exact answersAlike_codecDecode P k h p
  | codecEncode k v => exact answersAlike_of_commitData (codecEncode P k v) fun _ hs => hs ▸ rfl
  | rdScalar ty off d => exact answersAlike_of_commitData _ fun s _ => exec_rdScalar s ty off d
  | bfExtract w word shift nbits => exact answersAlike_of_commitData _ fun s _ => exec_bfExtract s w word shift nbits
  | bfPack w items => exact answersAlike_of_commitData (bfPack w items) fun _ _ => rfl
  | addData _ | decode | readCrcErrors | readStatus | reset => cases hpure

/-- Settles O49: the response that the command gives alike in all states is the one the statement asks for. -/
theorem pureCommandsNeverTouchTheDecoder : Obligations.PureCommandsNeverTouchTheDecoder :=
  answersAlike_of_pureCommand

end Sys2Proof.Machine
end

section
/-! The fault register across commands: it steers none of them but READ_STATUS's answer, and only RESET takes a code
out of it (R245). -/

namespace Sys2Proof.Machine

/-! ## Commands and the fault register -/

/-- The state with another value in the fault register. -/
def State.withFault (s : State) (f : Byte) : State := { s with fault := f }

theorem withFault_self (s : State) : s.withFault s.fault = s := rfl

/-- Whatever the fault register holds before the command, the command turns it into `g` of that and does the rest
alike. -/
def ActsOnFaultBy (i : Instr) (s : State) (g : Byte → Byte) : Prop :=
  ∃ u : State, ∀ f : Byte, exec i (s.withFault f) = .next (u.withFault (g f))

/-- One next state of the command tells the next state under every other value of the register. -/
theorem ActsOnFaultBy.of_next {i : Instr} {s t : State} {g : Byte → Byte} (hacts : ActsOnFaultBy i s g)
    (hexec : exec i s = .next t) :
    t.fault = g s.fault ∧ ∀ f : Byte, exec i (s.withFault f) = .next (t.withFault (g f)) := by
  obtain ⟨u, hu⟩ := hacts
  have hself : exec i s = .next (u.withFault (g s.fault)) := by rw [← hu, withFault_self]
  cases hself.symm.trans hexec
  exact ⟨rfl, hu⟩

/-- The first code stays (R25, R245). -/
def KeepsFirstFault (g : Byte → Byte) : Prop := ∀ f : Byte, f ≠ 0#8 → g f = f

theorem keepsFirstFault_id : KeepsFirstFault id := fun _ _ => rfl

theorem keepsFirstFault_stickyFault (c : FaultCode) : KeepsFirstFault (stickyFault · c) :=
  fun _ hf => stickyFault_of_ne hf c

/-- A response, even another fault's, leaves a recorded code in place (R244). -/
theorem fault_answer_of_ne {s : State} (hs : s.fault ≠ 0#8) (r : Response) : (s.answer r).fault = s.fault := by
  obtain ⟨status, data⟩ := r
  cases status with
  | fault c => exact stickyFault_of_ne hs c
  | ok | none | frame | decodeError => rfl

/-! ## The decoder's operations do not look at the fault register -/

theorem makeRoom_withFault (s : State) (n : Nat) (f : Byte) :
    makeRoom (s.withFault f) n = (makeRoom s n).withFault f :=
  (apply_ite (fun u : State => u.withFault f) (needsRoom s n = true) s.compact s).symm

theorem append_withFault (s : State) (d : List Byte) (f : Byte) :
    (s.withFault f).append d = (s.append d).withFault f := rfl

theorem streamCompact_withFault (s : State) (f : Byte) :
    streamCompact (s.withFault f) = (streamCompact s).withFault f :=
  (apply_ite (fun u : State => u.withFault f) (s.cfg.streamThreshold < s.buf.length) s.compact s).symm

theorem scanState_withFault (s : State) (f : Byte) : scanState (s.withFault f) = scanState s := rfl

theorem decodeRegs_withFault (s : State) (r : ScanResult) (f : Byte) :
    decodeRegs (s.withFault f) r = (decodeRegs s r).withFault f :=
  (apply_ite (fun u : State => u.withFault f) (decodeCompacts s.cfg r = true) (s.scanned r).compact (s.scanned r)).symm

theorem respond_withFault (s : State) (status : Status) (data : List Byte) (f : Byte) :
    (s.withFault f).respond status data = (s.respond status data).withFault f := rfl

/-! ## Command by command -/

/-- ADD_DATA's checks read the buffer, the cursor and the parameters; it raises OVERFLOW or leaves the register
(R141). -/
theorem addData_keepsFirstFault (d : List Byte) (s : State) :
    ∃ g, ActsOnFaultBy (.addData d) s g ∧ KeepsFirstFault g := by
  by_cases hover : exceedsCapacity s.cfg (s.buf.length - s.cur + d.length)
  case pos =>
    have hexec (f : Byte) : exec (.addData d) (s.withFault f) = .next (faultAfter (s.withFault f) .overflow) :=
      exec_addData_of_exceeds hover
    exact ⟨_, ⟨faultAfter s .overflow, hexec⟩, keepsFirstFault_stickyFault .overflow⟩
  case neg =>
    refine ⟨id, ⟨okAfter (streamCompact ((makeRoom s d.length).append d)) [], fun f => ?_⟩, keepsFirstFault_id⟩
    have hexec : exec (.addData d) (s.withFault f)
        = .next (okAfter (streamCompact ((makeRoom (s.withFault f) d.length).append d)) []) :=
      exec_addData_of_fits hover
    rw [hexec, makeRoom_withFault, append_withFault, streamCompact_withFault, ← respond_ok, respond_withFault]
    rfl

/-- DECODE's scan reads the buffer, the cursor and the counter, and no outcome of it is a fault (R150, R160). -/
theorem decode_keepsFault (s : State) : ActsOnFaultBy .decode s id := by
  refine ⟨(decodeRegs s (scanState s)).respond (outcomeResponse (scanState s).outcome).status
    (outcomeResponse (scanState s).outcome).data, fun f => ?_⟩
  rw [exec_decode, scanState_withFault, decodeRegs_withFault, respond_withFault]
  rfl

/-- RESET overwrites the register without reading it (R270). -/
theorem reset_clearsFault (s : State) : ActsOnFaultBy .reset s fun _ => 0#8 :=
  ⟨{ State.powerOn s.cfg with cmd := s.cmd, rsp := s.rsp ++ [⟨.ok, []⟩] }, fun f => exec_reset (s.withFault f)⟩

/-- The commands of the codec and of the pure functions have one response whatever the register holds; their only
effect on it is that response's (R33, R48). -/
theorem pureCommand_keepsFirstFault {i : Instr} (hpure : pureCommand i = true) (s : State) :
    ∃ g, ActsOnFaultBy i s g ∧ KeepsFirstFault g := by
  obtain ⟨r, hr⟩ := answersAlike_of_pureCommand i s.cfg hpure
  exact ⟨fun f => ((s.withFault f).answer r).fault, ⟨s.answer r, fun f => hr (s.withFault f) rfl⟩,
    fun f hf => fault_answer_of_ne (s := s.withFault f) hf r⟩

/-- READ_STATUS is the one command whose response holds the register; of the others, RESET alone clears it. -/
theorem exec_actsOnFaultBy (i : Instr) (s : State) (hi : i ≠ .readStatus) :
    ∃ g, ActsOnFaultBy i s g ∧ (i ≠ .reset → KeepsFirstFault g) := by
  by_cases hpure : pureCommand i = true
  · obtain ⟨g, hacts, hkeeps⟩ := pureCommand_keepsFirstFault hpure s
    exact ⟨g, hacts, fun _ => hkeeps⟩
  · cases i with
    | addData d =>
      obtain ⟨g, hacts, hkeeps⟩ := addData_keepsFirstFault d s
      exact ⟨g, hacts, fun _ => hkeeps⟩
    | decode => exact ⟨id, decode_keepsFault s, fun _ => keepsFirstFault_id⟩
    | readCrcErrors =>
      exact ⟨id, ⟨okAfter s (counterBytes s.cfg s.crcErrors), fun f => exec_readCrcErrors (s.withFault f)⟩,
        fun _ => keepsFirstFault_id⟩
    | readStatus => exact absurd rfl hi
    | reset => exact ⟨_, reset_clearsFault s, fun hne => absurd rfl hne⟩
    | encode | toBytes | lrc | crc16 | codecDecode | codecEncode | rdScalar | bfExtract | bfPack =>
      exact absurd rfl hpure

/-- Every command but RESET leaves a recorded code in place. -/
theorem exec_keeps_fault {i : Instr} {s t : State} (hexec : exec i s = .next t) (hi : i ≠ .reset)
    (hs : s.fault ≠ 0#8) : t.fault = s.fault := by
  by_cases hstatus : i = .readStatus
  · subst hstatus
    cases (exec_readStatus s).symm.trans hexec
    rfl
  · obtain ⟨g, hacts, hkeeps⟩ := exec_actsOnFaultBy i s hstatus
    rw [(hacts.of_next hexec).1, hkeeps hi s.fault hs]

/-! ## One step, by what the command port holds (R72, R74) -/

theorem step_of_command {s : State} {i : Instr} {rest : List Byte} (h : decode s.cmd = .command i rest) :
    step s = exec i (s.withCmd rest) := by
  simp [step, fetch, h]

theorem step_of_illegal {s : State} {op : Byte} {rest : List Byte} (h : decode s.cmd = .illegal op rest) :
    step s = .next (s.illegal rest) := by
  simp [step, fetch, h]

theorem step_of_incomplete {s : State} (h : decode s.cmd = .incomplete) : step s = .next s := by
  simp [step, fetch, h]

/-- A step without RESET leaves a recorded code in place: also one that meets an unassigned opcode, and one that
waits. -/
theorem step_keeps_fault {s t : State} (hstep : step s = .next t) (hs : s.fault ≠ 0#8) :
    t.fault = s.fault ∨ ∃ rest, decode s.cmd = .command .reset rest := by
  cases hport : decode s.cmd with
  | command i rest =>
    by_cases hi : i = .reset
    · exact .inr ⟨rest, by rw [hi]⟩
    · rw [step_of_command hport] at hstep
      exact .inl (exec_keeps_fault (s := s.withCmd rest) hstep hi hs)
  | illegal op rest =>
    cases (step_of_illegal hport).symm.trans hstep
    exact .inl (stickyFault_of_ne hs .illegalCmd)
  | incomplete =>
    cases (step_of_incomplete hport).symm.trans hstep
    exact .inl rfl

/-- Settles O51: a step acts on the fault register as its command does, and each command but READ_STATUS does the
rest alike whatever the register holds. -/
theorem firstFaultStaysAndBlocksNothing : Obligations.FirstFaultStaysAndBlocksNothing := by
  refine ⟨fun s t => step_keeps_fault, ?blocksNothing, fun s => ⟨_, exec_readStatus s⟩⟩
  intro i s t f hi hexec
  obtain ⟨g, hacts, -⟩ := exec_actsOnFaultBy i s hi
  exact ⟨_, (hacts.of_next hexec).2 f, rfl⟩

end Sys2Proof.Machine
end

section
/-! The RESET command as the host sends it: its one byte, its five register writes and its response (R270). -/

namespace Sys2Proof.Machine

theorem decode_reset (rest : List Byte) : decode (0x0F#8 :: rest) = .command .reset rest := rfl

/-- What RESET writes, register by register: the power-on values of `exec_reset` are the five of R270, and the
parameters and the command port are those of before. -/
theorem exec_reset_registers (s : State) :
    exec .reset s = .next
      { s with
        buf := [], cur := 0, crcErrors := 0, phase := .scanning, fault := 0#8
        rsp := s.rsp ++ [⟨.ok, []⟩] } :=
  exec_reset s

/-- Settles O8: RESET's encoding and its register writes; every other command keeps a recorded fault, as the proof of
O51 shows command by command. -/
theorem resetClearsEveryRegister : Obligations.ResetClearsEveryRegister := by
  refine ⟨fun s rest => ⟨decode_reset rest, exec_reset_registers s⟩, ?otherCommandsKeepFault⟩
  intro i s t hi hs hexec
  exact exec_keeps_fault hexec hi hs

end Sys2Proof.Machine
end

section
/-! The command encoding, both ways: the decoder reads every well-formed command back from its bytes, and whatever it
reads are a well-formed command's bytes (R70 to R75). -/

namespace Sys2Proof.Machine

/-! ## Reading a command back, for the formats not read above (R71) -/

theorem decode_toBytes {p : List Byte} (hp : p.length < 65536) (h : Header) (rest : List Byte) :
    decode (0x11#8 :: (h.toBytes ++ (encodeData p ++ rest))) = .command (.toBytes h p) rest := by
  have hread : operandsOf 0x11#8 = some fun bs =>
      (takeHeader bs).bind fun h => (takeData h.2).map fun p => (.toBytes h.1 p.1, p.2) := rfl
  rw [decode_cons_of_some hread, takeHeader_toBytes, Option.bind_some, takeData_encodeData hp]
  rfl

theorem decode_codecDecode {p : List Byte} (hp : p.length < 65536) (k : Byte) (h : Header) (rest : List Byte) :
    decode (0x30#8 :: k :: (h.toBytes ++ (encodeData p ++ rest))) = .command (.codecDecode k h p) rest := by
  have hread : operandsOf 0x30#8 = some fun bs =>
      (takeByte bs).bind fun k => (takeHeader k.2).bind fun h =>
        (takeData h.2).map fun p => (.codecDecode k.1 h.1 p.1, p.2) := rfl
  have hk : takeByte (k :: (h.toBytes ++ (encodeData p ++ rest))) = some (k, h.toBytes ++ (encodeData p ++ rest)) := rfl
  rw [decode_cons_of_some hread, hk, Option.bind_some, takeHeader_toBytes, Option.bind_some, takeData_encodeData hp]
  rfl

theorem decode_codecEncode {v : List Word64} (hv : v.length < 65536) (k : Byte) (rest : List Byte) :
    decode (0x31#8 :: k :: (leBytes 2 v.length ++ ((v.flatMap fun x => leBytes 8 x.toNat) ++ rest)))
      = .command (.codecEncode k v) rest := by
  have hread : operandsOf 0x31#8 = some fun bs =>
      (takeByte bs).bind fun k => (takeU16 k.2).bind fun m =>
        (takeValues m.1 m.2).map fun v => (.codecEncode k.1 v.1, v.2) := rfl
  have hk : ∀ r, takeByte (k :: r) = some (k, r) := fun _ => rfl
  rw [decode_cons_of_some hread, hk, Option.bind_some, takeU16_leBytes hv, Option.bind_some, takeValues_flatMap]
  rfl

theorem decode_bfPack {items : List PackItem} (hitems : items.length < 256) (w : Byte) (rest : List Byte) :
    decode (0x42#8 :: w :: BitVec.ofNat 8 items.length :: (items.flatMap encodeItem ++ rest))
      = .command (.bfPack w items) rest := by
  have hread : operandsOf 0x42#8 = some fun bs =>
      (takeByte bs).bind fun w => (takeByte w.2).bind fun m =>
        (takeItems m.1.toNat m.2).map fun is => (.bfPack w.1 is.1, is.2) := rfl
  have hbyte : ∀ b r, takeByte (b :: r) = some (b, r) := fun _ _ => rfl
  have hcount : (BitVec.ofNat 8 items.length).toNat = items.length := by
    rw [BitVec.toNat_ofNat, Nat.mod_eq_of_lt hitems]
  rw [decode_cons_of_some hread, hbyte, Option.bind_some, hbyte, Option.bind_some, hcount, takeItems_flatMap]
  rfl

theorem fitsU16_iff (n : Nat) : fitsU16 n = true ↔ n < 65536 := by simp [fitsU16]

/-- Settles O1, command by command: the reader of each opcode reads each operand back, and a count that fits its field
announces exactly the counted part. -/
theorem decodeOfEncodeIsTheCommand : Obligations.DecodeOfEncodeIsTheCommand := by
  intro i rest hwf
  cases i with
  | addData d => exact decode_addData ((fitsU16_iff _).1 hwf) rest
  | decode => exact decode_decode rest
  | readCrcErrors => exact decode_readCrcErrors rest
  | readStatus => exact decode_readStatus rest
  | reset => exact decode_reset rest
  | encode id length p => exact decode_encode ((fitsU16_iff _).1 hwf) id length rest
  | toBytes h p =>
    simpa [encode] using decode_toBytes ((fitsU16_iff _).1 hwf) h rest
  | lrc b0 b1 b2 b3 => exact decode_lrc b0 b1 b2 b3 rest
  | crc16 d => exact decode_crc16 ((fitsU16_iff _).1 hwf) rest
  | codecDecode k h p =>
    simpa [encode] using decode_codecDecode ((fitsU16_iff _).1 hwf) k h rest
  | codecEncode k v =>
    simpa [encode] using decode_codecEncode ((fitsU16_iff _).1 hwf) k rest
  | rdScalar ty off d =>
    simpa [encode] using decode_rdScalar ((fitsU16_iff _).1 hwf) ty off rest
  | bfExtract w word shift nbits =>
    simpa [encode] using decode_bfExtract (by simpa [Instr.wf] using hwf) shift nbits rest
  | bfPack w items => exact decode_bfPack (of_decide_eq_true hwf) w rest

/-! ## What was read -/

/-- Whatever the reader of an opcode reads is a well-formed command, and the opcode and the bytes read are its
encoding. -/
def ReadsEncodings (op : Byte) (read : List Byte → Option (Instr × List Byte)) : Prop :=
  ∀ (r : List Byte) (i : Instr) (rest : List Byte), read r = some (i, rest) →
    i.wf = true ∧ op :: r = encode i ++ rest

/-- Opcode by opcode: each operand reader gives the bytes it read (R71), and they stand in the order of the format. -/
theorem operandsOf_readsEncodings {op : Byte} {read : List Byte → Option (Instr × List Byte)}
    (hread : operandsOf op = some read) : ReadsEncodings op read := by
  unfold operandsOf at hread
  intro r i rest h
  split at hread <;> cases hread <;>
    simp only [Option.bind_eq_some_iff, Option.map_eq_some_iff, Prod.exists, Prod.mk.injEq, takeByte_eq_some,
      takeBytes_eq_some, takeU16_eq_some, takeData_eq_some, takeHeader_eq_some, takeValues_eq_some,
      takeItems_eq_some, Option.some.injEq] at h
  case h_1 =>
    obtain ⟨d, r₁, ⟨hd, rfl⟩, rfl, rfl⟩ := h
    exact ⟨(fitsU16_iff _).2 hd, rfl⟩
  case h_2 | h_3 | h_4 | h_5 =>
    obtain ⟨rfl, rfl⟩ := h
    exact ⟨rfl, rfl⟩
  case h_6 =>
    obtain ⟨id, r₁, rfl, length, r₂, rfl, p, r₃, ⟨hp, rfl⟩, rfl, rfl⟩ := h
    exact ⟨(fitsU16_iff _).2 hp, rfl⟩
  case h_7 =>
    obtain ⟨hd, r₁, rfl, p, r₂, ⟨hp, rfl⟩, rfl, rfl⟩ := h
    exact ⟨(fitsU16_iff _).2 hp, by simp [encode]⟩
  case h_8 =>
    obtain ⟨b0, r₀, rfl, b1, r₁, rfl, b2, r₂, rfl, b3, r₃, rfl, rfl, rfl⟩ := h
    exact ⟨rfl, rfl⟩
  case h_9 =>
    obtain ⟨d, r₁, ⟨hd, rfl⟩, rfl, rfl⟩ := h
    exact ⟨(fitsU16_iff _).2 hd, rfl⟩
  case h_10 =>
    obtain ⟨k, r₀, rfl, hd, r₁, rfl, p, r₂, ⟨hp, rfl⟩, rfl, rfl⟩ := h
    exact ⟨(fitsU16_iff _).2 hp, by simp [encode]⟩
  case h_11 =>
    obtain ⟨k, r₀, rfl, m, r₁, ⟨hm, rfl⟩, v, r₂, ⟨rfl, rfl⟩, rfl, rfl⟩ := h
    exact ⟨(fitsU16_iff _).2 hm, by simp [encode]⟩
  case h_12 =>
    obtain ⟨ty, r₀, rfl, off, r₁, ⟨hoff, rfl⟩, d, r₂, ⟨hd, rfl⟩, rfl, rfl⟩ := h
    have hoff16 : off % 65536 = off := Nat.mod_eq_of_lt hoff
    exact ⟨(fitsU16_iff _).2 hd, by simp [encode, hoff16]⟩
  case h_13 =>
    obtain ⟨w, r₀, rfl, word, r₁, ⟨hword, rfl⟩, shift, r₂, rfl, nbits, r₃, rfl, rfl, rfl⟩ := h
    exact ⟨beq_iff_eq.2 hword, by simp [encode]⟩
  case h_14 =>
    obtain ⟨w, r₀, rfl, m, r₁, rfl, items, r₂, ⟨hm, rfl⟩, rfl, rfl⟩ := h
    have hlen : items.length < 256 := hm ▸ m.isLt
    have hcount : BitVec.ofNat 8 items.length = m := by simp [hm]
    exact ⟨decide_eq_true hlen, by simp [encode, hcount]⟩

/-- Settles O2: a decoded command was read by the reader of its opcode, which reads encodings only. -/
theorem decodedBytesAreTheEncoding : Obligations.DecodedBytesAreTheEncoding := by
  intro bs i rest h
  obtain ⟨op, r, read, rfl, hread, hr⟩ := decode_eq_command h
  exact operandsOf_readsEncodings hread r i rest hr

/-! ## When a command is complete (R72) -/

theorem byteAt_append {bs : List Byte} {i : Nat} (h : i < bs.length) (more : List Byte) :
    byteAt (bs ++ more) i = byteAt bs i := by
  simp [byteAt, List.getElem?_append_left h]

theorem u16At_append {bs : List Byte} {i : Nat} (h : i + 1 < bs.length) (more : List Byte) :
    u16At (bs ++ more) i = u16At bs i := by
  rw [u16At, u16At, byteAt_append (by omega), byteAt_append h]

/-- The opcode and the count field of a command that has arrived give the same length whatever follows it (R72). -/
theorem commandLength_append {bs : List Byte} (hne : bs ≠ []) (h : commandLength bs ≤ bs.length) (more : List Byte) :
    commandLength (bs ++ more) = commandLength bs := by
  obtain ⟨op, r, rfl⟩ := List.exists_cons_of_ne_nil hne
  simp only [commandLength, List.cons_append] at h ⊢
  simp only [← List.cons_append]
  cases hf : formatOf op with
  | none => rfl
  | some f =>
    rw [hf] at h
    cases f with
    | N | L => rfl
    | B | E | F | K | V | S => simp only at h ⊢; rw [u16At_append (by omega)]
    | X | P => simp only at h ⊢; rw [byteAt_append (by omega)]

/-- The length that a well-formed command's opcode and count field give is the number of its bytes (R72). -/
theorem commandLength_encode {i : Instr} (hwf : i.wf = true) : commandLength (encode i) = (encode i).length := by
  cases i with
  | addData d => exact Laws.EncodedLength.addData d hwf
  | decode => exact Laws.EncodedLength.decode hwf
  | readCrcErrors => exact Laws.EncodedLength.readCrcErrors hwf
  | readStatus => exact Laws.EncodedLength.readStatus hwf
  | reset => exact Laws.EncodedLength.reset hwf
  | encode id length p => exact Laws.EncodedLength.encode id length p hwf
  | toBytes h p => exact Laws.EncodedLength.toBytes h p hwf
  | lrc b0 b1 b2 b3 => exact Laws.EncodedLength.lrc b0 b1 b2 b3 hwf
  | crc16 d => exact Laws.EncodedLength.crc16 d hwf
  | codecDecode k h p => exact Laws.EncodedLength.codecDecode k h p hwf
  | codecEncode k v => exact Laws.EncodedLength.codecEncode k v hwf
  | rdScalar ty off d => exact Laws.EncodedLength.rdScalar ty off d hwf
  | bfExtract w word shift nbits => exact Laws.EncodedLength.bfExtract w word shift nbits hwf
  | bfPack w items => exact Laws.EncodedLength.bfPack w items hwf

theorem encode_ne_nil (i : Instr) : encode i ≠ [] := by cases i <;> simp [encode]

/-- A decoded command takes exactly the bytes that R72 gives it. -/
theorem length_of_decode_command {bs rest : List Byte} {i : Instr} (h : decode bs = .command i rest) :
    bs.length = commandLength bs + rest.length := by
  obtain ⟨hwf, rfl⟩ := decodedBytesAreTheEncoding bs i rest h
  have hlen := commandLength_encode hwf
  rw [commandLength_append (encode_ne_nil i) hlen.le, hlen, List.length_append]

theorem decode_eq_illegal_iff {bs rest : List Byte} {op : Byte} :
    decode bs = .illegal op rest ↔ bs = op :: rest ∧ formatOf op = none := by
  rw [formatOf_eq_none_iff]
  constructor
  · intro h
    unfold decode at h
    split at h
    · cases h
    · rename_i o r
      split at h
      · cases h
        exact ⟨rfl, by assumption⟩
      · split at h <;> cases h
  · rintro ⟨rfl, hop⟩
    exact decode_cons_of_none hop rest

/-- Reading on from a first part fails at the first part, or behind it. -/
theorem bind_eq_none_cases {α β : Type} {o : Option α} {f : α → Option β} :
    o.bind f = none ↔ o = none ∨ ∃ a, o = some a ∧ f a = none := by
  cases o <;> simp

theorem u16At_cons (b : Byte) (bs : List Byte) (i : Nat) : u16At (b :: bs) (i + 1) = u16At bs i := rfl

theorem u16At_leBytes {n : Nat} (h : n < 65536) (bs : List Byte) : u16At (leBytes 2 n ++ bs) 0 = n := by
  simpa [Laws.EncodedLength.leBytes_two, u16At, byteAt] using Laws.EncodedLength.count_field h

/-- Opcode by opcode: an operand reader misses bytes only where fewer have arrived than R72 asks for. -/
theorem lt_commandLength_of_read_eq_none {op : Byte} {read : List Byte → Option (Instr × List Byte)}
    (hread : operandsOf op = some read) {r : List Byte} (h : read r = none) :
    (op :: r).length < commandLength (op :: r) := by
  unfold operandsOf at hread
  split at hread <;> cases hread <;>
    simp only [bind_eq_none_cases, Option.map_eq_none_iff, Prod.exists, takeByte_eq_none, takeByte_eq_some,
      takeBytes_eq_none, takeBytes_eq_some, takeU16_eq_none, takeData_eq_none, takeHeader_eq_none,
      takeHeader_eq_some, takeValues_eq_none, takeItems_eq_none, reduceCtorEq] at h <;>
    simp only [commandLength, formatOf, List.length_cons]
  case h_1 | h_9 =>
    rw [u16At_cons]
    omega
  case h_6 =>
    rcases h with h | ⟨id, r₁, rfl, h | ⟨length, r₂, rfl, h⟩⟩
    · omega
    all_goals
      simp only [u16At_cons, List.length_cons]
      omega
  case h_7 =>
    rcases h with h | ⟨hd, r₁, rfl, h⟩
    · omega
    · simp only [Header.toBytes, List.cons_append, List.nil_append, u16At_cons, List.length_cons]
      omega
  case h_8 =>
    rcases h with h | ⟨b0, r₀, rfl, h | ⟨b1, r₁, rfl, h | ⟨b2, r₂, rfl, h⟩⟩⟩
    · omega
    all_goals
      simp only [List.length_cons]
      omega
  case h_10 =>
    rcases h with h | ⟨k, r₀, rfl, h | ⟨hd, r₁, rfl, h⟩⟩
    · omega
    · simp only [List.length_cons]
      omega
    · simp only [Header.toBytes, List.cons_append, List.nil_append, u16At_cons, List.length_cons]
      omega
  case h_11 =>
    rcases h with h | ⟨k, r₀, rfl, h | ⟨m, r₁, hm, h⟩⟩
    · omega
    · simp only [List.length_cons]
      omega
    · obtain ⟨hlt, rfl⟩ := takeU16_eq_some.1 hm
      simp only [u16At_cons, u16At_leBytes hlt, List.length_cons, List.length_append, leBytes_length]
      omega
  case h_12 =>
    rcases h with h | ⟨ty, r₀, rfl, h | ⟨off, r₁, hoff, h⟩⟩
    · omega
    · simp only [List.length_cons]
      omega
    · obtain ⟨-, rfl⟩ := takeU16_eq_some.1 hoff
      simp only [Laws.EncodedLength.leBytes_two, List.cons_append, List.nil_append, u16At_cons, List.length_cons]
      omega
  case h_13 =>
    rcases h with h | ⟨w, r₀, rfl, h | ⟨word, r₁, ⟨hword, rfl⟩, h | ⟨shift, r₂, rfl, h⟩⟩⟩
    · omega
    all_goals
      simp only [byteAt_cons_succ, byteAt_cons_zero, List.length_cons, List.length_append]
      omega
  case h_14 =>
    rcases h with h | ⟨w, r₀, rfl, h | ⟨m, r₁, rfl, h⟩⟩
    · omega
    · simp only [List.length_cons]
      omega
    · simp only [byteAt_cons_succ, byteAt_cons_zero, List.length_cons]
      omega

/-- Settles O3: a command that lacks bytes is shorter than R72's length, a decoded one has at least that length, and
an unassigned opcode is a whole command of one byte. -/
theorem commandLengthDecidesCompleteness : Obligations.CommandLengthDecidesCompleteness := by
  intro bs
  refine ⟨⟨fun h => ?lacks, fun hlt => ?incomplete⟩, fun i rest => length_of_decode_command,
    fun op rest => decode_eq_illegal_iff⟩
  case lacks =>
    cases bs with
    | nil => exact Nat.one_pos
    | cons op r =>
      cases hread : operandsOf op with
      | none => cases (decode_cons_of_none hread r).symm.trans h
      | some read => exact lt_commandLength_of_read_eq_none hread ((decode_cons_incomplete hread r).1 h)
  case incomplete =>
    cases hport : decode bs with
    | command i rest =>
      have := length_of_decode_command hport
      omega
    | illegal op rest =>
      obtain ⟨rfl, hop⟩ := decode_eq_illegal_iff.1 hport
      simp [commandLength, hop] at hlt
    | incomplete => rfl

/-! ## Steps on what the command port holds (R72, R74) -/

/-- No proper first part of a command is a command or an unassigned opcode: with the missing bytes behind it, it would
be decoded to something else than that command. -/
theorem decode_take_encode {i : Instr} (hwf : i.wf = true) {n : Nat} (hn : n < (encode i).length) :
    decode ((encode i).take n) = .incomplete := by
  have hwhole : decode (encode i) = .command i [] := by
    simpa using decodeOfEncodeIsTheCommand i [] hwf
  rw [← List.take_append_drop n (encode i)] at hwhole
  cases hport : decode ((encode i).take n) with
  | command j rest =>
    obtain ⟨hj, htake⟩ := decodedBytesAreTheEncoding _ j rest hport
    rw [htake, List.append_assoc, decodeOfEncodeIsTheCommand j _ hj, Decoded.command.injEq,
      List.append_eq_nil_iff, List.drop_eq_nil_iff] at hwhole
    omega
  | illegal op rest =>
    obtain ⟨htake, hop⟩ := decode_eq_illegal_iff.1 hport
    rw [htake, List.cons_append, decode_cons_of_none ((formatOf_eq_none_iff op).1 hop)] at hwhole
    cases hwhole
  | incomplete => rfl

/-- Settles O4: a proper first part of a command is incomplete, so the step waits. -/
theorem partialCommandIsHeld : Obligations.PartialCommandIsHeld := by
  intro s i n hwf hn hcmd
  exact step_of_incomplete (hcmd ▸ decode_take_encode hwf hn)

/-- Settles O5: the state with the rest on its port is the one in which the command's bytes are consumed. -/
theorem stepRunsTheDecodedCommand : Obligations.StepRunsTheDecodedCommand :=
  fun _ _ _ hport => step_of_command hport

theorem operandsOf_of_unassigned {op : Byte}
    (hop : op ∉ [0x01#8, 0x02#8, 0x03#8, 0x04#8, 0x0F#8, 0x10#8, 0x11#8, 0x20#8, 0x21#8, 0x30#8, 0x31#8, 0x40#8,
      0x41#8, 0x42#8]) : operandsOf op = none := by
  unfold operandsOf
  split
  case h_15 => rfl
  all_goals exact absurd (by decide) hop

theorem ofCode_of_unlisted {ty : Byte} (hty : ty = 0#8 ∨ 0x0A#8 < ty) : ScalarType.ofCode ty = none := by
  revert ty
  decide

theorem exec_bfPack (s : State) (w : Byte) (items : List PackItem) :
    exec (.bfPack w items) s = commitData s (bfPack w items) := rfl

theorem exec_codecEncode (s : State) (k : Byte) (v : List Word64) :
    exec (.codecEncode k v) s = commitData s (codecEncode s.cfg k v) := rfl

theorem bfPack_of_badWidth {w : Byte} (hw : w ∉ [1#8, 2#8, 4#8, 8#8]) (items : List PackItem) :
    bfPack w items = .error .badOperand := by
  rw [bfPack, if_pos (Bool.eq_false_iff.2 (mt (legalWidth_iff w).1 hw))]

theorem codecEncode_of_absent {P : Config} {k : Byte} (hk : P.layout k = none) (v : List Word64) :
    codecEncode P k v = .error .badOperand := by
  rw [codecEncode, hk]

/-- Settles O6: the decoder finds no reader for the opcode, and each command looks at its operand's legal set before
anything else. -/
theorem illegalEncodingsFault : Obligations.IllegalEncodingsFault := by
  refine ⟨fun s op rest hop hcmd => ?opcode, fun s ty off d hty => ?scalarType,
    fun s w shift nbits word items hw => ⟨?extractWidth, ?packWidth⟩,
    fun s k h p v hk => ⟨exec_codecDecode_of_absent hk h p, ?encodeLayout⟩⟩
  case opcode =>
    have hport : decode s.cmd = .illegal op rest := by
      rw [hcmd, decode_cons_of_none (operandsOf_of_unassigned hop)]
    exact step_of_illegal hport
  case scalarType => rw [exec_rdScalar, rdScalar_of_unknown (ofCode_of_unlisted hty), commitData_error]
  case extractWidth => rw [exec_bfExtract, bfExtract_of_badWidth hw, commitData_error]
  case packWidth => rw [exec_bfPack, bfPack_of_badWidth hw, commitData_error]
  case encodeLayout => rw [exec_codecEncode, codecEncode_of_absent hk, commitData_error]

/-- Settles O7: each word is the encoding of its command, so the decoder reads the command back from it. -/
theorem writtenOutWordsDecode : Obligations.WrittenOutWordsDecode := by
  have hread := decodeOfEncodeIsTheCommand
  exact ⟨hread (.addData [0x30, 0x02]) [] rfl, hread .decode [0x03] rfl, hread (.encode 0x01 0x02 [0x02]) [] rfl,
    hread (.toBytes ⟨0x8b, 0x01, 0x01, 0xb2, 0xc1⟩ [0x02]) [] rfl, hread (.lrc 0x01 0x01 0xb2 0xc1) [] rfl,
    hread (.codecDecode 0x01 ⟨0x82, 0x00, 0x04, 0x79, 0x01⟩ [0xb8]) [] rfl,
    hread (.codecEncode 0x01 [0x0807060504030201]) [] rfl, hread (.rdScalar 0x03 0x0201 [0xaa]) [] rfl,
    hread (.bfExtract 0x02 [0x34, 0x12] 0x04 0x08) [] rfl, hread (.bfPack 0x01 [⟨2, 0x00, 0x01⟩]) [] rfl⟩

end Sys2Proof.Machine
end

section
/-! DECODE as a function of the pending bytes: the scanning loop of the machine is the recursive `scan` of R162, and
what holds of `scan` holds of DECODE (R52, R161 to R170, R284). -/

namespace Sys2Proof.Machine

/-! ## One pass of `scan` (R162) -/

section
variable {w e : Nat} {q r : List Byte} {b id len lo hi : Byte}

theorem pendScan_nil (w e : Nat) : pendScan w [] e = ([], e, none) := rfl

/-- Fewer than five bytes wait for more (R151). -/
theorem pendScan_short (h : q.length < 5) : pendScan w q e = (q, e, none) := by
  match q, h with
  | [], _ | [_], _ | [_, _], _ | [_, _, _], _ | [_, _, _, _], _ => simp [pendScan]

/-- Five bytes are a candidate header: `scan` decides on it as R152 to R156 say. -/
theorem pendScan_candidate (w e : Nat) (b id len lo hi : Byte) (r : List Byte) :
    pendScan w (b :: id :: len :: lo :: hi :: r) e =
      if lrc id len lo hi ≠ b then pendScan w (id :: len :: lo :: hi :: r) e
      else if r.length < len.toNat then (b :: id :: len :: lo :: hi :: r, e, none)
      else if (crc16 (r.take len.toNat)).toNat ≠ lo.toNat + 256 * hi.toNat then
        pendScan w (id :: len :: lo :: hi :: r) ((e + 1) % 2 ^ w)
      else (r.drop len.toNat, e, some (b :: id :: len :: lo :: hi :: r.take len.toNat)) := by
  rw [pendScan]

theorem pendScan_noise (hl : lrc id len lo hi ≠ b) :
    pendScan w (b :: id :: len :: lo :: hi :: r) e = pendScan w (id :: len :: lo :: hi :: r) e := by
  rw [pendScan_candidate, if_pos hl]

theorem pendScan_wait (hl : lrc id len lo hi = b) (hr : r.length < len.toNat) :
    pendScan w (b :: id :: len :: lo :: hi :: r) e = (b :: id :: len :: lo :: hi :: r, e, none) := by
  rw [pendScan_candidate, if_neg (not_not.2 hl), if_pos hr]

theorem pendScan_mismatch (hl : lrc id len lo hi = b) (hr : len.toNat ≤ r.length)
    (hcrc : (crc16 (r.take len.toNat)).toNat ≠ lo.toNat + 256 * hi.toNat) :
    pendScan w (b :: id :: len :: lo :: hi :: r) e = pendScan w (id :: len :: lo :: hi :: r) ((e + 1) % 2 ^ w) := by
  rw [pendScan_candidate, if_neg (not_not.2 hl), if_neg (not_lt.2 hr), if_pos hcrc]

theorem pendScan_accept (hl : lrc id len lo hi = b) (hr : len.toNat ≤ r.length)
    (hcrc : (crc16 (r.take len.toNat)).toNat = lo.toNat + 256 * hi.toNat) :
    pendScan w (b :: id :: len :: lo :: hi :: r) e
      = (r.drop len.toNat, e, some (b :: id :: len :: lo :: hi :: r.take len.toNat)) := by
  rw [pendScan_candidate, if_neg (not_not.2 hl), if_neg (not_lt.2 hr), if_neg (not_not.2 hcrc)]

end

/-- Every byte string is short or has a candidate header at its front. -/
theorem short_or_candidate (q : List Byte) :
    q.length < 5 ∨ ∃ b id len lo hi r, q = b :: id :: len :: lo :: hi :: r := by
  match q with
  | [] | [_] | [_, _] | [_, _, _] | [_, _, _, _] => simp
  | b :: id :: len :: lo :: hi :: r => exact .inr ⟨b, id, len, lo, hi, r, rfl⟩

/-! ## The machine's loop is `scan` (R162) -/

/-- The bytes of the frame that an outcome returns. -/
def ScanOutcome.data : ScanOutcome → Option (List Byte)
  | .starved => none
  | .frameReady f => some (frameBytes f)

/-- The loop over the buffer from the cursor is `scan` over the bytes from the cursor on. -/
theorem pendScan_drop (P : Config) (buf : List Byte) (rem cur e : Nat) (hrem : buf.length = cur + rem) :
    pendScan P.cntW (buf.drop cur) e =
      (buf.drop (scanLoop P buf rem cur e).cur, (scanLoop P buf rem cur e).crcErrors,
        (scanLoop P buf rem cur e).outcome.data) := by
  induction rem generalizing cur e with
  | zero =>
    rw [List.drop_of_length_le (by omega), pendScan_nil, scanLoop_zero, List.drop_of_length_le (by simp; omega)]
    rfl
  | succ rem ih =>
    rcases short_or_candidate (buf.drop cur) with hshort | ⟨b, id, len, lo, hi, r, hq⟩
    · rw [pendScan_short hshort, scanLoop_short (by rw [List.length_drop] at hshort; omega)]
      rfl
    · have hc : candidate buf cur = some ⟨b, id, len, lo, hi⟩ := candidate_of_take (by rw [hq]; rfl)
      have hnext : buf.drop (cur + 1) = id :: len :: lo :: hi :: r := by rw [← List.drop_drop, hq]; rfl
      have hr : buf.drop (cur + 5) = r := by rw [← List.drop_drop, hq]; rfl
      have hrlen : r.length = buf.length - (cur + 5) := by rw [← hr, List.length_drop]
      have hcur := (candidate_eq_some.1 hc).1
      rw [hq]
      by_cases hl : lrc id len lo hi = b
      case neg => rw [pendScan_noise hl, scanLoop_noise hc hl, ← hnext, ih (cur + 1) e (by omega)]
      case pos =>
        by_cases hwait : r.length < len.toNat
        case pos =>
          rw [pendScan_wait hl hwait, scanLoop_wait hc hl (by simp only; omega), ← hq]
          rfl
        case neg =>
          have hp : memRead buf (cur + 5) len.toNat = some (r.take len.toNat) :=
            memRead_eq_some.2 ⟨by omega, by rw [hr]⟩
          by_cases hcrc : (crc16 (r.take len.toNat)).toNat = lo.toNat + 256 * hi.toNat
          case pos =>
            rw [pendScan_accept hl (not_lt.1 hwait) hcrc,
              scanLoop_accept hc hl hp ((crc_eq_headerCrc_iff _ _).2 hcrc)]
            simp [ScanOutcome.data, frameBytes, Header.toBytes, ← hr, List.drop_drop]
          case neg =>
            rw [pendScan_mismatch hl (not_lt.1 hwait) hcrc,
              scanLoop_mismatch hc hl hp (mt (crc_eq_headerCrc_iff _ _).1 hcrc), ← hnext,
              ih (cur + 1) _ (by omega)]
            rfl

/-- The scan from a state's registers, from its pending bytes and its counter. -/
theorem pendScan_pend {s : State} (hc : s.cur ≤ s.buf.length) :
    pendScan s.cfg.cntW s.pend s.crcErrors =
      (s.buf.drop (scanState s).cur, (scanState s).crcErrors, (scanState s).outcome.data) :=
  pendScan_drop s.cfg s.buf (s.buf.length - s.cur) s.cur s.crcErrors (by omega)

/-- The phase and the response that the frame data of `scan` call for (R80, R158). -/
def scanPhase : Option (List Byte) → Phase
  | none => .starved
  | some _ => .frameReady

def scanResponse : Option (List Byte) → Response
  | none => ⟨.none, []⟩
  | some data => ⟨.frame, data⟩

theorem ScanOutcome.phase_eq (o : ScanOutcome) : o.phase = scanPhase o.data := by cases o <;> rfl

theorem outcomeResponse_eq (o : ScanOutcome) : outcomeResponse o = scanResponse o.data := by cases o <;> rfl

/-- DECODE told by `scan`: if `scan` leaves `q` pending with the counter `e` and returns `data`, so does DECODE, and
it changes nothing else (R150, R158, R162). -/
theorem exec_decode_of_pendScan {s : State} {p q : List Byte} {e : Nat} {data : Option (List Byte)}
    (hc : s.cur ≤ s.buf.length) (hp : s.pend = p) (hscan : pendScan s.cfg.cntW p s.crcErrors = (q, e, data)) :
    ∃ t, exec .decode s = .next t ∧ t.pend = q ∧ t.cur ≤ t.buf.length ∧ t.crcErrors = e ∧ t.phase = scanPhase data ∧
      t.fault = s.fault ∧ t.cfg = s.cfg ∧ t.cmd = s.cmd ∧ t.rsp = s.rsp ++ [scanResponse data] := by
  obtain ⟨t, hexec, hpend, hcur, hcount, hphase, hfault, hcfg, hcmd, hrsp⟩ := execDecode_scan hc
  rw [← hp, pendScan_pend hc] at hscan
  cases hscan
  rw [ScanOutcome.phase_eq] at hphase
  rw [outcomeResponse_eq] at hrsp
  exact ⟨t, hexec, hpend, hcur, hcount, hphase, hfault, hcfg, hcmd, hrsp⟩

/-- Settles O27: DECODE is told by `scan`, whatever `scan` gives. -/
theorem decodeIsScanOfThePendingBytes : Obligations.DecodeIsScanOfThePendingBytes := by
  intro s hc
  obtain ⟨t, hexec, hpend, -, hcount, hphase, -, -, -, hrsp⟩ := exec_decode_of_pendScan hc rfl rfl
  refine ⟨t, hexec, hpend, hcount, ?_⟩
  cases hdata : (pendScan s.cfg.cntW s.pend s.crcErrors).2.2 with
  | none => exact ⟨by rw [hphase, hdata]; rfl, by rw [hrsp, hdata]; rfl⟩
  | some data => exact ⟨by rw [hphase, hdata]; rfl, by rw [hrsp, hdata]; rfl⟩

/-! ## `scan` takes a run off the front (R161) -/

/-- `scan` skips some bytes, returns the bytes behind them, and leaves the bytes behind those; a frame has a header. -/
theorem pendScan_split (w : Nat) (q : List Byte) (e : Nat) :
    ∃ skipped, q = skipped ++ (pendScan w q e).2.2.getD [] ++ (pendScan w q e).1 ∧
      ∀ data, (pendScan w q e).2.2 = some data → 5 ≤ data.length := by
  induction q generalizing e with
  | nil => exact ⟨[], rfl, by simp [pendScan_nil]⟩
  | cons b q ih =>
    have skip : ∀ e', pendScan w (b :: q) e = pendScan w q e' →
        ∃ skipped, b :: q = skipped ++ (pendScan w (b :: q) e).2.2.getD [] ++ (pendScan w (b :: q) e).1 ∧
          ∀ data, (pendScan w (b :: q) e).2.2 = some data → 5 ≤ data.length := by
      intro e' heq
      obtain ⟨skipped, hq, hdata⟩ := ih e'
      rw [heq]
      exact ⟨b :: skipped, by rw [List.cons_append, List.cons_append, ← hq], hdata⟩
    rcases short_or_candidate (b :: q) with hshort | ⟨_, id, len, lo, hi, r, hq⟩
    · exact ⟨[], by simp [pendScan_short hshort], by simp [pendScan_short hshort]⟩
    · cases hq
      by_cases hl : lrc id len lo hi = b
      case neg => exact skip e (pendScan_noise hl)
      case pos =>
        by_cases hwait : r.length < len.toNat
        case pos => exact ⟨[], by simp [pendScan_wait hl hwait], by simp [pendScan_wait hl hwait]⟩
        case neg =>
          by_cases hcrc : (crc16 (r.take len.toNat)).toNat = lo.toNat + 256 * hi.toNat
          case pos =>
            refine ⟨[], ?_, ?_⟩ <;> rw [pendScan_accept hl (not_lt.1 hwait) hcrc]
            · simp
            · rintro data ⟨⟩
              simp
          case neg => exact skip _ (pendScan_mismatch hl (not_lt.1 hwait) hcrc)

/-- Settles O26: the run that `scan` takes off the pending bytes. -/
theorem decodeReturnsBytesInStreamOrder : Obligations.DecodeReturnsBytesInStreamOrder := by
  intro s hc
  obtain ⟨t, hexec, hpend, hcur, -, -, -, -, -, hrsp⟩ := exec_decode_of_pendScan hc rfl rfl
  obtain ⟨skipped, hsplit, hheader⟩ := pendScan_split s.cfg.cntW s.pend s.crcErrors
  refine ⟨t, skipped, _, hexec, by rw [hpend]; exact hsplit, hcur, ?_⟩
  cases hdata : (pendScan s.cfg.cntW s.pend s.crcErrors).2.2 with
  | none => exact .inr ⟨by rw [hrsp, hdata]; rfl, rfl⟩
  | some data => exact .inl ⟨by rw [hrsp, hdata]; rfl, hheader data hdata⟩

theorem pendScan_length_le (w : Nat) (q : List Byte) (e : Nat) : (pendScan w q e).1.length ≤ q.length := by
  obtain ⟨skipped, hsplit, -⟩ := pendScan_split w q e
  have := congrArg List.length hsplit
  simp only [List.length_append] at this
  omega

/-- With a largest frame's bytes pending, the candidate at the front is decided on, so its first byte at least is
consumed. -/
theorem pendScan_length_lt {w : Nat} {q : List Byte} (hq : 260 ≤ q.length) (e : Nat) :
    (pendScan w q e).1.length < q.length := by
  obtain hshort | ⟨b, id, len, lo, hi, r, rfl⟩ := short_or_candidate q
  · omega
  · have skip (e' : Nat) :
        (pendScan w (id :: len :: lo :: hi :: r) e').1.length < (b :: id :: len :: lo :: hi :: r).length :=
      Nat.lt_succ_of_le (pendScan_length_le w _ e')
    have hlen := len.isLt
    have hr : len.toNat ≤ r.length := by
      simp only [List.length_cons] at hq
      omega
    by_cases hl : lrc id len lo hi = b
    case neg =>
      rw [pendScan_noise hl]
      exact skip e
    case pos =>
      by_cases hcrc : (crc16 (r.take len.toNat)).toNat = lo.toNat + 256 * hi.toNat
      case pos =>
        rw [pendScan_accept hl hr hcrc]
        simp only [List.length_drop, List.length_cons]
        omega
      case neg =>
        rw [pendScan_mismatch hl hr hcrc]
        exact skip _

/-- Settles O31: 260 bytes hold a header and the longest payload. -/
theorem fullBufferAlwaysFreesRoom : Obligations.FullBufferAlwaysFreesRoom := by
  intro s hfull
  obtain ⟨t, hexec, hpend, -⟩ := exec_decode_of_pendScan (s := s) (by omega) rfl rfl
  exact ⟨t, hexec, by rw [hpend]; exact pendScan_length_lt (by rw [pend_length]; exact hfull) _⟩

/-! ## `scan` on valid frames (R166, R169, R170) -/

/-- A valid frame at the front is returned, and what follows it stays. -/
theorem pendScan_frame {v : List Byte} (hv : ValidFrameBytes v) (w e : Nat) (after : List Byte) :
    pendScan w (v ++ after) e = (after, e, some v) := by
  obtain ⟨b, id, len, lo, hi, p, rfl, hlen, hlrc, hcrc⟩ := hv
  have hacc := pendScan_accept (w := w) (e := e) (r := p ++ after) hlrc.symm (by simp [hlen])
    (by rw [← hlen, List.take_left]; exact hcrc)
  rw [← hlen, List.take_left, List.drop_left] at hacc
  exact hacc

/-- The first bytes of a valid frame, its last byte missing at least, wait for the others. -/
theorem pendScan_take_frame {v : List Byte} (hv : ValidFrameBytes v) {n : Nat} (hn : n < v.length) (w e : Nat) :
    pendScan w (v.take n) e = (v.take n, e, none) := by
  obtain ⟨b, id, len, lo, hi, p, rfl, hlen, hlrc, -⟩ := hv
  by_cases h5 : n < 5
  · exact pendScan_short (by rw [List.length_take]; omega)
  · obtain ⟨m, rfl⟩ : ∃ m, n = m + 5 := ⟨n - 5, by omega⟩
    refine pendScan_wait hlrc.symm ?_
    simp only [List.length_cons] at hn
    rw [List.length_take]
    omega

/-- A valid frame has a header, and at most 260 bytes. -/
theorem ValidFrameBytes.length_le {v : List Byte} (hv : ValidFrameBytes v) : v.length ≤ 260 := by
  obtain ⟨b, id, len, lo, hi, p, rfl, hlen, -⟩ := hv
  have := len.isLt
  simp only [List.length_cons]
  omega

/-- A rejected candidate costs its first byte, and one count if its CRC failed (R152, R154). -/
theorem pendScan_of_rejects {b : Byte} {q : List Byte} (h : (rejects (b :: q)).1 = true) (w e : Nat) :
    pendScan w (b :: q) e = pendScan w q (if (rejects (b :: q)).2 then (e + 1) % 2 ^ w else e) := by
  obtain hshort | ⟨_, id, len, lo, hi, r, hq⟩ := short_or_candidate (b :: q)
  · match q, hshort with
    | [], _ | [_], _ | [_, _], _ | [_, _, _], _ => simp [rejects] at h
  · cases hq
    rw [rejects] at h ⊢
    by_cases hl : lrc id len lo hi = b
    case neg => rw [if_pos hl, pendScan_noise hl, if_neg (by simp)]
    case pos =>
      rw [if_neg (not_not.2 hl)] at h ⊢
      split_ifs at h with hwait hcrc
      rw [pendScan_mismatch hl (not_lt.1 hwait) hcrc, if_neg hwait, if_pos hcrc, if_pos rfl]

/-- The offsets below `n` at which a candidate with a wrong CRC stands. -/
def crcFailures (q : List Byte) (n : Nat) : Nat := ((List.range n).filter fun i => (rejects (q.drop i)).2).length

theorem crcFailures_succ (b : Byte) (q : List Byte) (n : Nat) :
    crcFailures (b :: q) (n + 1) = (if (rejects (b :: q)).2 then 1 else 0) + crcFailures q n := by
  rw [crcFailures, List.range_succ_eq_map, List.filter_cons, List.filter_map, List.drop_zero]
  split <;> simp [crcFailures, Function.comp_def, Nat.add_comm]

/-- Behind noise of which every offset is rejected, `scan` returns the valid frame (R169). -/
theorem pendScan_resync {v : List Byte} (hv : ValidFrameBytes v) (w : Nat) (noise after : List Byte) (e : Nat)
    (hrej : ∀ i, i < noise.length → (rejects ((noise ++ v ++ after).drop i)).1 = true) :
    ∃ e', pendScan w (noise ++ v ++ after) e = (after, e', some v) ∧
      e' % 2 ^ w = (e + crcFailures (noise ++ v ++ after) noise.length) % 2 ^ w := by
  induction noise generalizing e with
  | nil => exact ⟨e, pendScan_frame hv w e after, by simp [crcFailures]⟩
  | cons b noise ih =>
    have hfirst := hrej 0 (by simp)
    obtain ⟨e', hscan, hmod⟩ := ih (if (rejects (b :: (noise ++ v ++ after))).2 then (e + 1) % 2 ^ w else e)
      fun i hi => hrej (i + 1) (by simpa using hi)
    refine ⟨e', (pendScan_of_rejects hfirst w e).trans hscan, ?_⟩
    rw [hmod, List.cons_append, List.cons_append, List.length_cons, crcFailures_succ]
    split
    · rw [Nat.mod_add_mod, Nat.add_assoc]
    · rw [Nat.zero_add]

/-- Settles O29: the pending bytes are noise, the frame, and what follows it. -/
theorem decodeResynchronizesBehindNoise : Obligations.DecodeResynchronizesBehindNoise := by
  intro s noise v after hc hv hpend hrej
  rw [hpend] at hrej ⊢
  obtain ⟨e', hscan, hmod⟩ := pendScan_resync hv s.cfg.cntW noise after s.crcErrors hrej
  obtain ⟨t, hexec, hafter, -, rfl, -, -, -, -, hrsp⟩ := exec_decode_of_pendScan hc hpend hscan
  exact ⟨t, hexec, hrsp, hafter, hmod⟩

/-- Settles O30: each frame in turn stands at the front, and at last nothing is pending. -/
theorem twoFramesAreReturnedOnceEach : Obligations.TwoFramesAreReturnedOnceEach := by
  intro s f1 f2 hc h1 h2 hpend
  obtain ⟨t, ht, htpend, htc, hte, -, -, -, -, htrsp⟩ :=
    exec_decode_of_pendScan hc hpend (pendScan_frame h1 _ _ f2)
  obtain ⟨u, hu, hupend, huc, hue, -, -, -, -, hursp⟩ :=
    exec_decode_of_pendScan htc (htpend.trans (List.append_nil f2).symm) (pendScan_frame h2 _ _ [])
  obtain ⟨v, hv, hvpend, -, hve, -, -, -, -, hvrsp⟩ :=
    exec_decode_of_pendScan huc hupend (pendScan_nil _ _)
  refine ⟨t, u, v, ht, hu, hv, ?_, hvpend, by rw [hve, hue, hte]⟩
  rw [hvrsp, hursp, htrsp]
  simp [scanResponse]

/-! ## ADD_DATA, then DECODE -/

/-- ADD_DATA and DECODE complete a valid frame of which the first bytes are pending (R124, R166). -/
theorem addData_decode_of_frame {s : State} {v d : List Byte} (hc : s.cur ≤ s.buf.length) (hv : ValidFrameBytes v)
    (hpend : s.pend ++ d = v) (hcap : ∀ c, s.cfg.bufCap = some c → 260 ≤ c) :
    ∃ t u, exec (.addData d) s = .next t ∧ exec .decode t = .next u ∧ u.rsp = t.rsp ++ [⟨.frame, v⟩] ∧ u.pend = [] ∧
      u.crcErrors = s.crcErrors ∧ u.fault = s.fault := by
  have hfits : ∀ c, s.cfg.bufCap = some c → s.pend.length + d.length ≤ c := by
    intro c hb
    have := hcap c hb
    have := hv.length_le
    rw [← List.length_append, hpend]
    omega
  obtain ⟨t, ht, htpend, htc, hte, -, htf, -, -, -⟩ := execAddData_fits d hc hfits
  obtain ⟨u, hu, hupend, -, hue, -, huf, -, -, hursp⟩ := exec_decode_of_pendScan htc
    (by rw [htpend, hpend, List.append_nil]) (pendScan_frame hv _ _ [])
  exact ⟨t, u, ht, hu, hursp, hupend, by rw [hue, hte], by rw [huf, htf]⟩

/-- Settles O28: the frame's first bytes wait (R153), and stay pending for the others. -/
theorem starvingAtAFrameKeepsItPending : Obligations.StarvingAtAFrameKeepsItPending := by
  intro s v n hc hcap hv hn hpend
  obtain ⟨t, ht, htpend, htc, hte, -, -, htcfg, -, htrsp⟩ :=
    exec_decode_of_pendScan hc hpend (pendScan_take_frame hv hn _ _)
  obtain ⟨u, x, hu, hx, hxrsp, hxpend, hxe, -⟩ := addData_decode_of_frame (d := v.drop n) htc hv
    (by rw [htpend, List.take_append_drop]) (by simp [htcfg, hcap])
  exact ⟨t, u, x, ht, htrsp, by rw [htpend, hpend], hte, hu, hx, hxrsp, hxpend, by rw [hxe, hte]⟩

/-- Settles O20: the frame that ENCODE builds is valid, and it is all that is pending. -/
theorem encodeThenDecodeReturnsTheFrame : Obligations.EncodeThenDecodeReturnsTheFrame := by
  intro s id length p hcur hcap hlen
  have hexec := exec_encode_of_length_eq hlen s id
  have hv : ValidFrameBytes (frameBytes (buildFrame id length p)) := validFrameBytes_iff.2 ⟨_, buildFrame_wf hlen, rfl⟩
  have hnone : s.pend = [] := List.drop_of_length_le hcur.ge
  obtain ⟨t, u, ht, hu, hursp, hupend, hue, huf⟩ :=
    addData_decode_of_frame (s := okAfter s (frameBytes (buildFrame id length p)))
      (d := frameBytes (buildFrame id length p)) hcur.le hv (by rw [← respond_ok, respond_pend, hnone]; rfl) hcap
  exact ⟨_, _, _, t, u, hexec, ht, hu, hursp, hupend, hue, huf⟩

/-- Settles O22: without a capacity ADD_DATA appends to the pending bytes, and appending is associative. -/
theorem splittingTheDataDoesNotMatter : Obligations.SplittingTheDataDoesNotMatter := by
  intro s a b hc hcap
  obtain ⟨t, ht, htpend, htc, hte, htp, htf, htcfg, -⟩ := execAddData_fits a hc (by simp [hcap])
  obtain ⟨u, hu, hupend, -, hue, hup, huf, -⟩ := execAddData_fits b htc (by simp [htcfg, hcap])
  obtain ⟨v, hv, hvpend, -, hve, hvp, hvf, -⟩ := execAddData_fits (a ++ b) hc (by simp [hcap])
  refine ⟨t, u, v, ht, hu, hv, ?_, by rw [hupend, htpend], by rw [hue, hte, hve], by rw [hup, htp, hvp],
    by rw [huf, htf, hvf]⟩
  rw [hupend, htpend, hvpend, List.append_assoc]

end Sys2Proof.Machine
end

section
/-! What a command can do, said once: answer and record a fault, append data, scan, or reset. From it: what every
command and every step keeps (R21 to R27, R80, R165, R242, R244). -/

namespace Sys2Proof.Machine

/-! ## A fault's response has no data (R244) -/

/-- If the response is a fault, it is the code alone. -/
def Response.FaultIsBare (r : Response) : Prop := ∀ c, r.status = .fault c → r.data = []

/-- The two commands' states take one response, and the commands do nothing else to them. -/
def AnswerTogether (i : Instr) (s t : State) : Prop :=
  ∃ r : Response, r.FaultIsBare ∧ exec i s = .next (s.answer r) ∧ exec i t = .next (t.answer r)

theorem answerTogether_of_commitData {i : Instr} {s t : State} (result : Except FaultCode (List Byte))
    (hs : exec i s = commitData s result) (ht : exec i t = commitData t result) : AnswerTogether i s t := by
  cases result with
  | ok data => exact ⟨⟨.ok, data⟩, by rintro c ⟨⟩, hs, ht⟩
  | error c => exact ⟨⟨.fault c, []⟩, fun _ _ => rfl, hs, ht⟩

theorem layout_congr {P Q : Config} (h : P.layouts = Q.layouts) (k : Byte) : P.layout k = Q.layout k := by
  rw [Config.layout, Config.layout, h]

theorem codecEncode_congr {P Q : Config} (h : P.layouts = Q.layouts) (k : Byte) (v : List Word64) :
    codecEncode P k v = codecEncode Q k v := by
  rw [codecEncode, codecEncode, layout_congr h]

theorem answerTogether_codecDecode {s t : State} (hl : s.cfg.layouts = t.cfg.layouts) (k : Byte) (h : Header)
    (p : List Byte) : AnswerTogether (.codecDecode k h p) s t := by
  cases hk : t.cfg.layout k with
  | none =>
    exact ⟨⟨.fault .badOperand, []⟩, fun _ _ => rfl, exec_codecDecode_of_absent ((layout_congr hl k).trans hk) h p,
      exec_codecDecode_of_absent hk h p⟩
  | some L =>
    have hks := (layout_congr hl k).trans hk
    cases hv : decodeLayout L h p with
    | ok vals => exact ⟨⟨.ok, _⟩, by rintro c ⟨⟩, exec_codecDecode_of_ok hks hv, exec_codecDecode_of_ok hk hv⟩
    | error stop =>
      cases stop with
      | refuse e =>
        exact ⟨⟨.decodeError, [e.code]⟩, by rintro c ⟨⟩, exec_codecDecode_of_refuse hks hv,
          exec_codecDecode_of_refuse hk hv⟩
      | fault c =>
        exact ⟨⟨.fault c, []⟩, fun _ _ => rfl, exec_codecDecode_of_fault hks hv, exec_codecDecode_of_fault hk hv⟩

/-- All commands but ADD_DATA, DECODE and RESET only answer, and the answer depends on the layout table, the counter
and its width, the phase and the fault register, but not on the buffer or the thresholds (R33, R48, R167, R168). -/
theorem answerTogether_of_registers_eq {i : Instr} {s t : State} (hadd : ∀ d, i ≠ .addData d) (hdec : i ≠ .decode)
    (hreset : i ≠ .reset) (hlayouts : s.cfg.layouts = t.cfg.layouts) (hcntW : s.cfg.cntW = t.cfg.cntW)
    (hcrc : s.crcErrors = t.crcErrors) (hphase : s.phase = t.phase) (hfault : s.fault = t.fault) :
    AnswerTogether i s t := by
  cases i with
  | addData d => exact absurd rfl (hadd d)
  | decode => exact absurd rfl hdec
  | reset => exact absurd rfl hreset
  | readCrcErrors =>
    refine answerTogether_of_commitData (.ok (counterBytes s.cfg s.crcErrors)) (exec_readCrcErrors s) ?_
    rw [counterBytes, hcntW, hcrc]
    exact exec_readCrcErrors t
  | readStatus =>
    refine answerTogether_of_commitData (.ok [s.phase.code, s.fault]) (exec_readStatus s) ?_
    rw [hphase, hfault]
    exact exec_readStatus t
  | encode id length p => exact answerTogether_of_commitData (encodeFrame id length p) rfl rfl
  | toBytes h p => exact answerTogether_of_commitData (.ok _) (exec_toBytes s h p) (exec_toBytes t h p)
  | lrc b0 b1 b2 b3 => exact answerTogether_of_commitData (.ok _) (exec_lrc s b0 b1 b2 b3) (exec_lrc t b0 b1 b2 b3)
  | crc16 d => exact answerTogether_of_commitData (.ok _) (exec_crc16 s d) (exec_crc16 t d)
  | codecDecode k h p => exact answerTogether_codecDecode hlayouts k h p
  | codecEncode k v =>
    refine answerTogether_of_commitData (codecEncode s.cfg k v) (exec_codecEncode s k v) ?_
    rw [codecEncode_congr hlayouts]
    exact exec_codecEncode t k v
  | rdScalar ty off d => exact answerTogether_of_commitData _ (exec_rdScalar s ty off d) (exec_rdScalar t ty off d)
  | bfExtract w word shift nbits =>
    exact answerTogether_of_commitData _ (exec_bfExtract s w word shift nbits) (exec_bfExtract t w word shift nbits)
  | bfPack w items => exact answerTogether_of_commitData _ (exec_bfPack s w items) (exec_bfPack t w items)

/-! ## ADD_DATA's registers (R141) -/

/-- The state in which ADD_DATA answers OK. -/
def State.appended (s : State) (d : List Byte) : State := streamCompact ((makeRoom s d.length).append d)

theorem appended_eq (s : State) (d : List Byte) :
    s.appended d = { s with buf := (s.appended d).buf, cur := (s.appended d).cur } := by
  rw [State.appended, streamCompact_eq, makeRoom_eq]
  rfl

@[simp] theorem appended_cfg (s : State) (d : List Byte) : (s.appended d).cfg = s.cfg := by rw [appended_eq]
@[simp] theorem appended_crcErrors (s : State) (d : List Byte) : (s.appended d).crcErrors = s.crcErrors := by
  rw [appended_eq]
@[simp] theorem appended_phase (s : State) (d : List Byte) : (s.appended d).phase = s.phase := by rw [appended_eq]
@[simp] theorem appended_fault (s : State) (d : List Byte) : (s.appended d).fault = s.fault := by rw [appended_eq]
@[simp] theorem appended_cmd (s : State) (d : List Byte) : (s.appended d).cmd = s.cmd := by rw [appended_eq]
@[simp] theorem appended_rsp (s : State) (d : List Byte) : (s.appended d).rsp = s.rsp := by rw [appended_eq]

theorem makeRoom_append_cursor {s : State} (hc : s.cur ≤ s.buf.length) (d : List Byte) :
    ((makeRoom s d.length).append d).cur ≤ ((makeRoom s d.length).append d).buf.length := by
  have := makeRoom_cursor d.length hc
  simp only [State.append_cur, State.append_buf, List.length_append]
  omega

theorem appended_cursor {s : State} (hc : s.cur ≤ s.buf.length) (d : List Byte) :
    (s.appended d).cur ≤ (s.appended d).buf.length :=
  streamCompact_cursor (makeRoom_append_cursor hc d)

theorem appended_pend {s : State} (hc : s.cur ≤ s.buf.length) (d : List Byte) :
    (s.appended d).pend = s.pend ++ d := by
  rw [State.appended, streamCompact_pend, append_pend d (makeRoom_cursor d.length hc), makeRoom_pend]

theorem exec_addData_appended {s : State} {d : List Byte}
    (hfits : ¬ exceedsCapacity s.cfg (s.buf.length - s.cur + d.length)) :
    exec (.addData d) s = .next (okAfter (s.appended d) []) := exec_addData_of_fits hfits

/-- Compaction never lengthens the buffer. -/
theorem streamCompact_length_le (s : State) : (streamCompact s).buf.length ≤ s.buf.length := by
  unfold streamCompact
  split <;> simp

/-- Where the pending bytes and the data fit the capacity, so does the buffer after ADD_DATA (R21, R141). -/
theorem appended_length_le {s : State} {d : List Byte} {c : Nat} (hcap : s.cfg.bufCap = some c)
    (hfits : ¬ exceedsCapacity s.cfg (s.buf.length - s.cur + d.length)) : (s.appended d).buf.length ≤ c := by
  have hle : ∀ n, ¬ exceedsCapacity s.cfg n → n ≤ c := fun n h => not_lt.1 fun hlt => h ⟨c, hcap, hlt⟩
  refine (streamCompact_length_le _).trans ?_
  by_cases hroom : exceedsCapacity s.cfg (s.buf.length + d.length)
  · rw [makeRoom_of_exceeds hroom]
    simpa using hle _ hfits
  · rw [makeRoom_of_not_exceeds hroom]
    simpa using hle _ hroom

/-! ## DECODE's registers (R150) -/

/-- The state in which DECODE answers. -/
def State.decoded (s : State) : State := decodeRegs s (scanState s)

theorem exec_decode_decoded (s : State) :
    exec .decode s = .next (s.decoded.answer (outcomeResponse (scanState s).outcome)) := by
  rw [exec_decode]
  cases (scanState s).outcome <;> rfl

theorem decoded_cursor {s : State} (hc : s.cur ≤ s.buf.length) : s.decoded.cur ≤ s.decoded.buf.length := by
  have hscan := (scanLoop_result s.cfg s.buf (s.buf.length - s.cur) s.cur s.crcErrors hc).2.1
  rcases decodeRegs_cases s (scanState s) with h | h <;> rw [State.decoded, h]
  · simp
  · exact hscan

theorem decoded_length_le (s : State) : s.decoded.buf.length ≤ s.buf.length := by
  rcases decodeRegs_cases s (scanState s) with h | h <;> rw [State.decoded, h] <;> simp

theorem outcomeResponse_ne_fault (o : ScanOutcome) (c : FaultCode) : (outcomeResponse o).status ≠ .fault c := by
  cases o <;> simp [outcomeResponse]

/-! ## What a command can do -/

/-- The next states of a command, in every state. -/
inductive Effect (s : State) : Instr → State → Prop
  /-- The command only answers. -/
  | answer {i : Instr} (r : Response) (hbare : r.FaultIsBare) (hreset : i ≠ .reset) (hdec : i ≠ .decode) :
      Effect s i (s.answer r)
  /-- ADD_DATA of data that fits. -/
  | append (d : List Byte) (hfits : ¬ exceedsCapacity s.cfg (s.buf.length - s.cur + d.length)) :
      Effect s (.addData d) ((s.appended d).answer ⟨.ok, []⟩)
  | decode : Effect s .decode (s.decoded.answer (outcomeResponse (scanState s).outcome))
  | reset : Effect s .reset (s.resetRegs.answer ⟨.ok, []⟩)

/-- Every command has a next state, and it is one of the four. -/
theorem exec_effect (i : Instr) (s : State) : ∃ t, exec i s = .next t ∧ Effect s i t := by
  by_cases hadd : ∃ d, i = .addData d
  · obtain ⟨d, rfl⟩ := hadd
    by_cases hfits : exceedsCapacity s.cfg (s.buf.length - s.cur + d.length)
    · exact ⟨_, exec_addData_of_exceeds hfits,
        .answer ⟨.fault .overflow, []⟩ (fun _ _ => rfl) (by simp) (by simp)⟩
    · exact ⟨_, exec_addData_appended hfits, .append d hfits⟩
  · by_cases hdec : i = .decode
    · subst hdec
      exact ⟨_, exec_decode_decoded s, .decode⟩
    · by_cases hreset : i = .reset
      · subst hreset
        exact ⟨_, rfl, .reset⟩
      · obtain ⟨r, hbare, hexec, -⟩ := answerTogether_of_registers_eq (i := i) (s := s) (t := s)
          (fun d h => hadd ⟨d, h⟩) hdec hreset rfl rfl rfl rfl rfl
        exact ⟨_, hexec, .answer r hbare hreset hdec⟩

theorem effect_of_exec {i : Instr} {s t : State} (h : exec i s = .next t) : Effect s i t := by
  obtain ⟨u, hu, heff⟩ := exec_effect i s
  cases hu.symm.trans h
  exact heff

@[simp] theorem answer_cfg (s : State) (r : Response) : (s.answer r).cfg = s.cfg := rfl
@[simp] theorem answer_buf (s : State) (r : Response) : (s.answer r).buf = s.buf := rfl
@[simp] theorem answer_cur (s : State) (r : Response) : (s.answer r).cur = s.cur := rfl
@[simp] theorem answer_crcErrors (s : State) (r : Response) : (s.answer r).crcErrors = s.crcErrors := rfl
@[simp] theorem answer_phase (s : State) (r : Response) : (s.answer r).phase = s.phase := rfl
@[simp] theorem answer_cmd (s : State) (r : Response) : (s.answer r).cmd = s.cmd := rfl
@[simp] theorem answer_rsp (s : State) (r : Response) : (s.answer r).rsp = s.rsp ++ [r] := rfl

/-- A response that is no fault leaves the fault register. -/
theorem answer_fault_of_ne {r : Response} (h : ∀ c, r.status ≠ .fault c) (s : State) :
    (s.answer r).fault = s.fault := by
  obtain ⟨status, data⟩ := r
  cases status with
  | fault c => exact absurd rfl (h c)
  | ok | none | frame | decodeError => rfl

/-- A fault's response leaves the state that R244 describes. -/
theorem answer_of_fault {r : Response} {c : FaultCode} (hbare : r.FaultIsBare) (hc : r.status = .fault c)
    (s : State) : s.answer r = faultAfter s c := by
  obtain ⟨status, data⟩ := r
  obtain rfl : status = .fault c := hc
  obtain rfl : data = [] := hbare c rfl
  rfl

/-! ## What every command and every step keeps -/

/-- What a step can do: run a command, refuse an unassigned opcode, or wait (R72, R74). -/
theorem step_cases {s t : State} (h : step s = .next t) :
    (∃ i rest, decode s.cmd = .command i rest ∧ Effect (s.withCmd rest) i t) ∨
      (∃ op rest, s.cmd = op :: rest ∧ formatOf op = none ∧ t = faultAfter (s.withCmd rest) .illegalCmd) ∨
      decode s.cmd = .incomplete ∧ t = s := by
  cases hport : decode s.cmd with
  | command i rest =>
    rw [step_of_command hport] at h
    exact .inl ⟨i, rest, rfl, effect_of_exec h⟩
  | illegal op rest =>
    obtain ⟨hcmd, hop⟩ := decode_eq_illegal_iff.1 hport
    cases (step_of_illegal hport).symm.trans h
    exact .inr (.inl ⟨op, rest, hcmd, hop, rfl⟩)
  | incomplete =>
    cases (step_of_incomplete hport).symm.trans h
    exact .inr (.inr ⟨rfl, rfl⟩)

/-- One response, the parameters and the command port as before. -/
theorem Effect.answers_once {i : Instr} {s t : State} (h : Effect s i t) :
    ∃ r, t.rsp = s.rsp ++ [r] ∧ t.cfg = s.cfg ∧ t.cmd = s.cmd := by
  cases h with
  | answer r => exact ⟨r, rfl, rfl, rfl⟩
  | append d => exact ⟨⟨.ok, []⟩, by simp, by simp, by simp⟩
  | decode => exact ⟨outcomeResponse (scanState s).outcome, by simp [State.decoded], by simp [State.decoded],
      by simp [State.decoded]⟩
  | reset => exact ⟨⟨.ok, []⟩, rfl, rfl, rfl⟩

/-- Settles O53: every effect has one response; a step that runs no command keeps the parameters as well. -/
theorem everyCommandAnswersOnce : Obligations.EveryCommandAnswersOnce := by
  constructor
  · intro i s
    obtain ⟨t, hexec, heff⟩ := exec_effect i s
    obtain ⟨r, hr⟩ := heff.answers_once
    exact ⟨t, r, hexec, hr⟩
  · intro s
    cases hport : decode s.cmd with
    | command i rest =>
      obtain ⟨t, hexec, heff⟩ := exec_effect i (s.withCmd rest)
      obtain ⟨-, -, hcfg, -⟩ := heff.answers_once
      exact ⟨t, (step_of_command hport).trans hexec, hcfg⟩
    | illegal op rest => exact ⟨_, step_of_illegal hport, rfl⟩
    | incomplete => exact ⟨s, step_of_incomplete hport, rfl⟩

/-- Settles O54: an answer writes none of these registers, and appending writes the buffer and the cursor alone. -/
theorem onlyDecoderCommandsWriteItsRegisters : Obligations.OnlyDecoderCommandsWriteItsRegisters := by
  intro i s t hexec hdec hreset
  cases effect_of_exec hexec with
  | answer r => exact ⟨rfl, rfl, fun _ => ⟨rfl, rfl, fun _ => rfl⟩⟩
  | append d => exact ⟨by simp, by simp, fun hadd => absurd rfl (hadd d)⟩
  | decode => exact absurd rfl hdec
  | reset => exact absurd rfl hreset

/-- A fault as the new response tells the whole effect. -/
theorem Effect.of_fault {i : Instr} {s t : State} {c : FaultCode} {data : List Byte} (h : Effect s i t)
    (hrsp : t.rsp = s.rsp ++ [⟨.fault c, data⟩]) : data = [] ∧ t = faultAfter s c := by
  have hlast : ∀ r : Response, t.rsp = s.rsp ++ [r] → r = ⟨.fault c, data⟩ := by
    intro r hr
    simpa using hr.symm.trans hrsp
  cases h with
  | answer r hbare =>
    obtain rfl := hlast r rfl
    exact ⟨hbare c rfl, answer_of_fault hbare rfl s⟩
  | append d => cases hlast ⟨.ok, []⟩ (by simp)
  | decode =>
    have := hlast (outcomeResponse (scanState s).outcome) (by simp [State.decoded])
    exact absurd (by rw [this]) (outcomeResponse_ne_fault (scanState s).outcome c)
  | reset => cases hlast ⟨.ok, []⟩ rfl

/-- Settles O50: a fault is the answer of an effect that does nothing else; the bytes taken are the command's encoding
or the one unassigned opcode, and a step that waits gives no response. -/
theorem faultsArePrecise : Obligations.FaultsArePrecise := by
  refine ⟨fun i s t c data hexec => (effect_of_exec hexec).of_fault, fun s t c data hstep hrsp => ?_⟩
  rcases step_cases hstep with ⟨i, rest, hport, heff⟩ | ⟨op, rest, hcmd, hop, rfl⟩ | ⟨-, rfl⟩
  · obtain ⟨hdata, rfl⟩ := heff.of_fault hrsp
    obtain ⟨-, hcmd⟩ := decodedBytesAreTheEncoding s.cmd i rest hport
    have hlen := length_of_decode_command hport
    refine ⟨hdata, encode i, rest, hcmd, ?_, rfl⟩
    rw [hcmd, List.length_append, ← hcmd] at hlen
    omega
  · have hr : (⟨.fault .illegalCmd, []⟩ : Response) = ⟨.fault c, data⟩ := by simpa using hrsp
    cases hr
    exact ⟨rfl, [op], rest, hcmd, by simp [hcmd, commandLength, hop], rfl⟩
  · simp at hrsp

/-- Settles O52: ADD_DATA raises nothing without a capacity, the others not at all. -/
theorem someCommandsNeverFault : Obligations.SomeCommandsNeverFault := by
  intro i s hi
  have ok : ∀ data, exec i s = .next (okAfter s data) →
      ∃ (t : State) (r : Response), exec i s = .next t ∧ t.rsp = s.rsp ++ [r] ∧ (∀ c, r.status ≠ .fault c) ∧
        (t.fault = s.fault ∨ i = .reset ∧ t.fault = 0#8) :=
    fun data hexec => ⟨_, ⟨.ok, data⟩, hexec, rfl, by simp, .inl rfl⟩
  cases i with
  | addData d =>
    have hfits : ¬ exceedsCapacity s.cfg (s.buf.length - s.cur + d.length) := by
      rintro ⟨c, hcap, -⟩
      cases hcap.symm.trans hi
    exact ⟨_, ⟨.ok, []⟩, exec_addData_appended hfits, by simp, by simp, .inl (by simp)⟩
  | decode =>
    have hne := outcomeResponse_ne_fault (scanState s).outcome
    exact ⟨_, _, exec_decode_decoded s, by simp [State.decoded], hne,
      .inl (by rw [answer_fault_of_ne hne, State.decoded, decodeRegs_fault])⟩
  | readCrcErrors => exact ok _ (exec_readCrcErrors s)
  | readStatus => exact ok _ (exec_readStatus s)
  | reset => exact ⟨_, ⟨.ok, []⟩, exec_reset s, rfl, by simp, .inr ⟨rfl, rfl⟩⟩
  | toBytes h p => exact ok _ (exec_toBytes s h p)
  | lrc b0 b1 b2 b3 => exact ok _ (exec_lrc s b0 b1 b2 b3)
  | crc16 d => exact ok _ (exec_crc16 s d)
  | encode | codecDecode | codecEncode | rdScalar | bfExtract | bfPack => exact hi.elim

/-! ## The invariant (R21, R23, R25, R27, R201) -/

/-- The fault register holds 0 or a legal code after an answer too. -/
theorem answer_fault_legal {s : State} (h : s.fault = 0#8 ∨ ∃ c : FaultCode, s.fault = c.code) (r : Response) :
    (s.answer r).fault = 0#8 ∨ ∃ c : FaultCode, (s.answer r).fault = c.code := by
  by_cases hf : ∃ c, r.status = .fault c
  · obtain ⟨c, hc⟩ := hf
    have hval : (s.answer r).fault = stickyFault s.fault c := by simp [State.answer, hc, stickyFault]
    rw [hval]
    by_cases h0 : s.fault = 0#8
    · exact .inr ⟨c, by rw [h0, stickyFault_zero]⟩
    · rwa [stickyFault_of_ne h0]
  · rwa [answer_fault_of_ne fun c hc => hf ⟨c, hc⟩]

theorem State.Inv.answer {s : State} (h : s.Inv) (r : Response) : (s.answer r).Inv :=
  ⟨h.cursor, h.counter, h.capacity, answer_fault_legal h.fault r, h.config⟩

theorem State.Inv.withCmd {s : State} (h : s.Inv) (rest : List Byte) : (s.withCmd rest).Inv :=
  ⟨h.cursor, h.counter, h.capacity, h.fault, h.config⟩

theorem State.Inv.appended {s : State} (h : s.Inv) {d : List Byte}
    (hfits : ¬ exceedsCapacity s.cfg (s.buf.length - s.cur + d.length)) : (s.appended d).Inv where
  cursor := appended_cursor h.cursor d
  counter := by simpa using h.counter
  capacity := fun c hcap => appended_length_le (by simpa using hcap) hfits
  fault := by simpa using h.fault
  config := by simpa using h.config

theorem State.Inv.decoded {s : State} (h : s.Inv) : s.decoded.Inv where
  cursor := decoded_cursor h.cursor
  counter := by
    rw [State.decoded, decodeRegs_crcErrors, decodeRegs_cfg]
    rcases scanLoop_counter s.cfg s.buf (s.buf.length - s.cur) s.cur s.crcErrors with he | hlt
    · rw [scanState, he]
      exact h.counter
    · exact hlt
  capacity := fun c hcap => (decoded_length_le s).trans (h.capacity c (by simpa [State.decoded] using hcap))
  fault := by simpa [State.decoded] using h.fault
  config := by simpa [State.decoded] using h.config

/-- Power-on registers meet the invariant, whatever is on the ports. -/
theorem inv_powerOn {P : Config} (hP : P.wf = true) : (State.powerOn P).Inv :=
  ⟨le_rfl, Nat.two_pow_pos _, fun _ _ => Nat.zero_le _, .inl rfl, hP⟩

theorem State.Inv.resetRegs {s : State} (h : s.Inv) : s.resetRegs.Inv :=
  ⟨le_rfl, Nat.two_pow_pos _, fun _ _ => Nat.zero_le _, .inl rfl, h.config⟩

/-- Every command keeps the invariant, effect by effect. -/
theorem State.Inv.effect {i : Instr} {s t : State} (h : s.Inv) (heff : Effect s i t) : t.Inv := by
  cases heff with
  | answer r => exact h.answer r
  | append d hfits => exact (h.appended hfits).answer _
  | decode => exact h.decoded.answer _
  | reset => exact h.resetRegs.answer _

/-- Settles O55: taking bytes off the port touches none of the registers, and each effect keeps the invariant. -/
theorem everyStepKeepsTheInvariant : Obligations.EveryStepKeepsTheInvariant := by
  intro s t h hstep
  rcases step_cases hstep with ⟨i, rest, -, heff⟩ | ⟨op, rest, -, -, rfl⟩ | ⟨-, rfl⟩
  · exact (h.withCmd rest).effect heff
  · exact (h.withCmd rest).answer ⟨.fault .illegalCmd, []⟩
  · exact h

/-- Settles O56: a block is built only with a well-formed record, and the spec's default record is one. -/
theorem resetStateHasTheInvariant : Obligations.ResetStateHasTheInvariant := by
  refine ⟨inv_powerOn (by decide), fun P s hbuild => ?_⟩
  obtain ⟨hP, rfl⟩ : P.wf = true ∧ State.powerOn P = s := by simpa [State.build] using hbuild
  exact inv_powerOn hP

/-! ## Compaction cannot be observed (R9, R165) -/

section
variable {s t : State}

theorem Indistinguishable.answer (h : Indistinguishable s t) (r : Response) :
    Indistinguishable (s.answer r) (t.answer r) where
  cursors := h.cursors
  pend := h.pend
  crcErrors := h.crcErrors
  phase := h.phase
  fault := by simp only [State.answer, h.fault]
  cmd := h.cmd
  rsp := by rw [answer_rsp, answer_rsp, h.rsp]
  bufCap := h.bufCap
  cntW := h.cntW
  layouts := h.layouts

theorem Indistinguishable.withCmd (h : Indistinguishable s t) (rest : List Byte) :
    Indistinguishable (s.withCmd rest) (t.withCmd rest) where
  cursors := h.cursors
  pend := h.pend
  crcErrors := h.crcErrors
  phase := h.phase
  fault := h.fault
  cmd := rfl
  rsp := h.rsp
  bufCap := h.bufCap
  cntW := h.cntW
  layouts := h.layouts

theorem Indistinguishable.resetRegs (h : Indistinguishable s t) : Indistinguishable s.resetRegs t.resetRegs where
  cursors := ⟨le_rfl, le_rfl⟩
  pend := rfl
  crcErrors := rfl
  phase := rfl
  fault := rfl
  cmd := h.cmd
  rsp := h.rsp
  bufCap := h.bufCap
  cntW := h.cntW
  layouts := h.layouts

/-- ADD_DATA's capacity check looks at the number of pending bytes. -/
theorem Indistinguishable.exceeds_iff (h : Indistinguishable s t) (n : Nat) :
    exceedsCapacity s.cfg (s.buf.length - s.cur + n) ↔ exceedsCapacity t.cfg (t.buf.length - t.cur + n) := by
  rw [exceedsCapacity, exceedsCapacity, ← pend_length, ← pend_length, h.pend, h.bufCap]

theorem Indistinguishable.appended (h : Indistinguishable s t) (d : List Byte) :
    Indistinguishable (s.appended d) (t.appended d) where
  cursors := ⟨appended_cursor h.cursors.1 d, appended_cursor h.cursors.2 d⟩
  pend := by rw [appended_pend h.cursors.1, appended_pend h.cursors.2, h.pend]
  crcErrors := by simpa using h.crcErrors
  phase := by simpa using h.phase
  fault := by simpa using h.fault
  cmd := by simpa using h.cmd
  rsp := by simpa using h.rsp
  bufCap := by simpa using h.bufCap
  cntW := by simpa using h.cntW
  layouts := by simpa using h.layouts

/-- DECODE is `scan` of the pending bytes, the counter and its width (R162). -/
theorem Indistinguishable.decode {s' t' : State} (h : Indistinguishable s t) (hs : exec .decode s = .next s')
    (ht : exec .decode t = .next t') : Indistinguishable s' t' := by
  obtain ⟨u, hu, hup, huc, hue, huph, huf, hucfg, hucmd, hur⟩ := exec_decode_of_pendScan h.cursors.1 h.pend rfl
  obtain ⟨v, hv, hvp, hvc, hve, hvph, hvf, hvcfg, hvcmd, hvr⟩ := exec_decode_of_pendScan h.cursors.2 rfl rfl
  cases hu.symm.trans hs
  cases hv.symm.trans ht
  rw [h.cntW, h.crcErrors] at hup hue huph hur
  exact ⟨⟨huc, hvc⟩, hup.trans hvp.symm, hue.trans hve.symm, huph.trans hvph.symm, by rw [huf, hvf, h.fault],
    by rw [hucmd, hvcmd, h.cmd], by rw [hur, hvr, h.rsp], by rw [hucfg, hvcfg, h.bufCap],
    by rw [hucfg, hvcfg, h.cntW], by rw [hucfg, hvcfg, h.layouts]⟩

/-- No command tells the two states apart. -/
theorem Indistinguishable.exec {i : Instr} {s' t' : State} (h : Indistinguishable s t) (hs : exec i s = .next s')
    (ht : exec i t = .next t') : Indistinguishable s' t' := by
  by_cases hadd : ∃ d, i = .addData d
  · obtain ⟨d, rfl⟩ := hadd
    by_cases hfits : exceedsCapacity s.cfg (s.buf.length - s.cur + d.length)
    · cases (exec_addData_of_exceeds hfits).symm.trans hs
      cases (exec_addData_of_exceeds ((h.exceeds_iff _).1 hfits)).symm.trans ht
      exact h.answer ⟨.fault .overflow, []⟩
    · cases (exec_addData_of_fits hfits).symm.trans hs
      cases (exec_addData_of_fits (mt (h.exceeds_iff _).2 hfits)).symm.trans ht
      exact (h.appended d).answer ⟨.ok, []⟩
  · by_cases hdec : i = .decode
    · subst hdec
      exact h.decode hs ht
    · by_cases hreset : i = .reset
      · subst hreset
        cases hs
        cases ht
        exact h.resetRegs.answer ⟨.ok, []⟩
      · obtain ⟨r, -, hrs, hrt⟩ := answerTogether_of_registers_eq (fun d hd => hadd ⟨d, hd⟩) hdec hreset h.layouts
          h.cntW h.crcErrors h.phase h.fault
        cases hrs.symm.trans hs
        cases hrt.symm.trans ht
        exact h.answer r

end

/-- Settles O57: both states hold the same bytes on the command port, so both run the same command, refuse the same
opcode, or wait. -/
theorem compactionIsNotObservable : Obligations.CompactionIsNotObservable := by
  intro s t s' t' h hs ht
  cases hport : decode s.cmd with
  | command i rest =>
    rw [step_of_command hport] at hs
    rw [step_of_command (h.cmd ▸ hport)] at ht
    exact (h.withCmd rest).exec hs ht
  | illegal op rest =>
    cases (step_of_illegal hport).symm.trans hs
    cases (step_of_illegal (h.cmd ▸ hport)).symm.trans ht
    exact (h.withCmd rest).answer ⟨.fault .illegalCmd, []⟩
  | incomplete =>
    cases (step_of_incomplete hport).symm.trans hs
    cases (step_of_incomplete (h.cmd ▸ hport)).symm.trans ht
    exact h

end Sys2Proof.Machine
end

section
/-! The checksums as functions: the LRC is a negated sum, and the table-driven CRC is the bitwise one (R101, R105 to
R107, R122). -/

namespace Sys2Proof.Machine

/-! ## LRC -/

theorem lrc_eq_neg_sum (b0 b1 b2 b3 : Byte) : lrc b0 b1 b2 b3 = -(b0 + b1 + b2 + b3) := by
  apply BitVec.eq_of_toNat_eq
  rw [lrc_toNat]
  simp only [BitVec.toNat_neg, BitVec.toNat_add]
  omega

/-- Settles O11: the sum with the LRC vanishes as the LRC is a negation, and negating a byte gives every byte. -/
theorem lrcIsTheNegatedSum : Obligations.LrcIsTheNegatedSum := by
  refine ⟨fun b0 b1 b2 b3 => ⟨lrc_eq_neg_sum b0 b1 b2 b3, ?sum⟩, fun x => ⟨-x, 0, 0, 0, ?occurs⟩⟩
  case sum =>
    rw [lrc_toNat]
    omega
  case occurs => simp [lrc_eq_neg_sum]

/-! ## The CRC register is linear (R104) -/

theorem crcBit_eq (c : Word16) : crcBit c = (c <<< 1) ^^^ (if c.msb then Config.crcPoly else 0#16) := by
  unfold crcBit
  split <;> simp

theorem crcBit_xor (x y : Word16) : crcBit (x ^^^ y) = crcBit x ^^^ crcBit y := by
  rw [crcBit_eq, crcBit_eq x, crcBit_eq y, BitVec.shiftLeft_xor_distrib, BitVec.msb_xor]
  have hleft : ∀ a b c : Word16, a ^^^ (b ^^^ c) = b ^^^ (a ^^^ c) := fun a b c => by ac_rfl
  cases x.msb <;> cases y.msb <;> simp [BitVec.xor_assoc, BitVec.xor_comm, hleft]

theorem iterate_crcBit_xor (n : Nat) (x y : Word16) :
    crcBit^[n] (x ^^^ y) = crcBit^[n] x ^^^ crcBit^[n] y := by
  induction n with
  | zero => rfl
  | succ n ih => simp only [Function.iterate_succ_apply', ih, crcBit_xor]

/-- As long as no bit reaches the top, the polynomial is not used. -/
theorem iterate_crcBit_of_lt {n : Nat} {c : Word16} (hn : n ≤ 16) (hc : c.toNat < 2 ^ (16 - n)) :
    crcBit^[n] c = c <<< n := by
  induction n with
  | zero => simp
  | succ n ih =>
    have hpow : 2 ^ (16 - n) = 2 * 2 ^ (16 - (n + 1)) := by
      rw [← pow_succ', show 16 - (n + 1) + 1 = 16 - n by omega]
    have hmul : c.toNat * 2 ^ n < 2 ^ 15 :=
      calc c.toNat * 2 ^ n < 2 ^ (16 - (n + 1)) * 2 ^ n := Nat.mul_lt_mul_of_pos_right hc (Nat.two_pow_pos n)
        _ = 2 ^ 15 := by rw [← pow_add, show 16 - (n + 1) + n = 15 by omega]
    have hmsb : (c <<< n).msb = false := by
      rw [BitVec.msb_eq_false_iff_two_mul_lt, BitVec.toNat_shiftLeft, Nat.shiftLeft_eq, Nat.mod_eq_of_lt (by omega)]
      omega
    rw [Function.iterate_succ_apply', ih (by omega) (by omega), crcBit_eq, hmsb, BitVec.shiftLeft_add]
    simp

/-- The register with the next byte in its upper half: the byte that indexes the table, above the lower half. -/
theorem xor_byte_split (crc : Word16) (b : Byte) :
    crc ^^^ (b.setWidth 16 <<< 8)
      = ((crc >>> 8).setWidth 8 ^^^ b).setWidth 16 <<< 8 ^^^ (crc.setWidth 8).setWidth 16 := by
  ext i hi
  by_cases hlow : i < 8
  · simp [hlow, BitVec.getLsbD_eq_getElem hi]
  · have hupper : 8 + (i - 8) = i := by omega
    simp [hlow, hupper, show i - 8 < 8 by omega, BitVec.getLsbD_eq_getElem hi]

theorem shiftLeft_lower_half (crc : Word16) : (crc.setWidth 8).setWidth 16 <<< 8 = crc <<< 8 := by
  ext i hi
  by_cases hlow : i < 8
  · simp [hlow]
  · simp [hlow, show i - 8 < 8 by omega, BitVec.getLsbD_eq_getElem (show i - 8 < 16 by omega)]

/-- One byte of the table loop is eight bits of the register (R103, R105). -/
theorem crcByte_eq_iterate (crc : Word16) (b : Byte) :
    crcByte crc b = crcBit^[8] (crc ^^^ (b.setWidth 16 <<< 8)) := by
  have hlower : ((crc.setWidth 8).setWidth 16 : Word16).toNat < 2 ^ (16 - 8) := by
    rw [BitVec.toNat_setWidth_of_le (by norm_num)]
    exact (crc.setWidth 8).isLt
  rw [xor_byte_split, iterate_crcBit_xor, iterate_crcBit_of_lt (by norm_num) hlower, shiftLeft_lower_half,
    BitVec.xor_comm]
  rfl

theorem bitwiseBit_eq_crcBit : bitwiseBit = crcBit := by
  funext c
  rw [bitwiseBit, crcBit, BitVec.msb_eq_getLsbD_last]

/-- Settles O13: the two loops take the same step for each byte. -/
theorem crcTableLoopEqualsBitwiseForm : Obligations.CrcTableLoopEqualsBitwiseForm := by
  intro s
  have hstep : crcByte = fun (crc : Word16) (b : Byte) => bitwiseBit^[8] (crc ^^^ (b.setWidth 16 <<< 8)) := by
    funext crc b
    rw [bitwiseBit_eq_crcBit, crcByte_eq_iterate]
  unfold crc16 crc16From crc16Bitwise
  rw [hstep]

/-- Settles O14: a fold over a concatenation. -/
theorem crcIsIncremental : Obligations.CrcIsIncremental := fun a b => crc16From_append _ a b

/-- Settles O15, by running the table loop. -/
theorem knownCrcValues : Obligations.KnownCrcValues := by
  refine ⟨rfl, ?_, ?_, ?_⟩ <;> decide

/-- Settles O17: the CRC of no bytes is the seed, and the LRC negates `id + 0xFF + 0xFF`, which is `id - 2`. -/
theorem zeroLengthFrameHeader : Obligations.ZeroLengthFrameHeader := by
  intro s id
  have hlrc : lrc id 0x00 0xFF 0xFF = 0x02#8 - id := by
    rw [lrc_eq_neg_sum]
    bv_omega
  rw [exec_encode_of_length_eq rfl, ← hlrc]
  rfl

end Sys2Proof.Machine
end

section
/-! BF_PACK: legal items are packed into the sum of their shifted values, the first bad item decides the fault, and
BF_EXTRACT reads each value back (R190 to R195). -/

namespace Sys2Proof.Machine

/-! ## Items as the host sends them -/

/-- The host's items, as the packing loop takes them. -/
def bitItems (items : List PackItem) : List BitItem := items.map PackItem.toBitItem

theorem bitItems_ok {W : Nat} {items : List PackItem} (h : PackLegal W items) : ∀ i ∈ bitItems items, i.Ok W := by
  intro i hi
  obtain ⟨p, hp, rfl⟩ := List.mem_map.1 hi
  exact h.1 p hp

theorem bitItems_apart {W : Nat} {items : List PackItem} (h : PackLegal W items) :
    (bitItems items).Pairwise BitItem.Apart :=
  List.pairwise_map.2 h.2

/-- The word of legal items is their sum (R192). -/
theorem packWord_bitItems {W : Nat} {items : List PackItem} (h : PackLegal W items) :
    packWord (bitItems items) = packSum items := by
  rw [packWord_eq_sum (bitItems_ok h) (bitItems_apart h), bitItems, List.map_map]
  rfl

theorem packSum_lt {W : Nat} {items : List PackItem} (h : PackLegal W items) : packSum items < 2 ^ W := by
  rw [← packWord_bitItems h]
  exact packWord_lt (bitItems_ok h)

/-! ## The command, from the packing loop -/

section
variable {w : Byte} {items : List PackItem}

theorem bfPack_of_pack_ok {x : Nat} (hw : w ∈ [1#8, 2#8, 4#8, 8#8])
    (hpack : pack (8 * w.toNat) (bitItems items) = .ok x) : bfPack w items = .ok (leBytes w.toNat x) := by
  rw [bitItems] at hpack
  simp [bfPack, (legalWidth_iff w).2 hw, hpack]

theorem bfPack_of_pack_error {c : FaultCode} (hw : w ∈ [1#8, 2#8, 4#8, 8#8])
    (hpack : pack (8 * w.toNat) (bitItems items) = .error c) : bfPack w items = .error c := by
  rw [bitItems] at hpack
  simp [bfPack, (legalWidth_iff w).2 hw, hpack]

/-- Legal items are packed (R192). -/
theorem bfPack_of_legal (hw : w ∈ [1#8, 2#8, 4#8, 8#8]) (h : PackLegal (8 * w.toNat) items) :
    bfPack w items = .ok (leBytes w.toNat (packSum items)) := by
  rw [← packWord_bitItems h]
  exact bfPack_of_pack_ok hw (pack_ok (bitItems_ok h) (bitItems_apart h))

end

/-- Settles O36: the loop accepts every item, and its OR is the sum. -/
theorem bfPackSumsTheFields : Obligations.BfPackSumsTheFields := by
  intro s w items hw h
  exact ⟨by rw [exec_bfPack, bfPack_of_legal hw h, commitData_ok], packSum_lt h⟩

/-! ## The first bad item (R193) -/

section
variable {W x : Nat} {i : BitItem} {seen more : List BitItem}

theorem packFrom_of_illegal (hgeo : i.k < 1 ∨ W < i.s + i.k) (used : Nat) :
    packFrom W (i :: more) x used = .error .bfRange := by
  have hbad : bitFieldLegal W i.s i.k = false := by
    rw [Bool.eq_false_iff, ne_eq, bitFieldLegal_iff]
    omega
  rw [packFrom, if_pos hbad]

theorem packFrom_of_overlap (hk : 1 ≤ i.k) (hW : i.s + i.k ≤ W) (hseen : ∀ j ∈ seen, 1 ≤ j.k)
    (hover : ¬ ∀ j ∈ seen, j.Apart i) : packFrom W (i :: more) x (unionMask seen) = .error .bfRange := by
  rw [packFrom, (bitFieldLegal_iff _ _ _).2 ⟨hk, hW⟩, if_neg (by decide),
    if_pos (mt (and_unionMask_eq_zero hk hseen).1 hover)]

theorem packFrom_of_large (hk : 1 ≤ i.k) (hW : i.s + i.k ≤ W) (hseen : ∀ j ∈ seen, 1 ≤ j.k)
    (hapart : ∀ j ∈ seen, j.Apart i) (hv : 2 ^ i.k ≤ i.v) :
    packFrom W (i :: more) x (unionMask seen) = .error .valueRange := by
  rw [packFrom, (bitFieldLegal_iff _ _ _).2 ⟨hk, hW⟩, if_neg (by decide),
    if_neg (not_not.2 ((and_unionMask_eq_zero hk hseen).2 hapart)), if_pos hv]

end

/-- BF_PACK passes over the legal items and does what the loop does at the bad one. -/
theorem bfPack_of_bad {w : Byte} {good others : List PackItem} {bad : PackItem} {c : FaultCode}
    (hw : w ∈ [1#8, 2#8, 4#8, 8#8]) (h : PackLegal (8 * w.toNat) good)
    (hbad : packFrom (8 * w.toNat) (PackItem.toBitItem bad :: bitItems others) (packWord (bitItems good))
      (unionMask ((bitItems good).reverse ++ [])) = .error c) :
    bfPack w (good ++ bad :: others) = .error c := by
  refine bfPack_of_pack_error hw ?_
  rw [← hbad, ← pack_bad _ _ (bitItems_ok h) (bitItems_apart h)]
  simp [bitItems]

/-- Settles O37: at the bad item the loop looks at the geometry, the overlap and the value, in this order. -/
theorem firstBadPackItemDecidesTheFault : Obligations.FirstBadPackItemDecidesTheFault := by
  intro s w good bad others hw h
  have hpos : ∀ j ∈ (bitItems good).reverse ++ [], 1 ≤ j.k := by
    intro j hj
    exact (bitItems_ok h j (by simpa using hj)).1
  have hapart_iff : (∀ j ∈ (bitItems good).reverse ++ [], j.Apart (PackItem.toBitItem bad)) ↔
      ¬ ∃ g ∈ good, g.shift.toNat < bad.shift.toNat + bad.nbits.toNat ∧
        bad.shift.toNat < g.shift.toNat + g.nbits.toNat := by
    simp only [List.append_nil, List.mem_reverse, bitItems, List.forall_mem_map, not_exists, not_and, not_lt]
    refine forall₂_congr fun g _ => ?_
    simp only [BitItem.Apart, PackItem.toBitItem]
    omega
  rw [exec_bfPack]
  split_ifs with hgeo hover
  · rw [bfPack_of_bad hw h (packFrom_of_illegal hgeo _), commitData_error]
  · rw [bfPack_of_bad hw h (packFrom_of_overlap (by simp only [PackItem.toBitItem]; omega)
      (by simp only [PackItem.toBitItem]; omega) hpos (mt hapart_iff.1 (not_not.2 hover))), commitData_error]
  · intro hv
    rw [bfPack_of_bad hw h (packFrom_of_large (by simp only [PackItem.toBitItem]; omega)
      (by simp only [PackItem.toBitItem]; omega) hpos (hapart_iff.2 hover) hv), commitData_error]

/-! ## Reading back (R195) -/

theorem le_leBytes_packSum {w : Byte} {items : List PackItem} (h : PackLegal (8 * w.toNat) items) :
    le (leBytes w.toNat (packSum items)) = packSum items := by
  have hlt := packSum_lt h
  rw [pow_mul] at hlt
  exact le_leBytes hlt

/-- Settles O38: the answered bytes hold the whole word, whose bits at an item's place are the item's. -/
theorem extractInvertsPack : Obligations.ExtractInvertsPack := by
  intro s w items hw h
  refine ⟨leBytes w.toNat (packSum items), leBytes_length _ _, (bfPackSumsTheFields s w items hw h).1, fun i hi => ?_⟩
  obtain ⟨hpos, hin, -⟩ := h.1 i hi
  have hbits : extract (packSum items) i.shift.toNat i.nbits.toNat = i.value.toNat := by
    rw [← packWord_bitItems h]
    exact extract_packWord (bitItems_ok h) (bitItems_apart h) (List.mem_map_of_mem hi)
  rw [exec_bfExtract, bfExtract_of_legal hw hpos hin, le_leBytes_packSum h, hbits, commitData_ok]

end Sys2Proof.Machine
end

section
/-! CODEC_DECODE on accepted payloads: how many values it answers, where each stands and what it is, and the two
layouts of the spec (R184, R210 to R213, R220, R221). -/

namespace Sys2Proof.Machine

/-! ## The response of an accepted payload (R80, R212) -/

/-- The count, the variant index, and 8 bytes for each further value. -/
theorem exec_codecDecode_accepted {s : State} {k : Byte} {L : Layout} {V : Variant} {n : Nat} {h : Header}
    {p : List Byte} {cnt : Nat} (hw : s.cfg.wf = true) (hk : s.cfg.layout k = some L) (hn : L.variants[n]? = some V)
    (hid : h.id = L.pid) (ha : V.accepts p.length = true) (hc : TailCount V p cnt) :
    exec (.codecDecode k h p) s = .next (okAfter s
      (countBytes (1 + (decodedValues V p cnt).length) (Config.freeValueCount L p) ++ leBytes 8 n ++
        (decodedValues V p cnt).flatMap valueBytes)) := by
  have hexec : exec (.codecDecode k h p) s = .next
      (okAfter s (valuesData ((n : Int) :: decodedValues V p cnt) (Config.freeValueCount L p))) :=
    execCodecDecode_ok hw hk hn hid ha hc
  rw [hexec, valuesData, List.length_cons, Nat.add_comm, List.flatMap_cons, valueBytes_natCast, List.append_assoc]

/-! ## Where the values stand (R184, R212) -/

theorem fieldScalars_getElem? (p : List Byte) (base : Nat) (f : Field) {j : Nat} (hj : j < f.count) :
    (fieldScalars p base f)[j]?
      = some (scalarValue f.ty (le ((p.drop (base + f.off + j * f.ty.width)).take f.ty.width))) := by
  simp [fieldScalars, hj]

/-- The values of a list of fields: those of each field behind those of the fields before it. -/
theorem fieldScalars_flatMap_getElem? (p : List Byte) (base : Nat) (pre : List Field) (f : Field) (post : List Field)
    {j : Nat} (hj : j < f.count) :
    ((pre ++ f :: post).flatMap (fieldScalars p base))[fieldValues pre + j]?
      = some (scalarValue f.ty (le ((p.drop (base + f.off + j * f.ty.width)).take f.ty.width))) := by
  rw [List.flatMap_append, ← fieldScalars_flatMap_length p base pre, List.getElem?_append_right (by omega),
    Nat.add_sub_cancel_left, List.flatMap_cons, List.getElem?_append_left (by simpa using hj),
    fieldScalars_getElem? p base f hj]

/-- In a concatenation of blocks of one length, block `e` stands behind `e` blocks. -/
theorem flatMap_range_getElem? {α : Type} {g : Nat → List α} {m cnt e i : Nat} (hlen : ∀ e, (g e).length = m)
    (he : e < cnt) (hi : i < m) : ((List.range cnt).flatMap g)[e * m + i]? = (g e)[i]? := by
  induction cnt with
  | zero => omega
  | succ cnt ih =>
    have hall : ((List.range cnt).flatMap g).length = cnt * m := by simp [List.length_flatMap, hlen]
    rw [List.range_succ, List.flatMap_append, List.flatMap_singleton]
    by_cases hlast : e = cnt
    · rw [hlast, List.getElem?_append_right (by omega), hall, Nat.add_sub_cancel_left]
    · have hlt : e * m + i < cnt * m :=
        calc e * m + i < (e + 1) * m := by rw [Nat.succ_mul]; omega
          _ ≤ cnt * m := Nat.mul_le_mul_right m (by omega)
      rw [List.getElem?_append_left (by omega), ih (by omega)]

section
variable (V : Variant) (p : List Byte) (cnt : Nat)

/-- Fixed fields come first. -/
theorem decodedValues_field {pre : List Field} {f : Field} {post : List Field} {j : Nat}
    (hfields : V.fields = pre ++ f :: post) (hj : j < f.count) :
    (decodedValues V p cnt)[fieldValues pre + j]?
      = some (scalarValue f.ty (le ((p.drop (f.off + j * f.ty.width)).take f.ty.width))) := by
  have hat := fieldScalars_flatMap_getElem? p 0 pre f post hj
  rw [← hfields, Nat.zero_add] at hat
  have hlt := (List.getElem?_eq_some_iff.1 hat).1
  rw [decodedValues, List.append_assoc, List.append_assoc, List.getElem?_append_left hlt, hat]

/-- Behind them stand the bit-fields, each a part of its host's word. -/
theorem decodedValues_bitField {pre : List BitField} {b : BitField} {post : List BitField}
    (hbits : V.bitfields = pre ++ b :: post) :
    (decodedValues V p cnt)[fieldValues V.fields + pre.length]?
      = some (extract (hostNat V.fields p b) b.shift b.width : Int) := by
  rw [decodedValues, List.append_assoc, List.append_assoc, ← fieldScalars_flatMap_length p 0 V.fields,
    List.getElem?_append_right (by omega), Nat.add_sub_cancel_left, List.getElem?_append_left (by simp [hbits])]
  simp [hbits]

/-- Then the tail count. -/
theorem decodedValues_count :
    (decodedValues V p cnt)[fieldValues V.fields + V.bitfields.length]? = some (cnt : Int) := by
  rw [decodedValues, List.append_assoc, ← fieldScalars_flatMap_length p 0 V.fields]
  rw [List.getElem?_append_right (by simp), List.length_append, List.length_map, Nat.sub_self]
  rfl

/-- And last the tail elements, field by field. -/
theorem decodedValues_element {pre : List Field} {g : Field} {post : List Field} {e j : Nat} (he : e < cnt)
    (hfields : V.tail.fields = pre ++ g :: post) (hj : j < g.count) :
    (decodedValues V p cnt)[fieldValues V.fields + V.bitfields.length + 1 + e * fieldValues V.tail.fields
        + fieldValues pre + j]?
      = some (scalarValue g.ty
          (le ((p.drop (V.head + e * V.tail.size + g.off + j * g.ty.width)).take g.ty.width))) := by
  have hat := fieldScalars_flatMap_getElem? p (V.head + e * V.tail.size) pre g post hj
  rw [← hfields] at hat
  have hlt := (List.getElem?_eq_some_iff.1 hat).1
  rw [fieldScalars_flatMap_length] at hlt
  have hblock := flatMap_range_getElem?
    (g := fun e => V.tail.fields.flatMap (fieldScalars p (V.head + e * V.tail.size)))
    (fun _ => fieldScalars_flatMap_length _ _ _) he hlt
  have hfront : (V.fields.flatMap (fieldScalars p 0) ++
      (V.bitfields.map fun b => (extract (hostNat V.fields p b) b.shift b.width : Int)) ++ [(cnt : Int)]).length
      = fieldValues V.fields + V.bitfields.length + 1 := by
    rw [List.length_append, List.length_append, fieldScalars_flatMap_length, List.length_map, List.length_singleton]
  rw [decodedValues, List.getElem?_append_right (by omega), hfront, ← hat, ← hblock]
  congr 1
  omega

end

/-- Settles O40: the number of values is that of `decodedValues`, each takes 8 bytes, and the tail count stands behind
the fields and the bit-fields. -/
theorem codecDecodeAnswersTheValues : Obligations.CodecDecodeAnswersTheValues := by
  intro s k L V n h p cnt hw hk hn hid ha hc
  have hlen : ((decodedValues V p cnt).flatMap valueBytes).length
      = 8 * (fieldValues V.fields + V.bitfields.length + 1 + cnt * fieldValues V.tail.fields) := by
    rw [flatMap_valueBytes_length, decodedValues_length]
  refine ⟨_, _, exec_codecDecode_accepted hw hk hn hid ha hc, countBytes_length _ _, hlen, fun hfits => ?count, ?slot⟩
  case count =>
    rw [flatMap_valueBytes_length, Nat.mul_div_cancel_left _ (by norm_num)] at hfits ⊢
    exact countBytes_of_lt hfits _
  case slot => rw [flatMap_valueBytes_at (decodedValues_count V p cnt), valueBytes_natCast]

/-- The response bytes of a scalar that lies inside the payload are its own, extended. -/
theorem valueBytes_slice {p : List Byte} {off : Nat} (ty : ScalarType) (h : off + ty.width ≤ p.length) :
    valueBytes (scalarValue ty (le ((p.drop off).take ty.width)))
      = extendBytes ty.signed ((p.drop off).take ty.width) :=
  valueBytes_scalarValue ty (by rw [List.length_take, List.length_drop]; omega)

/-- An element of a field lies inside the field. -/
theorem element_le_size {f : Field} {j : Nat} (hj : j < f.count) : j * f.ty.width + f.ty.width ≤ f.size := by
  rw [← Nat.succ_mul]
  exact Nat.mul_le_mul_right _ hj

/-- Element `e` of `cnt` ends where the `cnt` elements do, or before. -/
theorem element_end_le {e cnt : Nat} (he : e < cnt) (size : Nat) : e * size + size ≤ cnt * size := by
  rw [← Nat.succ_mul]
  exact Nat.mul_le_mul_right _ he

/-- Settles O41: each value's place is that of `decodedValues`, and its 8 bytes are the scalar's own, extended, or the
bit-field's. -/
theorem decodedValuesStandInDescriptorOrder : Obligations.DecodedValuesStandInDescriptorOrder := by
  intro s k L V n h p cnt hw hk hn hid ha hc
  obtain ⟨-, hV⟩ := selectFrom_variant hw hk hn ha
  have hhead := Variant.head_le ha
  have htail := (decodeVariant_ok hV ha hc).2
  refine ⟨_, _, exec_codecDecode_accepted hw hk hn hid ha hc, countBytes_length _ _, ?fields, ?bitFields, ?elements⟩
  case fields =>
    intro pre f post j hfields hj
    have hfit := (hV.fields f (by simp [hfields])).2
    have hel := element_le_size hj
    rw [flatMap_valueBytes_at (decodedValues_field V p cnt hfields hj), valueBytes_slice f.ty (by omega)]
  case bitFields =>
    intro pre b post f hbits hf
    rw [flatMap_valueBytes_at (decodedValues_bitField V p cnt hbits), valueBytes_natCast, extract_eq, hostNat, hf]
  case elements =>
    intro e pre g post j he hfields hj
    have hfit := (hV.elements g (by simp [hfields])).2
    have hel := element_le_size hj
    have hend := element_end_le he V.tail.size
    rw [flatMap_valueBytes_at (decodedValues_element V p cnt he hfields hj), valueBytes_slice g.ty (by omega)]

/-! ## Fixed sizes and the layouts of the spec (R213, R220, R221) -/

/-- Settles O42: no variant accepts the length, and none has a tail. -/
theorem fixedLengthLayoutsRejectOtherLengths : Obligations.FixedLengthLayoutsRejectOtherLengths := by
  intro s k L V h p hk hL htail hid hlen
  have hvar : V.tail.variable = false := by rw [htail]; rfl
  have hnone : ∀ U ∈ L.variants, U.accepts p.length = false := by
    intro U hU
    obtain rfl : U = V := by simpa [hL] using hU
    exact Bool.eq_false_iff.2 (mt (Variant.accepts_none hvar _).1 hlen)
  have hv := decodeLayout_of_no_variant hid hnone
  rw [lengthError_of_no_tail (by simp [hL, htail])] at hv
  exact exec_codecDecode_of_refuse hk hv

/-- A layout with one variant decodes the payloads that the variant accepts to its values (R202, R210, R212). -/
theorem decodeLayout_of_single {L : Layout} {V : Variant} {h : Header} {p : List Byte} {cnt : Nat}
    (hL : L.variants = [V]) (hV : V.wf = true) (hid : h.id = L.pid) (ha : V.accepts p.length = true)
    (hc : TailCount V p cnt) : decodeLayout L h p = .ok (0 :: decodedValues V p cnt) := by
  have hv := (decodeVariant_ok (soundVariant_of_wf hV) ha hc).1
  have hsel : selectFrom p.length L.variants 0 = some (0, V) := by rw [hL, selectFrom, if_pos ha]
  rw [decodeLayout, if_neg (not_not.2 hid), hsel]
  simp only [hv, Nat.cast_zero]

theorem valueBytes_zero : valueBytes 0 = leBytes 8 0 := valueBytes_natCast 0

/-- The response to a packet value whose count fits two bytes (R80). -/
theorem valuesData_of_lt {vals : List Int} (h : vals.length < 65536) (free : Word16) :
    valuesData vals free = leBytes 2 vals.length ++ vals.flatMap valueBytes := by
  rw [valuesData, countBytes_of_lt h]

/-- The acknowledge layout's variant (R220). -/
def acknowledgeVariant : Variant :=
  { head := 4
    fields := [⟨"packet_id", 0, .u8, 1⟩, ⟨"packet_crc", 1, .u16, 1⟩, ⟨"result", 3, .u8, 1⟩]
    bitfields := []
    tail := .none }

theorem layoutAcknowledge_variants : layoutAcknowledge.variants = [acknowledgeVariant] := rfl

/-- The request layout's variant (R221). -/
def requestVariant : Variant :=
  { head := 0
    fields := []
    bitfields := []
    tail := .len 1 [⟨"packet_id", 0, .u8, 1⟩] }

theorem layoutRequest_variants : layoutRequest.variants = [requestVariant] := rfl

theorem layout_acknowledge {P : Config} (h : P.layouts = State.reset.cfg.layouts) :
    P.layout 0x00#8 = some layoutAcknowledge := by
  rw [Config.layout, h]
  rfl

theorem layout_request {P : Config} (h : P.layouts = State.reset.cfg.layouts) :
    P.layout 0x01#8 = some layoutRequest := by
  rw [Config.layout, h]
  rfl

theorem decodedValues_acknowledge (a b c d : Byte) :
    decodedValues acknowledgeVariant [a, b, c, d] 0
      = [(a.toNat : Int), ((b.toNat + 256 * c.toNat : Nat) : Int), (d.toNat : Int), ((0 : Nat) : Int)] := by
  simp [decodedValues, acknowledgeVariant, fieldScalars, ScalarType.width, scalarValue, ScalarType.signed]

/-- Settles O43: four bytes are the one length that the layout accepts. -/
theorem acknowledgeIsDecodedNotEncoded : Obligations.AcknowledgeIsDecodedNotEncoded := by
  intro s h a b c d v hlayouts hid
  have hk := layout_acknowledge hlayouts
  constructor
  · have hv : decodeLayout layoutAcknowledge h [a, b, c, d]
        = .ok (0 :: decodedValues acknowledgeVariant [a, b, c, d] 0) :=
      decodeLayout_of_single layoutAcknowledge_variants (by decide) hid rfl (rfl : TailCount acknowledgeVariant _ 0)
    rw [exec_codecDecode_of_ok hk hv, decodedValues_acknowledge, valuesData_of_lt (by simp)]
    simp only [List.flatMap_cons, List.flatMap_nil, valueBytes_zero, valueBytes_natCast, List.append_nil,
      List.append_assoc, List.length_cons, List.length_nil]
    rfl
  · have hrefuse : codecEncode s.cfg 0x00#8 v = .error .badOperand := by
      simp [codecEncode, hk, encodeLayout, layoutAcknowledge]
    rw [exec_codecEncode, hrefuse, commitData_error]

/-- A field with one element has one value. -/
theorem fieldScalars_of_single {f : Field} (h : f.count = 1) (p : List Byte) (base : Nat) :
    fieldScalars p base f = [scalarValue f.ty (le ((p.drop (base + f.off)).take f.ty.width))] := by
  simp [fieldScalars, h]

/-- The tail elements of a request are its ids. -/
theorem decodedValues_request (ids : List Byte) :
    decodedValues requestVariant ids ids.length = ((ids.length : Nat) : Int) :: ids.map fun b => (b.toNat : Int) := by
  have helement : ∀ e, [(⟨"packet_id", 0, .u8, 1⟩ : Field)].flatMap (fieldScalars ids (0 + e * 1))
      = [((le ((ids.drop e).take 1) : Nat) : Int)] := by
    intro e
    rw [List.flatMap_singleton, fieldScalars_of_single rfl, scalarValue_unsigned rfl, Nat.zero_add, Nat.mul_one]
    rfl
  have hids : (List.range ids.length).map (fun e => ((le ((ids.drop e).take 1) : Nat) : Int))
      = ids.map fun b => (b.toNat : Int) := by
    refine List.ext_getElem (by simp) fun i h₁ h₂ => ?_
    have hi : i < ids.length := by simpa using h₂
    rw [List.getElem_map, List.getElem_map, List.getElem_range, List.drop_eq_getElem_cons hi]
    rfl
  have htail : (List.range ids.length).flatMap (fun e => [((le ((ids.drop e).take 1) : Nat) : Int)])
      = ids.map fun b => (b.toNat : Int) := by
    rw [← List.map_eq_flatMap, hids]
  simp only [decodedValues, requestVariant, Tail.fields, Tail.size, helement, htail]
  rfl

/-- Every length is a number of ids. -/
theorem requestVariant_accepts (n : Nat) : requestVariant.accepts n = true :=
  (Variant.accepts_tail rfl n).2 ⟨Nat.zero_le n, Nat.mod_one _⟩

theorem requestVariant_tailCount (ids : List Byte) : TailCount requestVariant ids ids.length :=
  (Nat.div_one ids.length).symm

/-- Settles O44: every length is accepted, and the packet value is the number of ids and the ids. -/
theorem requestDecodesToItsIds : Obligations.RequestDecodesToItsIds := by
  intro s h ids hlayouts hid hlen
  have hv : decodeLayout layoutRequest h ids = .ok (0 :: decodedValues requestVariant ids ids.length) :=
    decodeLayout_of_single layoutRequest_variants (by decide) hid (requestVariant_accepts _)
      (requestVariant_tailCount ids)
  have hcount : (0 :: ((ids.length : Nat) : Int) :: ids.map fun b => (b.toNat : Int)).length = 2 + ids.length := by
    simp only [List.length_cons, List.length_map]
    omega
  rw [exec_codecDecode_of_ok (layout_request hlayouts) hv, decodedValues_request, valuesData_of_lt (by omega), hcount]
  simp only [List.flatMap_cons, List.flatMap_map, valueBytes_zero, valueBytes_natCast, List.append_assoc]

end Sys2Proof.Machine
end

section
/-! CODEC_ENCODE: the order of its checks, and what stands in the payload it frames (R182, R184, R192, R215, R216). -/

namespace Sys2Proof.Machine

/-! ## The checks, one by one (R215) -/

theorem exec_codecEncode_of_layout {s : State} {k : Byte} {L : Layout} (hk : s.cfg.layout k = some L)
    (v : List Word64) : exec (.codecEncode k v) s = commitData s (encodeLayout L v) := by
  rw [exec_codecEncode, codecEncode, hk]

theorem encodeLayout_of_not_encodable {L : Layout} (h : L.encodable = false) (v : List Word64) :
    encodeLayout L v = .error .badOperand := by
  unfold encodeLayout
  exact if_pos h

theorem encodeLayout_nil (L : Layout) : encodeLayout L [] = .error .badOperand := by
  unfold encodeLayout
  split <;> rfl

section
variable {L : Layout} {vi : Word64} {vals : List Word64} {V : Variant}

theorem encodeLayout_of_no_variant (h : L.variants[vi.toNat]? = none) :
    encodeLayout L (vi :: vals) = .error .badOperand := by
  unfold encodeLayout
  split
  · rfl
  · simp only [h]

theorem encodeLayout_of_no_count (hV : L.variants[vi.toNat]? = some V)
    (h : vals[fieldValues V.fields + V.bitfields.length]? = none) :
    encodeLayout L (vi :: vals) = .error .badOperand := by
  unfold encodeLayout
  split
  · rfl
  · simp only [hV, h]

theorem encodeLayout_of_count {cnt : Word64} (henc : L.encodable = true) (hV : L.variants[vi.toNat]? = some V)
    (h : vals[fieldValues V.fields + V.bitfields.length]? = some cnt) :
    encodeLayout L (vi :: vals) = encodeVariant L.pid V vals cnt.toNat := by
  simp only [encodeLayout, henc, hV, h, Bool.true_eq_false, if_false]

end

/-- The number of values after the variant index that a variant asks for (R212, R215). -/
def valueCount (V : Variant) (cnt : Nat) : Nat :=
  fieldValues V.fields + V.bitfields.length + 1 + cnt * fieldValues V.tail.fields

theorem expectedValues_eq (V : Variant) (cnt : Nat) : expectedValues V cnt = 1 + valueCount V cnt := by
  rw [expectedValues, valueCount]
  omega

/-- The length of the payload with `cnt` tail elements (R215). -/
def payloadLength (V : Variant) (cnt : Nat) : Nat := V.head + cnt * V.tail.size

/-- What the checks before the payload let pass (R215). -/
structure Encodable (V : Variant) (vals : List Word64) (cnt : Nat) : Prop where
  values : vals.length = valueCount V cnt
  noTail : V.tail = .none → cnt = 0
  short : payloadLength V cnt ≤ 255

section
variable {pid : Byte} {V : Variant} {vals : List Word64} {cnt : Nat}

theorem encodeVariant_of_wrong_values (h : vals.length ≠ valueCount V cnt) :
    encodeVariant pid V vals cnt = .error .badOperand := by
  rw [encodeVariant, expectedValues_eq, if_pos (by omega)]

theorem tail_variable_eq_false_iff (t : Tail) : t.variable = false ↔ t = .none := by
  rw [← Bool.not_eq_true, tail_variable_iff, not_not]

theorem encodeVariant_of_count_without_tail (hlen : vals.length = valueCount V cnt) (ht : V.tail = .none)
    (hc : cnt ≠ 0) : encodeVariant pid V vals cnt = .error .valueRange := by
  rw [encodeVariant, expectedValues_eq, if_neg (by omega), if_pos ⟨(tail_variable_eq_false_iff _).2 ht, hc⟩]

theorem encodeVariant_of_long (hlen : vals.length = valueCount V cnt) (ht : V.tail = .none → cnt = 0)
    (hlong : 255 < payloadLength V cnt) : encodeVariant pid V vals cnt = .error .encodePrecond := by
  rw [encodeVariant, expectedValues_eq, if_neg (by omega),
    if_neg fun h => h.2 (ht ((tail_variable_eq_false_iff _).1 h.1))]
  exact if_pos hlong

/-- What passes the checks is built into a payload, and the payload is framed. -/
theorem encodeVariant_of_encodable (h : Encodable V vals cnt) :
    encodeVariant pid V vals cnt
      = (encodePayload V cnt vals).bind (encodeFrame pid (BitVec.ofNat 8 (payloadLength V cnt))) := by
  have hlen := h.values
  rw [encodeVariant, expectedValues_eq, if_neg (by omega),
    if_neg fun hn => hn.2 (h.noTail ((tail_variable_eq_false_iff _).1 hn.1))]
  refine (if_neg (not_lt.2 h.short)).trans ?_
  cases encodePayload V cnt vals <;> rfl

/-- A framed answer passed the checks, and it is the frame of its payload. -/
theorem encodable_of_encodeVariant_ok {data : List Byte} (h : encodeVariant pid V vals cnt = .ok data) :
    Encodable V vals cnt ∧ ∃ p, encodePayload V cnt vals = .ok p ∧
      encodeFrame pid (BitVec.ofNat 8 (payloadLength V cnt)) p = .ok data := by
  by_cases hlen : vals.length = valueCount V cnt
  case neg => rw [encodeVariant_of_wrong_values hlen] at h; cases h
  case pos =>
    by_cases ht : V.tail = .none → cnt = 0
    case neg =>
      rw [Classical.not_imp] at ht
      rw [encodeVariant_of_count_without_tail hlen ht.1 ht.2] at h
      cases h
    case pos =>
      by_cases hlong : 255 < payloadLength V cnt
      case pos => rw [encodeVariant_of_long hlen ht hlong] at h; cases h
      case neg =>
        have henc : Encodable V vals cnt := ⟨hlen, ht, not_lt.1 hlong⟩
        refine ⟨henc, ?_⟩
        rw [encodeVariant_of_encodable henc] at h
        cases hp : encodePayload V cnt vals with
        | error e => rw [hp] at h; cases h
        | ok p => rw [hp] at h; exact ⟨p, rfl, h⟩

end

theorem encodePayload_length {V : Variant} (hV : SoundVariant V) {cnt : Nat} {vals : List Word64} {p : List Byte}
    (h : encodePayload V cnt vals = .ok p) : p.length = payloadLength V cnt := by
  rcases encodePayload_spec hV cnt vals with he | ⟨q1, q2, q3, -, -, -, hq3, hl1, hl2, hl3⟩
  · rw [he] at h; cases h
  · rw [hq3] at h
    cases h
    rw [hl3, hl2, hl1, payloadLength]

/-- Building the payload raises nothing but VALUE_RANGE, and raises it exactly when a value does not fit. -/
theorem encodePayload_of_not_fit {V : Variant} (hV : SoundVariant V) {cnt : Nat} {vals : List Word64}
    (hl : fieldValues V.fields ≤ vals.length) (h : ¬ ValuesFit V cnt vals) :
    encodePayload V cnt vals = .error .valueRange := by
  rcases encodePayload_spec hV cnt vals with he | ⟨q1, q2, q3, -, -, -, hq3, -⟩
  · exact he
  · exact absurd ((encodePayload_ok_iff hV hl).1 ⟨q3, hq3⟩) h

/-- A payload of at most 255 bytes is framed under its own length (R121). -/
theorem encodeFrame_of_short {p : List Byte} (h : p.length ≤ 255) (pid : Byte) :
    encodeFrame pid (BitVec.ofNat 8 p.length) p = .ok (frameBytes (buildFrame pid (BitVec.ofNat 8 p.length) p)) := by
  have hlen : p.length = (BitVec.ofNat 8 p.length).toNat := by
    rw [BitVec.toNat_ofNat, Nat.mod_eq_of_lt (by omega)]
  rw [encodeFrame_eq, if_pos hlen]

theorem exec_encode_of_ok {id length : Byte} {p data : List Byte} (s : State) (h : encodeFrame id length p = .ok data) :
    exec (.encode id length p) s = .next (okAfter s data) := by
  change commitData s (encodeFrame id length p) = _
  rw [h, commitData_ok]

theorem Encodable.fields_le {V : Variant} {vals : List Word64} {cnt : Nat} (h : Encodable V vals cnt) :
    fieldValues V.fields ≤ vals.length := by
  rw [h.values, valueCount]
  omega

/-- Settles O46: each failing check stops the computation before the next one is looked at; what passes them fails only
for a value that does not fit. -/
theorem encodeErrorsFollowTheOrderOfChecks : Obligations.EncodeErrorsFollowTheOrderOfChecks := by
  intro s k L v hwf hk
  simp only [exec_codecEncode_of_layout hk]
  split_ifs with hnone
  · rcases hnone with henc | rfl
    · rw [encodeLayout_of_not_encodable henc, commitData_error]
    · rw [encodeLayout_nil, commitData_error]
  · rintro vi vals rfl
    have henc : L.encodable = true := by simpa using (not_or.1 hnone).1
    split_ifs with hvi
    · rw [encodeLayout_of_no_variant (List.getElem?_eq_none hvi), commitData_error]
    · intro V hVat
      have hV : SoundVariant V :=
        soundVariant_of_wf (Layout.variant_wf (Config.layout_wf hwf hk) (List.mem_of_getElem? hVat))
      split_ifs with hshort
      · rw [encodeLayout_of_no_count hVat (List.getElem?_eq_none hshort), commitData_error]
      · intro cnt hcnt
        rw [encodeLayout_of_count henc hVat hcnt]
        have count_zero (h : ¬ (V.tail = .none ∧ cnt ≠ 0)) (ht : V.tail = .none) : cnt.toNat = 0 := by
          rw [not_not.1 (not_and.1 h ht)]
          rfl
        split_ifs with hlen htail hlong
        · rw [encodeVariant_of_wrong_values hlen, commitData_error]
        · have hne : cnt.toNat ≠ 0 := fun h0 => htail.2 (BitVec.eq_of_toNat_eq h0)
          rw [encodeVariant_of_count_without_tail (not_not.1 hlen) htail.1 hne, commitData_error]
        · rw [encodeVariant_of_long (not_not.1 hlen) (count_zero htail) hlong, commitData_error]
        · have henc : Encodable V vals cnt.toNat := ⟨not_not.1 hlen, count_zero htail, not_lt.1 hlong⟩
          refine ⟨fun hfit => ?refused, fun hfit => ?framed⟩
          case refused =>
            rw [encodeVariant_of_encodable henc, encodePayload_of_not_fit hV henc.fields_le hfit]
            rfl
          case framed =>
            obtain ⟨p, hp⟩ := (encodePayload_ok_iff hV henc.fields_le).2 hfit
            have hpl := encodePayload_length hV hp
            have hframe := encodeFrame_of_short (hpl ▸ henc.short) L.pid
            refine ⟨_, _, _, p, hpl, ?_, exec_encode_of_ok s hframe⟩
            rw [encodeVariant_of_encodable henc, hp, ← hpl]
            exact congrArg (commitData s) hframe

end Sys2Proof.Machine
end

section
/-! What stands in the payload that CODEC_ENCODE frames, place by place (R182, R184, R215, R216). -/

namespace Sys2Proof.Machine

/-! ## The places of a payload -/

/-- The bytes of the fixed fields. -/
def fieldPlaces (V : Variant) (a : Nat) : Prop := ∃ f ∈ V.fields, f.off ≤ a ∧ a < f.off + f.size

/-- The bytes of the fields that bit-fields have as their hosts, for the bit-field values `bvals`. -/
def hostPlaces (V : Variant) (bvals : List Word64) (a : Nat) : Prop :=
  ∃ f ∈ V.fields, hostItems f.name V.bitfields bvals ≠ [] ∧ f.off ≤ a ∧ a < f.off + f.size

/-- The bytes of the fields of `cnt` tail elements. -/
def elementPlaces (V : Variant) (cnt a : Nat) : Prop :=
  ∃ e < cnt, ∃ f ∈ V.tail.fields, V.head + e * V.tail.size + f.off ≤ a ∧ a < V.head + e * V.tail.size + f.off + f.size

/-- The bit-field values among the values of a packet (R212). -/
def bitFieldSlots (V : Variant) (vals : List Word64) : List Word64 := vals.drop (fieldValues V.fields)

/-- The word that a host field ends with: its own bits outside its bit-fields, theirs inside (R216). -/
def hostedWord (V : Variant) (vals : List Word64) (f : Field) (x : Word64) : Nat :=
  (x.toNat &&& ((2 ^ (8 * f.ty.width) - 1) ^^^ unionMask (hostItems f.name V.bitfields (bitFieldSlots V vals))))
    ||| packWord (hostItems f.name V.bitfields (bitFieldSlots V vals))

/-- The three passes that build the payload: from zero bytes the fields give `q1`, then the hosts `q2`, then the tail
elements `p`; what each pass writes, and where (R215). -/
structure Built (V : Variant) (cnt : Nat) (vals : List Word64) (q1 q2 p : List Byte) : Prop where
  fieldsWritten : Written (List.replicate (payloadLength V cnt) 0#8) q1 (fieldPlaces V)
  fields : ∀ pre f post j x, V.fields = pre ++ f :: post → j < f.count → vals[fieldValues pre + j]? = some x →
    elementAt q1 0 f j = (leBytes 8 x.toNat).take f.ty.width
  hostsWritten : Written q1 q2 (hostPlaces V (bitFieldSlots V vals))
  hosts : ∀ pre f post x, V.fields = pre ++ f :: post →
    hostItems f.name V.bitfields (bitFieldSlots V vals) ≠ [] → vals[fieldValues pre]? = some x →
    (∀ i ∈ hostItems f.name V.bitfields (bitFieldSlots V vals), i.Ok (8 * f.ty.width)) ∧
      le (elementAt q2 0 f 0) = hostedWord V vals f x
  elementsWritten : Written q2 p (elementPlaces V cnt)
  elements : ∀ e pre g post j x, e < cnt → V.tail.fields = pre ++ g :: post → j < g.count →
    vals[fieldValues V.fields + V.bitfields.length + 1 + e * fieldValues V.tail.fields + fieldValues pre + j]?
      = some x →
    elementAt p (V.head + e * V.tail.size) g j = (leBytes 8 x.toNat).take g.ty.width

/-- What holds of every success holds of this one. -/
theorem of_error_or_ok {α : Type} {r : Except FaultCode α} {c : FaultCode} {P : α → Prop}
    (h : r = .error c ∨ ∃ q, r = .ok q ∧ P q) {q : α} (hq : r = .ok q) : P q := by
  rcases h with he | ⟨q', hq', hP⟩
  · cases he.symm.trans hq
  · cases hq'.symm.trans hq
    exact hP

theorem built_of_encodePayload {V : Variant} (hV : SoundVariant V) {cnt : Nat} {vals : List Word64} {p : List Byte}
    (h : encodePayload V cnt vals = .ok p) : ∃ q1 q2, Built V cnt vals q1 q2 p := by
  rcases encodePayload_spec hV cnt vals with he | ⟨q1, q2, q3, h1, h2, h3, hp, hl1, hl2, -⟩
  · cases he.symm.trans h
  cases hp.symm.trans h
  have hzero : (List.replicate (payloadLength V cnt) 0#8).length = V.head + cnt * V.tail.size :=
    List.length_replicate ..
  have hfit : ∀ f ∈ V.fields, f.off + f.size ≤ V.head + cnt * V.tail.size := fun f hf =>
    (hV.fields f hf).2.trans (Nat.le_add_right _ _)
  obtain ⟨hosts, geometry⟩ := hostItems_hosted hV (bitFieldSlots V vals)
  obtain ⟨w1, c1⟩ := of_error_or_ok
    (writeFields_spec (base := 0) (q := List.replicate (payloadLength V cnt) 0#8)
      (by rw [hzero]; simpa using hfit) hV.apart) h1
  obtain ⟨w2, c2⟩ := of_error_or_ok
    (writeHosts_spec (by rw [hl1]; exact hfit) hV.apart hosts geometry fun f _ => hostItems_apart _ hV.masks) h2
  obtain ⟨w3, c3⟩ := of_error_or_ok
    (writeElements_spec (fun f hf => (hV.elements f hf).2) hV.elementsApart (by rw [hl2, hl1])) h3
  simp only [Nat.zero_add] at w1
  refine ⟨q1, q2, w1, c1, w2, c2, w3, ?_⟩
  intro e pre g post j x he hs hj hx
  refine c3 e pre g post j x he hs hj ?_
  rw [List.getElem?_drop, ← hx]
  congr 1
  omega

/-! ## What the places hold at the end -/

section
variable {V : Variant} {cnt : Nat} {vals : List Word64} {q1 q2 p : List Byte}

/-- Tail elements stand behind the head, the fixed fields in it. -/
theorem not_elementPlaces_of_lt_head {a : Nat} (ha : a < V.head) : ¬ elementPlaces V cnt a := by
  rintro ⟨e, -, f, -, h, -⟩
  omega

/-- The bytes of a fixed field are those that the first two passes left. -/
theorem Built.field_slice (h : Built V cnt vals q1 q2 p) (hV : SoundVariant V) {f : Field} (hf : f ∈ V.fields)
    {off n : Nat} (hhi : off + n ≤ f.off + f.size) :
    (p.drop off).take n = (q2.drop off).take n := by
  have := (hV.fields f hf).2
  exact h.elementsWritten.slice fun a _ ha => not_elementPlaces_of_lt_head (by omega)

/-- Two fields that share a byte are one field. -/
theorem eq_of_common_byte (hV : SoundVariant V) {f g : Field} (hf : f ∈ V.fields) (hg : g ∈ V.fields) {a : Nat}
    (hfa : f.off ≤ a ∧ a < f.off + f.size) (hga : g.off ≤ a ∧ a < g.off + g.size) : f = g := by
  by_contra hne
  have hsymm : Std.Symm (fun f g : Field => f.apart g = true) := ⟨fun f g h => by
    simpa [Field.apart, or_comm] using h⟩
  have := hV.apart.forall hf hg hne
  simp only [Field.apart, Bool.or_eq_true, decide_eq_true_eq] at this
  omega

/-- A field without bit-fields keeps what the first pass wrote. -/
theorem Built.plain_field (h : Built V cnt vals q1 q2 p) (hV : SoundVariant V) {pre post : List Field} {f : Field}
    {j : Nat} {x : Word64} (hs : V.fields = pre ++ f :: post) (hj : j < f.count)
    (hplain : ∀ b ∈ V.bitfields, b.host ≠ f.name) (hx : vals[fieldValues pre + j]? = some x) :
    (p.drop (f.off + j * f.ty.width)).take f.ty.width = (leBytes 8 x.toNat).take f.ty.width := by
  have hf : f ∈ V.fields := by simp [hs]
  have hel := element_le_size hj
  rw [h.field_slice hV hf (by omega), ← h.fields pre f post j x hs hj hx, elementAt, Nat.zero_add]
  refine h.hostsWritten.slice fun a hlo hhi => ?_
  rintro ⟨g, hg, hne, hga⟩
  obtain rfl := eq_of_common_byte hV hf hg (a := a) ⟨by omega, by omega⟩ hga
  obtain ⟨i, hi⟩ := List.exists_mem_of_ne_nil _ hne
  obtain ⟨b, hb, hn, -⟩ := hostItems_mem hi
  exact hplain b hb hn

/-- A host field with a value ends with its word. -/
theorem Built.host_field (h : Built V cnt vals q1 q2 p) (hV : SoundVariant V) {pre post : List Field} {f : Field}
    {x : Word64} (hs : V.fields = pre ++ f :: post)
    (hne : hostItems f.name V.bitfields (bitFieldSlots V vals) ≠ []) (hx : vals[fieldValues pre]? = some x) :
    (∀ i ∈ hostItems f.name V.bitfields (bitFieldSlots V vals), i.Ok (8 * f.ty.width)) ∧
      le ((p.drop f.off).take f.ty.width) = hostedWord V vals f x := by
  have hf : f ∈ V.fields := by simp [hs]
  obtain ⟨hok, hword⟩ := h.hosts pre f post x hs hne hx
  have hel := element_le_size (hV.fields f hf).1
  refine ⟨hok, ?_⟩
  rw [h.field_slice hV hf (by omega), ← hword, elementAt, Nat.zero_add, Nat.zero_mul, Nat.add_zero]

/-- Bytes that no field covers stay zero. -/
theorem Built.gapsZero (h : Built V cnt vals q1 q2 p) : GapsZero V cnt p := by
  intro a ha hfields helements
  have hout : ∀ f ∈ V.fields, ¬ (f.off ≤ a ∧ a < f.off + f.size) := fun f hf => by
    have := hfields f hf
    omega
  have h3 : ¬ elementPlaces V cnt a := by
    rintro ⟨e, he, f, hf, hin⟩
    have := helements e he f hf
    omega
  have h2 : ¬ hostPlaces V (bitFieldSlots V vals) a := fun ⟨f, hf, _, hin⟩ => hout f hf hin
  have h1 : ¬ fieldPlaces V a := fun ⟨f, hf, hin⟩ => hout f hf hin
  rw [h.elementsWritten.outside a h3, h.hostsWritten.outside a h2, h.fieldsWritten.outside a h1,
    List.getElem?_replicate]
  exact if_pos ha

end

/-! ## The statement -/

/-- The values of a packet of the right length hold one for each bit-field. -/
theorem Encodable.bitField_slot {V : Variant} {vals : List Word64} {cnt : Nat} (h : Encodable V vals cnt)
    {pre post : List BitField} {b : BitField} (hs : V.bitfields = pre ++ b :: post) :
    ∃ y, vals[fieldValues V.fields + pre.length]? = some y := by
  have hlt : fieldValues V.fields + pre.length < vals.length := by
    rw [h.values, valueCount, hs, List.length_append, List.length_cons]
    omega
  exact ⟨_, List.getElem?_eq_getElem hlt⟩

theorem fieldValues_append (pre post : List Field) :
    fieldValues (pre ++ post) = fieldValues pre + fieldValues post := by
  simp [fieldValues]

/-- They hold one for the first element of each field. -/
theorem Encodable.field_slot {V : Variant} {vals : List Word64} {cnt : Nat} (h : Encodable V vals cnt)
    (hV : SoundVariant V) {pre post : List Field} {f : Field} (hs : V.fields = pre ++ f :: post) :
    ∃ x, vals[fieldValues pre]? = some x := by
  have hpos := (hV.fields f (by simp [hs])).1
  have hlt : fieldValues pre < vals.length := by
    have hle := h.fields_le
    have hcons : fieldValues (f :: post) = f.count + fieldValues post := by simp [fieldValues]
    rw [hs, fieldValues_append, hcons] at hle
    omega
  exact ⟨_, List.getElem?_eq_getElem hlt⟩

/-- A field that a bit-field names has items. -/
theorem Encodable.hostItems_ne_nil {V : Variant} {vals : List Word64} {cnt : Nat} (h : Encodable V vals cnt)
    {f : Field} (hex : ∃ b ∈ V.bitfields, b.host = f.name) :
    hostItems f.name V.bitfields (bitFieldSlots V vals) ≠ [] := by
  obtain ⟨b, hb, hn⟩ := hex
  obtain ⟨pre, post, hs⟩ := List.append_of_mem hb
  obtain ⟨y, hy⟩ := h.bitField_slot hs
  refine List.ne_nil_of_mem (a := ⟨y.toNat, b.shift, b.width⟩) ?_
  rw [hs]
  exact hostItems_at hn (by rwa [bitFieldSlots, List.getElem?_drop])

/-- The response port tells an OK answer's data, and an OK answer from a fault. -/
theorem okAfter_injective {s : State} {a b : List Byte} (h : okAfter s a = okAfter s b) : a = b := by
  simpa using congrArg State.rsp h

theorem okAfter_ne_faultAfter (s : State) (data : List Byte) (c : FaultCode) : okAfter s data ≠ faultAfter s c := by
  intro h
  simpa using congrArg State.rsp h

/-- The response of CODEC_ENCODE is a frame of a payload that was built (R215). -/
theorem codecEncode_answer {s : State} {k : Byte} {L : Layout} {V : Variant} {vi cnt : Word64} {vals : List Word64}
    {data : List Byte} (hk : s.cfg.layout k = some L) (hVat : L.variants[vi.toNat]? = some V)
    (hcnt : vals[fieldValues V.fields + V.bitfields.length]? = some cnt)
    (hexec : exec (.codecEncode k (vi :: vals)) s = .next (okAfter s data)) :
    Encodable V vals cnt.toNat ∧ ∃ p, encodePayload V cnt.toNat vals = .ok p ∧
      encodeFrame L.pid (BitVec.ofNat 8 (payloadLength V cnt.toNat)) p = .ok data := by
  have hok : encodeLayout L (vi :: vals) = .ok data := by
    rw [exec_codecEncode_of_layout hk] at hexec
    rcases commitData_eq_next hexec with ⟨d, hd, ht⟩ | ⟨c, -, ht⟩
    · rw [hd, okAfter_injective ht]
    · exact absurd ht (okAfter_ne_faultAfter s data c)
  have henc : L.encodable = true := by
    by_contra hno
    rw [encodeLayout_of_not_encodable (Bool.eq_false_iff.2 hno)] at hok
    cases hok
  rw [encodeLayout_of_count henc hVat hcnt] at hok
  exact encodable_of_encodeVariant_ok hok

/-- Settles O47: the frame is that of a built payload, and each place of that payload holds what its pass wrote. -/
theorem encodedPayloadHoldsTheValues : Obligations.EncodedPayloadHoldsTheValues := by
  intro s k L V vi cnt vals b0 id len lo hi p hwf hk hVat hcnt hexec
  have hV : SoundVariant V :=
    soundVariant_of_wf (Layout.variant_wf (Config.layout_wf hwf hk) (List.mem_of_getElem? hVat))
  obtain ⟨henc, q, hq, hframe⟩ := codecEncode_answer hk hVat hcnt hexec
  have hql := encodePayload_length hV hq
  rw [← hql, encodeFrame_of_short (hql ▸ henc.short)] at hframe
  obtain ⟨-, rfl, -, -, -, rfl⟩ : _ ∧ L.pid = id ∧ _ ∧ _ ∧ _ ∧ q = p := by
    simpa [frameBytes, buildFrame, Header.toBytes] using hframe
  obtain ⟨q1, q2, hb⟩ := built_of_encodePayload hV hq
  refine ⟨rfl, hql, (encodePayload_ok_iff hV henc.fields_le).1 ⟨q, hq⟩, hb.gapsZero,
    fun pre f post j x hs hj hplain hx => hb.plain_field hV hs hj hplain hx, ?hostBits, ?bitFields, hb.elements⟩
  case hostBits =>
    intro pre f post x i hs hex hx hi hout
    obtain ⟨hok, hword⟩ := hb.host_field hV hs (henc.hostItems_ne_nil hex) hx
    rw [hword, hostedWord]
    refine (hostWord_bits hok (hostItems_apart _ hV.masks)).2 i hi fun it hit => ?_
    obtain ⟨b, hbm, hn, hshift, hwidth⟩ := hostItems_mem hit
    rw [hshift, hwidth]
    exact hout b hbm hn
  case bitFields =>
    intro pre b post f y hs hf hy
    obtain ⟨fpre, fpost, hfs, hn, -⟩ := findField_eq_some hf
    have hbm : b ∈ V.bitfields := by simp [hs]
    obtain ⟨x, hx⟩ := henc.field_slot hV hfs
    obtain ⟨hok, hword⟩ := hb.host_field hV hfs (henc.hostItems_ne_nil ⟨b, hbm, hn.symm⟩) hx
    have hmem : (⟨y.toNat, b.shift, b.width⟩ : BitItem) ∈ hostItems f.name V.bitfields (bitFieldSlots V vals) := by
      rw [hs]
      exact hostItems_at hn.symm (by rwa [bitFieldSlots, List.getElem?_drop])
    rw [hword, hostedWord, ← extract_eq]
    exact (hostWord_bits hok (hostItems_apart _ hV.masks)).1 _ hmem

end Sys2Proof.Machine
end

section
/-! CODEC_ENCODE after CODEC_DECODE gives the payload back (R216, R217), and CODEC_ENCODE on the request layout
(R221). -/

namespace Sys2Proof.Machine

/-! ## What an OK answer of CODEC_DECODE says (R210, R212) -/

/-- An OK answer is that of a packet value. -/
theorem decodeLayout_of_answer {s : State} {k : Byte} {L : Layout} {h : Header} {p data : List Byte}
    (hk : s.cfg.layout k = some L) (hexec : exec (.codecDecode k h p) s = .next (okAfter s data)) :
    ∃ vals, decodeLayout L h p = .ok vals ∧ data = valuesData vals (Config.freeValueCount L p) := by
  cases hv : decodeLayout L h p with
  | ok vals =>
    have heq := Host.Outcome.next.inj (hexec.symm.trans (exec_codecDecode_of_ok hk hv))
    exact ⟨vals, rfl, okAfter_injective heq⟩
  | error stop =>
    exfalso
    cases stop with
    | refuse e =>
      have hrsp := congrArg State.rsp (Host.Outcome.next.inj ((exec_codecDecode_of_refuse hk hv).symm.trans hexec))
      simp at hrsp
    | fault c =>
      have heq := Host.Outcome.next.inj (hexec.symm.trans (exec_codecDecode_of_fault hk hv))
      exact okAfter_ne_faultAfter s data c heq

/-- What a variant decodes are the values of R212, and its count fits the payload. -/
theorem decodeVariant_eq_ok {V : Variant} {p : List Byte} {vals : List Int} (hV : SoundVariant V)
    (ha : V.accepts p.length = true) (h : decodeVariant V p = .ok vals) :
    ∃ cnt, TailCount V p cnt ∧ vals = decodedValues V p cnt := by
  suffices ∃ cnt, TailCount V p cnt by
    obtain ⟨cnt, hc⟩ := this
    cases (decodeVariant_ok hV ha hc).1.symm.trans h
    exact ⟨cnt, hc, rfl⟩
  cases ht : V.tail with
  | none => exact ⟨0, by rw [TailCount, ht]⟩
  | len size ef => exact ⟨(p.length - V.head) / size, by rw [TailCount, ht]⟩
  | cnt name size ef =>
    obtain ⟨f, hf, -⟩ := hV.counter name size ef ht
    by_cases hover : p.length < V.head + le ((p.drop f.off).take f.ty.width) * size
    · cases (decodeVariant_overrun hV ha ht hf hover).symm.trans h
    · refine ⟨le ((p.drop f.off).take f.ty.width), ?_⟩
      rw [TailCount, ht]
      exact ⟨⟨f, hf, rfl⟩, not_lt.1 hover⟩

/-- The packet value of a layout with the accepting variant `V` at index `n`. -/
theorem decodeLayout_eq_ok {P : Config} {k : Byte} {L : Layout} {V : Variant} {n : Nat} {h : Header} {p : List Byte}
    {vals : List Int} (hw : P.wf = true) (hk : P.layout k = some L) (hn : L.variants[n]? = some V)
    (ha : V.accepts p.length = true) (hv : decodeLayout L h p = .ok vals) :
    ∃ cnt, TailCount V p cnt ∧ vals = (n : Int) :: decodedValues V p cnt := by
  obtain ⟨hsel, hV⟩ := selectFrom_variant hw hk hn ha
  have hid : h.id = L.pid := by
    by_contra hne
    cases (decodeLayout_of_id_ne hne).symm.trans hv
  cases hdec : decodeVariant V p with
  | error e => cases (decodeLayout_of_variant_error hid hsel hdec).symm.trans hv
  | ok vs =>
    obtain ⟨cnt, hc, rfl⟩ := decodeVariant_eq_ok hV ha hdec
    rw [decodeLayout, if_neg (not_not.2 hid), hsel] at hv
    simp only [hdec] at hv
    exact ⟨cnt, hc, (Except.ok.inj hv).symm⟩

/-! ## Values and the words they travel in (R75, R212) -/

/-- Value words are told apart by their bytes. -/
theorem flatMap_leBytes_injective {u v : List Word64} (hl : u.length = v.length)
    (h : (u.flatMap fun x => leBytes 8 x.toNat) = v.flatMap fun x => leBytes 8 x.toNat) : u = v := by
  have hu := takeValues_flatMap u []
  rw [h, hl, takeValues_flatMap v []] at hu
  cases hu
  rfl

theorem flatMap_valueBytes_eq (xs : List Int) :
    xs.flatMap valueBytes = (words xs).flatMap fun x => leBytes 8 x.toNat := by
  rw [words, List.flatMap_map]
  exact List.flatMap_congr fun x _ => valueBytes_eq x

/-- The words whose bytes a response holds behind its count are those of its values. -/
theorem eq_words_of_valuesData {vals : List Int} {free : Word16} {c : List Byte} {v : List Word64} (hc : c.length = 2)
    (h : c ++ (v.flatMap fun x => leBytes 8 x.toNat) = valuesData vals free) : v = words vals := by
  obtain ⟨-, hbytes⟩ := List.append_inj h (hc.trans (countBytes_length _ _).symm)
  rw [flatMap_valueBytes_eq] at hbytes
  have hlen := congrArg List.length hbytes
  rw [values_length, values_length] at hlen
  exact flatMap_leBytes_injective (by omega) hbytes

theorem words_getElem? (xs : List Int) (i : Nat) : (words xs)[i]? = xs[i]?.map (BitVec.ofInt 64) := by
  rw [words, List.getElem?_map]

/-! ## Writing the decoded values back (R216, R217) -/

section
variable {V : Variant} {p : List Byte} {cnt : Nat}

/-- The word in which a bit-field's value travels. -/
def bitFieldWord (V : Variant) (p : List Byte) (b : BitField) : Word64 :=
  BitVec.ofInt 64 (extract (hostNat V.fields p b) b.shift b.width : Int)

/-- The words of the fixed fields. -/
def fieldWords (V : Variant) (p : List Byte) : List Word64 := words (V.fields.flatMap (fieldScalars p 0))

/-- The words of the tail elements. -/
def elementWords (V : Variant) (p : List Byte) (cnt : Nat) : List Word64 :=
  words ((List.range cnt).flatMap fun e => V.tail.fields.flatMap (fieldScalars p (V.head + e * V.tail.size)))

theorem words_decodedValues (V : Variant) (p : List Byte) (cnt : Nat) :
    words (decodedValues V p cnt) = fieldWords V p ++
      (V.bitfields.map (bitFieldWord V p) ++ (BitVec.ofInt 64 cnt :: elementWords V p cnt)) := by
  simp [decodedValues, words, fieldWords, elementWords, bitFieldWord, Function.comp_def]

@[simp] theorem fieldWords_length (V : Variant) (p : List Byte) : (fieldWords V p).length = fieldValues V.fields := by
  rw [fieldWords, words_length, fieldScalars_flatMap_length]

/-- The bit-fields' words are their parts of the hosts' words. -/
theorem hostedIn_bitFieldWord (hV : SoundVariant V) (p : List Byte) {f : Field} (hf : f ∈ V.fields) {b : BitField}
    (hb : b ∈ V.bitfields) (hn : b.host = f.name) : HostedIn p f b (bitFieldWord V p b) := by
  obtain ⟨hfind, hcount, hunsigned, hpos, hin⟩ := host_of_name hV hf hb hn
  have hw := ScalarType.width_le f.ty
  refine ⟨hcount, hunsigned, hpos, hin, ?_⟩
  rw [bitFieldWord, ofInt_toNat (lt_of_lt_of_le (extract_lt _ _ _) (Nat.pow_le_pow_right (by norm_num) (by omega))),
    hostNat, hfind]

/-- The count field's slot holds the tail count that was read from it. -/
theorem countAgrees_decodedValues (hV : SoundVariant V) (hc : TailCount V p cnt) :
    countAgrees V (words (decodedValues V p cnt)) cnt = true := by
  have hlen : fieldValues V.fields ≤ (words (decodedValues V p cnt)).length := by
    rw [words_length, decodedValues_length]
    omega
  rw [countAgrees_iff hV hlen]
  rintro name size ef pre f post x ht hs rfl hx
  have hnames := hV.names
  rw [hs, List.pairwise_append] at hnames
  have hfind : findField V.fields f.name = some f := by
    rw [hs]
    exact findField_append fun g hg => hnames.2.2 g hg f (by simp)
  obtain ⟨g, hg, hcount, hunsigned⟩ := hV.counter f.name size ef ht
  obtain rfl := Option.some.inj (hfind.symm.trans hg)
  rw [TailCount, ht] at hc
  obtain ⟨⟨g, hg', hcnt⟩, -⟩ := hc
  obtain rfl := Option.some.inj (hfind.symm.trans hg')
  have hat := decodedValues_field V p cnt hs (j := 0) (by omega)
  rw [Nat.add_zero, Nat.zero_mul, Nat.add_zero, scalarValue_unsigned hunsigned, ← hcnt] at hat
  rw [words_getElem?, hat, Option.map_some, Option.some.injEq] at hx
  rw [← hx, ofInt_toNat (hcnt ▸ le_slice_lt_64 p f.off f.ty)]

/-- The three passes and the check between them make the payload (R215). -/
theorem encodePayload_of_passes {vals : List Word64} {q1 q2 q3 : List Byte}
    (h1 : writeFields 0 V.fields vals (List.replicate (payloadLength V cnt) 0#8) = .ok q1)
    (h2 : writeHosts V.bitfields (vals.drop (fieldValues V.fields)) V.fields vals q1 = .ok q2)
    (hagree : countAgrees V vals cnt = true)
    (h3 : writeElements V.tail.size V.tail.fields cnt V.head
      (vals.drop (fieldValues V.fields + V.bitfields.length + 1)) q2 = .ok q3) :
    encodePayload V cnt vals = .ok q3 := by
  rw [payloadLength] at h1
  simp [encodePayload, h1, h2, hagree, h3]

/-- A payload copied over zero bytes at all places that are not gaps is the payload itself. -/
theorem eq_of_copied_outside_gaps {q : List Byte} {S : Nat → Prop} (hlen : p.length = payloadLength V cnt)
    (h : Copied p (List.replicate (payloadLength V cnt) 0#8) q S)
    (hgap : ∀ a, a < payloadLength V cnt → ¬ S a → p[a]? = some 0#8) : q = p := by
  apply List.ext_getElem?
  intro a
  by_cases ha : S a
  · exact h.inside a ha
  · rw [h.outside a ha, List.getElem?_replicate]
    split
    · rw [hgap a (by assumption) ha]
    · rw [List.getElem?_eq_none (by omega)]

/-- The values read from a payload with zero gaps and no bytes behind its tail build that payload (R217). -/
theorem encodePayload_decodedValues (hV : SoundVariant V) (hc : TailCount V p cnt)
    (hlen : p.length = payloadLength V cnt) (hgaps : GapsZero V cnt p) :
    encodePayload V cnt (words (decodedValues V p cnt)) = .ok p := by
  have hfit : ∀ f ∈ V.fields, f.off + f.size ≤ p.length := fun f hf =>
    (hV.fields f hf).2.trans (by rw [hlen, payloadLength]; omega)
  have hwords := words_decodedValues V p cnt
  have hl0 : (List.replicate (payloadLength V cnt) 0#8).length = p.length := by rw [List.length_replicate, hlen]
  obtain ⟨q1, h1, c1⟩ := writeFields_read (base := 0)
    (V.bitfields.map (bitFieldWord V p) ++ (BitVec.ofInt 64 cnt :: elementWords V p cnt)) hl0 (by simpa using hfit)
  obtain ⟨q2, h2, c2⟩ := writeHosts_read (q := q1) (bitFieldWord V p) (BitVec.ofInt 64 cnt :: elementWords V p cnt)
    (V.bitfields.map (bitFieldWord V p) ++ (BitVec.ofInt 64 cnt :: elementWords V p cnt)) (c1.length.trans hl0) hfit
    (fun f hf b hb hn => hostedIn_bitFieldWord hV p hf hb hn) hV.masks
  obtain ⟨q3, h3, c3⟩ := writeElements_read (q := q2) (c2.length.trans (c1.length.trans hl0))
    (fun f hf => (hV.elements f hf).2) hlen.ge
  have hdrop : (words (decodedValues V p cnt)).drop (fieldValues V.fields)
      = V.bitfields.map (bitFieldWord V p) ++ (BitVec.ofInt 64 cnt :: elementWords V p cnt) := by
    rw [hwords, List.drop_left' (fieldWords_length V p)]
  have hdrop' : (words (decodedValues V p cnt)).drop (fieldValues V.fields + V.bitfields.length + 1)
      = elementWords V p cnt := by
    rw [Nat.add_assoc, ← List.drop_drop, hdrop, ← List.drop_drop, List.drop_left' (List.length_map _)]
    rfl
  rw [encodePayload_of_passes (by rw [hwords]; exact h1) (by rw [hdrop, hwords]; exact h2)
    (countAgrees_decodedValues hV hc) (by rw [hdrop']; exact h3)]
  congr 1
  refine eq_of_copied_outside_gaps hlen ((c1.trans c2 fun _ => Iff.rfl).trans c3 fun _ => Iff.rfl) fun a ha hout => ?_
  obtain ⟨hout12, hout3⟩ := not_or.1 hout
  refine hgaps a ha (fun f hf => ?_) fun e he g hg => ?_
  · by_contra hin
    exact hout12 (.inl ⟨f, hf, by omega, by omega⟩)
  · by_contra hin
    exact hout3 ⟨e, he, g, hg, by omega, by omega⟩

/-- A tail count that fits a payload of at most 255 bytes is at most 255 (R200: elements have at least one byte). -/
theorem tailCount_le (hV : SoundVariant V) (hc : TailCount V p cnt) (ha : V.accepts p.length = true)
    (hshort : p.length ≤ 255) : cnt ≤ 255 := by
  have hfit := (decodeVariant_ok hV ha hc).2
  by_cases ht : V.tail = .none
  · rw [TailCount, ht] at hc
    have hc : cnt = 0 := hc
    omega
  · have hsize := hV.tail ((tail_variable_iff _).2 ht)
    have hmul : cnt ≤ cnt * V.tail.size := Nat.le_mul_of_pos_right cnt hsize
    omega

end

/-- The words of a packet value of an encodable layout are encoded to the frame of its payload. -/
theorem encodeLayout_words {L : Layout} {V : Variant} {n cnt : Nat} {p : List Byte} (henc : L.encodable = true)
    (hn : L.variants[n]? = some V) (hn64 : n < 2 ^ 64) (hcnt64 : cnt < 2 ^ 64) (hV : SoundVariant V)
    (hc : TailCount V p cnt) (hlen : p.length = payloadLength V cnt) (hshort : p.length ≤ 255)
    (hgaps : GapsZero V cnt p) :
    encodeLayout L (words ((n : Int) :: decodedValues V p cnt)) = encodeFrame L.pid (BitVec.ofNat 8 p.length) p := by
  have hcheck : Encodable V (words (decodedValues V p cnt)) cnt := by
    refine ⟨by rw [words_length, decodedValues_length, valueCount], fun ht => ?_, hlen ▸ hshort⟩
    rwa [TailCount, ht] at hc
  have hslot : (words (decodedValues V p cnt))[fieldValues V.fields + V.bitfields.length]?
      = some (BitVec.ofInt 64 cnt) := by
    rw [words_getElem?, decodedValues_count, Option.map_some]
  have hstep := encodeLayout_of_count (vi := BitVec.ofInt 64 n) henc (by rwa [ofInt_toNat hn64]) hslot
  rw [ofInt_toNat hcnt64, encodeVariant_of_encodable hcheck, encodePayload_decodedValues hV hc hlen hgaps,
    ← hlen] at hstep
  exact hstep

/-- Settles O48: the decoded words are those of the payload's values, and encoding them gives the payload back. -/
theorem codecEncodeInvertsDecode : Obligations.CodecEncodeInvertsDecode := by
  intro s k L V h p v cnt hwf hk henc hVmem ha hshort hcnt hlen hgaps hexec
  obtain ⟨n, hn⟩ := List.mem_iff_getElem?.1 hVmem
  obtain ⟨-, hV⟩ := selectFrom_variant hwf hk hn ha
  obtain ⟨vals, hvals, hdata⟩ := decodeLayout_of_answer hk hexec
  obtain ⟨c, hc, rfl⟩ := decodeLayout_eq_ok hwf hk hn ha hvals
  obtain rfl := eq_words_of_valuesData (leBytes_length 2 _) hdata
  have hc64 : c < 2 ^ 64 := by
    have := tailCount_le hV hc ha hshort
    omega
  have hn64 : n < 2 ^ 64 := by
    have := (List.getElem?_eq_some_iff.1 hn).1
    have := Layout.variants_length (Config.layout_wf hwf hk)
    omega
  have hcntc : cnt.toNat = c := by
    rw [words_getElem?, Nat.add_assoc, Nat.add_comm, List.getElem?_cons_succ, decodedValues_count, Option.map_some,
      Option.some.injEq] at hcnt
    rw [← hcnt, ofInt_toNat hc64]
  rw [hcntc] at hlen hgaps
  rw [exec_codecEncode_of_layout hk, encodeLayout_words henc hn hn64 hc64 hV hc hlen hshort hgaps]
  rfl

/-! ## The request layout (R221) -/

theorem requestVariant_sound : SoundVariant requestVariant := soundVariant_of_wf (by decide)

theorem valueCount_request (n : Nat) : valueCount requestVariant n = n + 1 := by
  simp [valueCount, requestVariant, fieldValues, Tail.fields, Nat.add_comm]

theorem payloadLength_request (n : Nat) : payloadLength requestVariant n = n := by
  simp [payloadLength, requestVariant, Tail.size]

/-- The slot of id `e` among the values after the variant index: it stands behind the number of ids. -/
theorem request_slot (n : Word64) (ids : List Word64) (e : Nat) :
    (n :: ids)[fieldValues requestVariant.fields + requestVariant.bitfields.length + 1
        + e * fieldValues requestVariant.tail.fields + fieldValues [] + 0]? = ids[e]? := by
  have hindex : fieldValues requestVariant.fields + requestVariant.bitfields.length + 1
      + e * fieldValues requestVariant.tail.fields + fieldValues [] + 0 = e + 1 := by
    simp [requestVariant, fieldValues, Tail.fields, Nat.add_comm]
  rw [hindex, List.getElem?_cons_succ]

/-- The payload of a request is its ids, one byte each. -/
theorem encodePayload_request {ids : List Word64} {n : Word64} {p : List Byte}
    (h : encodePayload requestVariant ids.length (n :: ids) = .ok p) : p = ids.map (BitVec.setWidth 8) := by
  have hlen := encodePayload_length requestVariant_sound h
  rw [payloadLength_request] at hlen
  obtain ⟨q1, q2, hb⟩ := built_of_encodePayload requestVariant_sound h
  refine List.ext_getElem (by rw [hlen, List.length_map]) fun e h₁ h₂ => ?_
  have he : e < ids.length := by omega
  have hel := hb.elements e [] _ [] 0 ids[e] he rfl Nat.one_pos
    ((request_slot n ids e).trans (List.getElem?_eq_getElem he))
  have hplace : elementAt p (requestVariant.head + e * requestVariant.tail.size) ⟨"packet_id", 0, .u8, 1⟩ 0
      = [p[e]] := by
    simp only [elementAt, requestVariant, Tail.size, Nat.zero_add, Nat.mul_one, Nat.add_zero, Nat.zero_mul,
      List.drop_eq_getElem_cons h₁]
    rfl
  rw [hplace] at hel
  rw [List.getElem_map, List.head_eq_of_cons_eq hel]
  exact BitVec.eq_of_toNat_eq (by simp)

/-- The values of a request fit exactly when each id fits a byte. -/
theorem valuesFit_request_iff (ids : List Word64) (n : Word64) :
    ValuesFit requestVariant ids.length (n :: ids) ↔ ∀ x ∈ ids, x.toNat ≤ 255 := by
  constructor
  · intro h x hx
    obtain ⟨e, he⟩ := List.mem_iff_getElem?.1 hx
    have hlt := (List.getElem?_eq_some_iff.1 he).1
    have hfits : SlotFits .u8 x :=
      h.elements e [] ⟨"packet_id", 0, .u8, 1⟩ [] 0 x hlt rfl Nat.one_pos ((request_slot n ids e).trans he)
    exact Nat.le_of_lt_succ hfits
  · intro h
    refine ⟨fun pre f post _ _ hs => ?_, fun pre b post _ hs => ?_, fun _ _ _ _ _ _ _ ht => ?_, ?_⟩
    · cases pre <;> cases hs
    · cases pre <;> cases hs
    · cases ht
    · intro e pre g post j x _ hs hj hx
      obtain ⟨rfl, rfl⟩ : pre = [] ∧ g = ⟨"packet_id", 0, .u8, 1⟩ := by
        cases pre with
        | nil => cases hs; exact ⟨rfl, rfl⟩
        | cons f pre => cases pre <;> cases hs
      obtain rfl : j = 0 := Nat.lt_one_iff.1 hj
      exact Nat.lt_succ_of_le (h x (List.mem_of_getElem? ((request_slot n ids e).symm.trans hx)))

theorem exec_codecEncode_request {s : State} (hlayouts : s.cfg.layouts = State.reset.cfg.layouts) (n : Word64)
    (ids : List Word64) : exec (.codecEncode 0x01#8 (0 :: n :: ids)) s
      = commitData s (encodeVariant 0x01#8 requestVariant (n :: ids) n.toNat) := by
  rw [exec_codecEncode_of_layout (layout_request hlayouts)]
  exact congrArg (commitData s) (encodeLayout_of_count rfl rfl rfl)

/-- Both branches, without looking at how the condition is decided: `split` would unfold a decision that runs over all
64-bit words. -/
theorem ite_of_cases {c a b : Prop} {dec : Decidable c} (hpos : c → a) (hneg : ¬ c → b) : @ite Prop c dec a b := by
  cases dec with
  | isTrue h => exact hpos h
  | isFalse h => exact hneg h

/-- Settles O45: the number of values first, then the payload's length, then each id's range; what is left is framed. -/
theorem requestEncodesItsIds : Obligations.RequestEncodesItsIds := by
  intro s ids hlayouts hids
  refine ⟨?agreeing, fun n hn => ?disagreeing⟩
  case agreeing =>
    have hn : (BitVec.ofNat 64 ids.length).toNat = ids.length := by rw [BitVec.toNat_ofNat, Nat.mod_eq_of_lt hids]
    have hlen : (BitVec.ofNat 64 ids.length :: ids).length = valueCount requestVariant ids.length :=
      (valueCount_request _).symm
    rw [exec_codecEncode_request hlayouts, hn]
    split
    case isTrue hlong =>
      rw [encodeVariant_of_long hlen nofun (by rwa [payloadLength_request]), commitData_error]
    case isFalse hshort =>
      have henc : Encodable requestVariant (BitVec.ofNat 64 ids.length :: ids) ids.length :=
        ⟨hlen, nofun, by rw [payloadLength_request]; omega⟩
      rw [encodeVariant_of_encodable henc, payloadLength_request]
      refine @ite_of_cases _ _ _ _ ?_ ?_
      · rintro ⟨x, hx, hbig⟩
        rw [encodePayload_of_not_fit requestVariant_sound henc.fields_le
          fun hfit => absurd ((valuesFit_request_iff ids _).1 hfit x hx) (by omega)]
        rfl
      · intro hsmall
        obtain ⟨p, hp⟩ := (encodePayload_ok_iff requestVariant_sound henc.fields_le).2
          ((valuesFit_request_iff ids _).2 fun x hx => not_lt.1 fun hbig => hsmall ⟨x, hx, hbig⟩)
        obtain rfl := encodePayload_request hp
        have hframe := encodeFrame_of_short (p := ids.map (BitVec.setWidth 8)) (by rw [List.length_map]; omega) 0x01#8
        rw [List.length_map] at hframe
        rw [hp]
        exact ⟨_, congrArg (commitData s) hframe, exec_encode_of_ok s hframe⟩
  case disagreeing =>
    have hne : (n :: ids).length ≠ valueCount requestVariant n.toNat := by
      rw [valueCount_request, List.length_cons]
      omega
    rw [exec_codecEncode_request hlayouts, encodeVariant_of_wrong_values hne, commitData_error]

end Sys2Proof.Machine
end
